-- ==== Sys2Proof/Word.lean ====
section
/-! DEFINITION. The word types of the unit: a word is 32 bits, a byte 8 bits (R8), a bus address a 28-bit
byte offset from the unit's base (R70). -/

namespace Sys2Proof

/-- `u32` (R8): the width of a register, of a table entry and of a bus transaction. -/
abbrev Word := BitVec 32

/-- `u8` (R8). -/
abbrev Byte := BitVec 8

/-- A byte offset from `BASE`, 0 to 0x0FFF_FFFF (R70). -/
abbrev BusAddr := BitVec 28

/-- The 32-bit pattern of an exact natural number, reduced modulo 2^32 (R9). -/
abbrev word (n : Nat) : Word := BitVec.ofNat 32 n

end Sys2Proof
end

