-- ==== Sys2Proof/Config.lean ====
section
/-! DEFINITION. The parameters of the unit (R6), at the values this hardware takes (log 9), and the free values:
constants without a body, of which nothing can be proved but what the definitions that use them add. -/

namespace Sys2Proof.Config

/-- `BLOCK`: side of a block in pixels. -/
abbrev block : Nat := 8
/-- `BPP`: bytes per pixel. -/
abbrev bpp : Nat := 4
/-- `KEY_DEFAULT`: default key length in bytes, used by the host procedure `deriveKey`. -/
abbrev keyDefault : Nat := 16
/-- `IV_DEFAULT`: default IV length in bytes, used by the host procedure `generateIV`. -/
abbrev ivDefault : Nat := 16
/-- `KEY_MAX`: capacity of the key file in bytes. -/
abbrev keyMax : Nat := 32
/-- `IV_MAX`: capacity of the IV file in bytes. -/
abbrev ivMax : Nat := 32
/-- `BUF_BYTES`: capacity of each pixel buffer in bytes. -/
abbrev bufBytes : Nat := 4194304
/-- `MAX_PIXELS = BUF_BYTES / 4`. -/
abbrev maxPixels : Nat := 1048576
/-- `MAX_BLOCKS = BUF_BYTES / 256`: entries of `PERMTAB` and of `INVTAB`. -/
abbrev maxBlocks : Nat := 16384
/-- `XS_A`, `XS_B`, `XS_C`: the three shift distances of the xorshift step. -/
abbrev xsA : Nat := 23
@[inherit_doc xsA] abbrev xsB : Nat := 17
@[inherit_doc xsA] abbrev xsC : Nat := 26
/-- `FOLD_KEY_MUL`, `FOLD_IV_MUL`: multipliers of the seed fold. -/
abbrev foldKeyMul : Word := 31
@[inherit_doc foldKeyMul] abbrev foldIvMul : Word := 17
/-- `LCG_MUL`, `LCG_INC`: multiplier and increment of the LCG. -/
abbrev lcgMul : Word := 1664525
@[inherit_doc lcgMul] abbrev lcgInc : Word := 1013904223
/-- `FRAC`: fraction bits of every fixed-point result register. -/
abbrev frac : Nat := 24
/-- `ENT_TOL`: tolerance of the entropy result in units of 2^-24. -/
abbrev entTol : Nat := 256
/-- The word `ID` reads as (R24). -/
abbrev idWord : Word := 0x584B4701

/-- FREE VALUE (U3, R48, R261; log 2). The byte at a table or buffer address (second argument, a bus offset)
that nothing has written since the reset numbered by the first argument: fixed, unknown, the same on every read. -/
opaque unwrittenByte : Nat → Nat → Byte

/-- FREE VALUE (U1, R178; log 5). The value an implementation of `entQ` returns for 256 counts and their total,
before the limits of R178 are put on it (`Machine.entQ` puts them). -/
opaque entFree : List Nat → Nat → Nat

/-- FREE VALUE (R122; log 14). The bytes of the host's secure random source: byte (second argument) of the IV that
call number (first argument) of `generateIV` draws. -/
opaque ivDraw : Nat → Nat → Byte

end Sys2Proof.Config
end

