-- ==== Sys2Proof/Syntax.lean ====
section
/-! DEFINITION. The commands of the unit (R102), one constructor per row of `spec/opcode_table.json`; the host's
transactions and the reset event (R70, R72, R250); the lines of a host script (R106, R107). -/

namespace Sys2Proof

/-- The two pixel buffers (R45). As the operand of a command: the primary buffer `P` that `SEL` picks (R103). -/
inductive Buffer
  /-- `BUFA`: `SEL = 0`. -/
  | bufA
  /-- `BUFB`: `SEL = 1`. -/
  | bufB
deriving DecidableEq, Repr

/-- The fifteen commands (R102). A command whose row says "SEL: yes" carries its primary buffer. -/
inductive Instr
  /-- 0x00 `NOP`, R210. -/
  | nop
  /-- 0x01 `XS_SEED`, R131. -/
  | xsSeed
  /-- 0x02 `XS_STEP`, R132. -/
  | xsStep
  /-- 0x03 `KS_GEN`, R134. -/
  | ksGen (p : Buffer)
  /-- 0x04 `STREAM_ENC`, R135. -/
  | streamEnc (p : Buffer)
  /-- 0x05 `STREAM_DEC`, R136. -/
  | streamDec (p : Buffer)
  /-- 0x10 `LCG_DERIVE`, R151. -/
  | lcgDerive
  /-- 0x11 `LCG_NEXT`, R152. -/
  | lcgNext
  /-- 0x12 `PERM_BUILD`, R155. -/
  | permBuild (p : Buffer)
  /-- 0x13 `PERM_ENC`, R157. -/
  | permEnc (p : Buffer)
  /-- 0x14 `PERM_DEC`, R158. -/
  | permDec (p : Buffer)
  /-- 0x20 `HIST`, R175. -/
  | hist (p : Buffer)
  /-- 0x21 `ENTROPY`, R177. -/
  | entropy (p : Buffer)
  /-- 0x22 `CORR`, R190. -/
  | corr (p : Buffer)
  /-- 0x23 `NPCR_UACI`, R200. -/
  | npcrUaci
deriving DecidableEq, Repr

/-- The width of a bus transaction. Only `w32` is served (R72). -/
inductive AccessWidth
  | w8
  | w16
  | w32
  | w64
  | burst
deriving DecidableEq, Repr

/-- What the outside does to the unit, one event at a time (R20, R71): a transaction or a reset. -/
inductive HostEvent
  /-- `RD(addr)`. -/
  | rd (addr : BusAddr) (width : AccessWidth)
  /-- `WR(addr, data)`. The data of a width other than 32 bits has no effect and is not represented (log 7). -/
  | wr (addr : BusAddr) (width : AccessWidth) (data : Word)
  /-- The reset event (R250). -/
  | reset
deriving DecidableEq, Repr

/-- The unit's answer to one transaction (R70). -/
inductive Answer
  /-- A completed `RD` and the value it returned. -/
  | value (v : Word)
  /-- A completed `WR`. -/
  | written
  /-- A bus error (R85). -/
  | busError
deriving DecidableEq, Repr

/-- A line of a host script (R106, R107): the two real statements and the pseudo-instructions. -/
inductive ScriptLine
  /-- `WR <addr>, <value>` -/
  | wr (addr : BusAddr) (value : Word)
  /-- `RD <addr>` -/
  | rd (addr : BusAddr)
  /-- `<MNEMONIC>`, `<MNEMONIC>.A` or `<MNEMONIC>.B`: the suffix is the command's buffer operand. -/
  | command (i : Instr)
  /-- `SETKEY b0 b1 ...` -/
  | setKey (bytes : List Byte)
  /-- `SETIV b0 b1 ...` -/
  | setIv (bytes : List Byte)
  /-- `SETDIM.A w, h` or `SETDIM.B w, h` -/
  | setDim (b : Buffer) (w h : Word)
  /-- `CLRSTICKY` -/
  | clrSticky
  /-- `FILL.A <word>, <count>` or `FILL.B <word>, <count>` -/
  | fill (b : Buffer) (value : Word) (count : Nat)
deriving DecidableEq, Repr

end Sys2Proof
end

