-- ==== Sys2Proof/WellFormed.lean ====
section
/-! DEFINITION. What a well-formed term is. The operands of `Instr` are typed so that no constructor can be given an
operand its row does not allow; the checks that can fail are those on host events (R72) and on script lines (R107). -/

namespace Sys2Proof

/-- Every term of `Instr` is well formed: a "SEL: no" command has no buffer operand to be wrong (R102). -/
def Instr.wellFormed : Instr → Bool
  | .nop | .xsSeed | .xsStep | .lcgDerive | .lcgNext | .npcrUaci => true
  | .ksGen _ | .streamEnc _ | .streamDec _ => true
  | .permBuild _ | .permEnc _ | .permDec _ => true
  | .hist _ | .entropy _ | .corr _ => true

/-- A transaction the bus serves, if its address is mapped: 32 bits at a multiple of 4 (R72). -/
def HostEvent.wellFormed : HostEvent → Bool
  | .rd a w => w == .w32 && a.toNat % 4 == 0
  | .wr a w _ => w == .w32 && a.toNat % 4 == 0
  | .reset => true

/-- The offset of the first byte of a buffer's window (R73). -/
abbrev Buffer.base : Buffer → Nat
  | .bufA => 0x1000000
  | .bufB => 0x2000000

/-- The limits of the pseudo-instructions (R107): a key of 1 to 32 bytes, an IV of 0 to 32 bytes, addresses that
are 28-bit offsets at multiples of 4 (R70, R72). -/
def ScriptLine.wellFormed : ScriptLine → Bool
  | .wr a _ => a.toNat % 4 == 0
  | .rd a => a.toNat % 4 == 0
  | .command i => i.wellFormed
  | .setKey bs => 1 ≤ bs.length && bs.length ≤ Config.keyMax
  | .setIv bs => bs.length ≤ Config.ivMax
  | .setDim _ _ _ => true
  | .clrSticky => true
  | .fill b _ n => b.base + 4 * n ≤ 2 ^ 28

end Sys2Proof
end

