-- ==== Sys2Proof/Decode.lean ====
section
/-! DEFINITION. Decoding of the command word (R100 to R105), total on every word and rejecting by name, and after it
the encoder, written from the same table (R102). -/

namespace Sys2Proof

/-- Why a command word is illegal (R101, R105). All three are reported as `IllegalCommandError` (R229). -/
inductive DecodeError
  /-- A bit of 31:9 is 1. -/
  | reservedBits
  /-- `OPC` is one of the 241 unlisted values. -/
  | unlistedOpcode
  /-- `SEL = 1` on a "SEL: no" command. -/
  | selNotAllowed
deriving DecidableEq, Repr

/-- Bits 7:0 of the command word (R100). -/
def opcField (w : Word) : BitVec 8 := w.extractLsb' 0 8

/-- Bit 8 of the command word (R100). -/
def selField (w : Word) : Bool := w.getLsbD 8

/-- Bits 31:9 of the command word (R100). -/
def rsvField (w : Word) : BitVec 23 := w.extractLsb' 9 23

/-- A row whose "SEL" is "no" (R102). -/
def rowNoSel (i : Instr) (sel : Bool) : Except DecodeError Instr :=
  if sel then .error .selNotAllowed else .ok i

/-- The primary buffer a `SEL` bit picks (R103). -/
def selBuffer (sel : Bool) : Buffer := if sel then .bufB else .bufA

/-- A row whose "SEL" is "yes" (R102). -/
def rowSel (f : Buffer → Instr) (sel : Bool) : Except DecodeError Instr := .ok (f (selBuffer sel))

/-- The opcode map (R102). -/
def decodeRow (opc : Nat) (sel : Bool) : Except DecodeError Instr :=
  match opc with
  | 0x00 => rowNoSel .nop sel
  | 0x01 => rowNoSel .xsSeed sel
  | 0x02 => rowNoSel .xsStep sel
  | 0x03 => rowSel .ksGen sel
  | 0x04 => rowSel .streamEnc sel
  | 0x05 => rowSel .streamDec sel
  | 0x10 => rowNoSel .lcgDerive sel
  | 0x11 => rowNoSel .lcgNext sel
  | 0x12 => rowSel .permBuild sel
  | 0x13 => rowSel .permEnc sel
  | 0x14 => rowSel .permDec sel
  | 0x20 => rowSel .hist sel
  | 0x21 => rowSel .entropy sel
  | 0x22 => rowSel .corr sel
  | 0x23 => rowNoSel .npcrUaci sel
  | _ => .error .unlistedOpcode

/-- The decoder (R101). It reads nothing but the word. -/
def decode (w : Word) : Except DecodeError Instr :=
  if rsvField w = 0 then decodeRow (opcField w).toNat (selField w) else .error .reservedBits

/-- The decoder on an opcode-table row's word. The command word is the data of one 32-bit bus write (R100, R104), so
bit n of the table is bit n of the word; a word that does not fit in 32 bits is no command word. -/
def decodeTableWord (nbits w : Nat) : Option Instr :=
  if w % 2 ^ nbits < 2 ^ 32 then (decode (word (w % 2 ^ nbits))).toOption else none

/-- `OPC` of a command (R102). -/
def opcodeOf : Instr → BitVec 8
  | .nop => 0x00
  | .xsSeed => 0x01
  | .xsStep => 0x02
  | .ksGen _ => 0x03
  | .streamEnc _ => 0x04
  | .streamDec _ => 0x05
  | .lcgDerive => 0x10
  | .lcgNext => 0x11
  | .permBuild _ => 0x12
  | .permEnc _ => 0x13
  | .permDec _ => 0x14
  | .hist _ => 0x20
  | .entropy _ => 0x21
  | .corr _ => 0x22
  | .npcrUaci => 0x23

/-- The primary buffer a command names, where its row allows `SEL` (R102). -/
def primaryOf : Instr → Option Buffer
  | .nop => none
  | .xsSeed => none
  | .xsStep => none
  | .ksGen p => some p
  | .streamEnc p => some p
  | .streamDec p => some p
  | .lcgDerive => none
  | .lcgNext => none
  | .permBuild p => some p
  | .permEnc p => some p
  | .permDec p => some p
  | .hist p => some p
  | .entropy p => some p
  | .corr p => some p
  | .npcrUaci => none

/-- The `SEL` bit of a command (R103). -/
def selOf (i : Instr) : BitVec 1 := if primaryOf i = some .bufB then 1 else 0

/-- The encoder: the command word of an instruction (R100). -/
def encode (i : Instr) : Word := 0#23 ++ selOf i ++ opcodeOf i

/-- The `mask` of an instruction's row in `opcode_table.json` (R102): bit 8 is free where `SEL` is allowed. -/
def rowMask (i : Instr) : Word := if (primaryOf i).isSome then 0xFFFFFEFF else 0xFFFFFFFF

/-- The `match` of an instruction's row in `opcode_table.json` (R102). -/
def rowMatch (i : Instr) : Word := (opcodeOf i).setWidth 32

end Sys2Proof
end

