-- ==== Sys2Proof/Machine/State.lean ====
section
/-! DEFINITION. The state of the unit (R20, R24 to R46) as plain data, the host's side of the interface (R70), the
reset values (R48), and the reasons a step could stop. -/

namespace Sys2Proof.Machine

/-- The written bytes of the tables and buffers (R43 to R45), keyed by bus offset, addresses strictly rising. A byte
that is not listed has not been written since the last reset (log 2, log 6). -/
abbrev Memory := List Host.Cell

/-- The errors a command of the unit can end with (R221). -/
inductive CommandError
  /-- Code 1: `KEYLEN = 0` (R224). -/
  | invalidKey
  /-- Code 2: tracked length differs (R225). -/
  | bufferLengthMismatch
  /-- Code 3: a dimension below one block (R226). -/
  | imageTooSmall
  /-- Code 4: `ITER = 0` (R227). -/
  | invalidIterationCount
  /-- Code 5: pixel counts differ (R228). -/
  | dimensionMismatch
  /-- Code 6: the command word is no row of the opcode map (R229). -/
  | illegalCommand
  /-- Code 7: a length or dimension the hardware cannot hold (R230). -/
  | badParameter
deriving DecidableEq, Repr

/-- The fields of `STATUS` (R26). The reserved bits hold nothing. -/
structure Status where
  done    : Bool
  err     : Bool
  empty   : Bool
  sticky  : Bool
  errCode : Byte
deriving DecidableEq, Repr

/-- A file of eight words: `KEY0` to `KEY7` (R34), `IV0` to `IV7` (R35). -/
structure WordFile where
  w0 : Word
  w1 : Word
  w2 : Word
  w3 : Word
  w4 : Word
  w5 : Word
  w6 : Word
  w7 : Word
deriving DecidableEq, Repr

/-- The xorshift state words `XS0` to `XS3` (R36). -/
structure XsState where
  x0 : Word
  x1 : Word
  x2 : Word
  x3 : Word
deriving DecidableEq, Repr

/-- `ENT_Q` and `ENT_T` (R40). -/
structure EntropyRegs where
  q : Word
  t : Word
deriving DecidableEq, Repr

/-- `CORR_X_ACC`, `CORR_X_CNT`, `CORR_X_Q` of one direction (R41). -/
structure CorrRegs where
  acc : Word
  cnt : Word
  q   : Word
deriving DecidableEq, Repr

/-- The differential results (R42). -/
structure DiffRegs where
  npcrDiff : Word
  npcrN    : Word
  npcrQ    : Word
  uaciSad  : Word
  uaciQ    : Word
deriving DecidableEq, Repr

/-- The state of the machine. -/
structure State where
  /-- `CMD` (R25) -/
  cmd     : Word
  /-- `STATUS` (R26) -/
  status  : Status
  /-- `CTRL.CHKLEN` (R27) -/
  chkLen  : Bool
  /-- `KEYLEN` (R28) -/
  keyLen  : BitVec 6
  /-- `IVLEN` (R29) -/
  ivLen   : BitVec 6
  /-- `A_W` (R30) -/
  aW      : BitVec 16
  /-- `A_H` (R30) -/
  aH      : BitVec 16
  /-- `B_W` (R30) -/
  bW      : BitVec 16
  /-- `B_H` (R30) -/
  bH      : BitVec 16
  /-- `ITER` (R31) -/
  iter    : Word
  /-- `KS_LEN` (R32) -/
  ksLen   : Word
  /-- `ORIGLEN` (R33) -/
  origLen : Word
  /-- `KEY0` to `KEY7` (R34) -/
  key     : WordFile
  /-- `IV0` to `IV7` (R35) -/
  iv      : WordFile
  /-- `XS0` to `XS3` (R36) -/
  xs      : XsState
  /-- `KS_WORD` (R37) -/
  ksWord  : Word
  /-- `LCG_SEED` (R38) -/
  lcgSeed : Word
  /-- `NBLOCKS` (R39) -/
  nBlocks : Word
  /-- `ENT_Q`, `ENT_T` (R40) -/
  ent     : EntropyRegs
  /-- `CORR_H_*` (R41) -/
  corrH   : CorrRegs
  /-- `CORR_V_*` (R41) -/
  corrV   : CorrRegs
  /-- `CORR_D_*` (R41) -/
  corrD   : CorrRegs
  /-- `NPCR_*`, `UACI_*` (R42) -/
  diff    : DiffRegs
  /-- `HIST_R`, `HIST_G`, `HIST_B` (R43), `PERMTAB`, `INVTAB` (R44), `BUFA`, `BUFB` (R45): the written bytes -/
  mem     : Memory
  /-- The host's pending events, oldest first: the model's own field (R22, R49; log 1) -/
  script  : List HostEvent
  /-- The answers the host got, newest first: the model's own field (R70; log 1) -/
  answers : List Answer
  /-- How many reset events there have been: the model's own counter, read by the free value of never-written
  memory only (log 3) -/
  resets  : Nat
deriving DecidableEq, Repr

/-- A named register of the map (R47). -/
inductive Reg
  | id
  | cmd
  | status
  | ctrl
  | keyLen
  | ivLen
  | aW
  | aH
  | bW
  | bH
  | iter
  | ksLen
  | origLen
  | key0
  | key1
  | key2
  | key3
  | key4
  | key5
  | key6
  | key7
  | iv0
  | iv1
  | iv2
  | iv3
  | iv4
  | iv5
  | iv6
  | iv7
  | xs0
  | xs1
  | xs2
  | xs3
  | ksWord
  | lcgSeed
  | nBlocks
  | entQ
  | entT
  | corrHAcc
  | corrHCnt
  | corrHQ
  | corrVAcc
  | corrVCnt
  | corrVQ
  | corrDAcc
  | corrDCnt
  | corrDQ
  | npcrDiff
  | npcrN
  | npcrQ
  | uaciSad
  | uaciQ
deriving DecidableEq, Repr

/-- What a word-aligned bus offset names (R73, R74). -/
inductive Location
  /-- A register of R47. -/
  | register (r : Reg)
  /-- A reserved word: reads 0, ignores writes. -/
  | reserved
  /-- An entry of `HIST_R`, `HIST_G`, `HIST_B`, `PERMTAB` or `INVTAB`: read-only to the host. -/
  | table
  /-- A word of the `BUFA` or `BUFB` window. -/
  | buffer
  /-- No location. -/
  | unmapped
deriving DecidableEq, Repr

/-- Nothing in the spec stops the machine (R85, R222, R234): a command error and a bus error are reports, after which
the unit goes on. So there is no fault to raise (log 12). -/
inductive Fault
deriving DecidableEq, Repr

/-- Why a step could be refused. -/
inductive Refusal
  /-- Raised by an arm of `exec` whose instruction has no meaning yet: no arm is left so. Safe: nothing is claimed
  of such a step. -/
  | notModelled (mnemonic : String)
deriving DecidableEq, Repr

/-- Eight words of 0. -/
def WordFile.zero : WordFile := ⟨0, 0, 0, 0, 0, 0, 0, 0⟩

/-- The state right after reset (R48, R250): every register 0, no byte of a table or buffer written; the model's own
fields empty (log 1, log 3). -/
def State.reset : State where
  cmd := 0
  status := ⟨false, false, false, false, 0⟩
  chkLen := false
  keyLen := 0
  ivLen := 0
  aW := 0
  aH := 0
  bW := 0
  bH := 0
  iter := 0
  ksLen := 0
  origLen := 0
  key := WordFile.zero
  iv := WordFile.zero
  xs := ⟨0, 0, 0, 0⟩
  ksWord := 0
  lcgSeed := 0
  nBlocks := 0
  ent := ⟨0, 0⟩
  corrH := ⟨0, 0, 0⟩
  corrV := ⟨0, 0, 0⟩
  corrD := ⟨0, 0, 0⟩
  diff := ⟨0, 0, 0, 0, 0⟩
  mem := []
  script := []
  answers := []
  resets := 0

end Sys2Proof.Machine
end

