-- ==== Sys2Proof/Machine/Flags.lean ====
section
/-! DEFINITION. Everything the unit computes about `STATUS` (R26): the error codes, the three ways its fields are
written by commands, the host's write, and the word the host reads. -/

namespace Sys2Proof.Machine

/-- The value of `STATUS.ERRCODE` for an error (R221). -/
def CommandError.code : CommandError → Byte
  | .invalidKey => 1
  | .bufferLengthMismatch => 2
  | .imageTooSmall => 3
  | .invalidIterationCount => 4
  | .dimensionMismatch => 5
  | .illegalCommand => 6
  | .badParameter => 7

/-- `STATUS` after a command that ended with error `e` (R222): `EMPTY` is not written. -/
def Status.failed (e : CommandError) (st : Status) : Status :=
  { st with done := false, err := true, sticky := true, errCode := e.code }

/-- `STATUS` after a command that completed (R26, R210): `STICKY` and `EMPTY` are not written. -/
def Status.completed (st : Status) : Status :=
  { st with done := true, err := false, errCode := 0 }

/-- `STATUS.EMPTY` as `CORR` writes it (R193). -/
def Status.withEmpty (e : Bool) (st : Status) : Status := { st with empty := e }

/-- A host write to `STATUS` (R26): bit 3 of the data clears `STICKY`, nothing else changes. -/
def Status.hostWrite (data : Word) (st : Status) : Status :=
  { st with sticky := st.sticky && !data.getLsbD 3 }

/-- The word a read of `STATUS` returns (R26): bits 7:4 and 31:16 read as 0. -/
def Status.toWord (st : Status) : Word :=
  0#16 ++ st.errCode ++ 0#4 ++ BitVec.ofBool st.sticky ++ BitVec.ofBool st.empty ++ BitVec.ofBool st.err
    ++ BitVec.ofBool st.done

end Sys2Proof.Machine
end

