-- ==== Sys2Proof/Machine/Ops.lean ====
section
/-! DEFINITION. The named operations: byte order (R75), memory (R43 to R45), the command's error path and completion
(R222, R231), the reset event (R250). -/

namespace Sys2Proof.Machine

/-! ## Byte order (R75) -/

/-- The four little-endian lanes of a bus word, lowest byte address first (R75 (b)). -/
def laneBytes (w : Word) : List Byte :=
  [w.extractLsb' 0 8, w.extractLsb' 8 8, w.extractLsb' 16 8, w.extractLsb' 24 8]

/-- The bus word of four bytes, the lowest byte address first (R75 (b)). -/
def laneWord (b0 b1 b2 b3 : Byte) : Word := b3 ++ b2 ++ b1 ++ b0

/-- The four bytes of a keystream word, most significant first (R75 (c), R133). -/
def keystreamBytes (w : Word) : List Byte :=
  [w.extractLsb' 24 8, w.extractLsb' 16 8, w.extractLsb' 8 8, w.extractLsb' 0 8]

/-- The 32 bytes of a key or IV file: byte `i` is lane `i mod 4` of word `i div 4` (R34, R35). -/
def WordFile.bytes (f : WordFile) : List Byte :=
  [f.w0, f.w1, f.w2, f.w3, f.w4, f.w5, f.w6, f.w7].flatMap laneBytes

/-! ## Memory -/

/-- The canonical form of memory: addresses strictly rising (log 6). -/
abbrev Memory.wf (m : Memory) : Prop := m.Pairwise (fun c d => c.1 < d.1)

/-- The byte written last at an address; `none` where nothing has written since reset. -/
def Memory.lookup : Memory → Nat → Option Byte
  | [], _ => none
  | (a, b) :: m, x => if a = x then some b else Memory.lookup m x

/-- The cells of a run of bytes from an address on. -/
def Memory.cells : Nat → List Byte → Memory
  | _, [] => []
  | a, b :: bs => (a, b) :: Memory.cells (a + 1) bs

/-- Write a run of bytes from `base` on, keeping the canonical form. -/
def Memory.writeRun (m : Memory) (base : Nat) (bs : List Byte) : Memory :=
  m.filter (fun c => c.1 < base) ++
    (Memory.cells base bs ++ m.filter (fun c => base + bs.length ≤ c.1))

/-- The byte at a bus offset: the one written, or the free value of a never-written byte (R48, U3; log 2). -/
def State.byteAt (s : State) (a : Nat) : Byte :=
  (Memory.lookup s.mem a).getD (Config.unwrittenByte s.resets a)

/-- `n` bytes from `base` on. -/
def State.bytesAt (s : State) (base n : Nat) : List Byte :=
  (List.range n).map fun k => s.byteAt (base + k)

/-- The word at a word-aligned bus offset (R75 (b)). -/
def State.wordAt (s : State) (a : Nat) : Word :=
  laneWord (s.byteAt a) (s.byteAt (a + 1)) (s.byteAt (a + 2)) (s.byteAt (a + 3))

/-- Write a run of bytes from `base` on. -/
def State.store (s : State) (base : Nat) (bs : List Byte) : State :=
  { s with mem := Memory.writeRun s.mem base bs }

/-- Write table entries of 32 bits from `base` on (R43, R44). -/
def State.storeEntries (s : State) (base : Nat) (entries : List Nat) : State :=
  s.store base (entries.flatMap fun v => laneBytes (word v))

/-! ## The end of a command -/

/-- `raise <Error>` (R222): `STATUS` reports the error and nothing else changes. This is the unit's whole taking of an
exception: it saves no state and goes nowhere (R222, R234). -/
def State.raise (e : CommandError) (s : State) : State :=
  { s with status := s.status.failed e }

/-- A command that completed: `DONE = 1`, `ERR = 0`, `ERRCODE = 0` (R26, R210). Beside `raise` there is no return: the
next command overwrites the report (R234). -/
def State.complete (s : State) : State :=
  { s with status := s.status.completed }

/-- The error reported when several checks apply: the first in the list (R231). -/
def firstError : List (Bool × CommandError) → Option CommandError
  | [] => none
  | (failed, e) :: rest => if failed then some e else firstError rest

/-- A command: all checks at entry, before any write; then either the error report alone or the whole effect and
completion (R220, R222). -/
def runChecked (checks : List (Bool × CommandError)) (effect : State → State) (s : State) :
    Host.Outcome State Fault Refusal :=
  match firstError checks with
  | some e => .next (s.raise e)
  | none => .next (effect s).complete

/-! ## Reset -/

/-- The reset event (R250): every register takes its reset value, the tables and buffers hold unspecified values anew.
The host's remaining script and the answers it already got are not the unit's (log 4). -/
def State.resetEvent (s : State) : State :=
  { State.reset with script := s.script, answers := s.answers, resets := s.resets + 1 }

end Sys2Proof.Machine
end

