-- ==== Sys2Proof/Machine/Operands.lean ====
section
/-! DEFINITION. The operands of the commands (R103, R104): key and IV bytes, the primary and the secondary buffer with
their dimensions, the pixels of an image, and the conditions the commands check at entry (R224 to R230). -/

namespace Sys2Proof.Machine

/-! ## Key and IV -/

/-- `KEY[0 .. KEYLEN - 1]` (R34). -/
def State.keyBytes (s : State) : List Byte := s.key.bytes.take s.keyLen.toNat

/-- `IV[0 .. IVLEN - 1]` (R35). -/
def State.ivBytes (s : State) : List Byte := s.iv.bytes.take s.ivLen.toNat

/-! ## Buffers -/

/-- The other buffer: the secondary of a primary (R103). -/
def otherBuffer : Buffer → Buffer
  | .bufA => .bufB
  | .bufB => .bufA

/-- The width register of a buffer (R30, R103). -/
def State.width (s : State) : Buffer → Nat
  | .bufA => s.aW.toNat
  | .bufB => s.bW.toNat

/-- The height register of a buffer (R30, R103). -/
def State.height (s : State) : Buffer → Nat
  | .bufA => s.aH.toNat
  | .bufB => s.bH.toNat

/-- `PN`: the pixel count of the image in a buffer (R103). -/
def State.pixelCount (s : State) (b : Buffer) : Nat := s.width b * s.height b

/-- `PLEN`: the length in bytes of the image in a buffer (R30, R103). -/
def State.imageLen (s : State) (b : Buffer) : Nat := 4 * s.pixelCount b

/-- Set the width and height registers of a buffer (R156). -/
def State.setDims (s : State) (b : Buffer) (w h : Nat) : State :=
  match b with
  | .bufA => { s with aW := BitVec.ofNat 16 w, aH := BitVec.ofNat 16 h }
  | .bufB => { s with bW := BitVec.ofNat 16 w, bH := BitVec.ofNat 16 h }

/-- One pixel: bytes R, G, B, A (R45). -/
structure Pixel where
  r : Byte
  g : Byte
  b : Byte
  a : Byte
deriving DecidableEq, Repr

/-- The bytes of a pixel at increasing addresses (R75 (a)). -/
def Pixel.bytes (p : Pixel) : List Byte := [p.r, p.g, p.b, p.a]

/-- `S(x, y)`: the channel sum of a pixel, 0 to 765 (R191). -/
def Pixel.sum (p : Pixel) : Nat := p.r.toNat + p.g.toNat + p.b.toNat

/-- The pixel with pixel index `k` of a buffer (R45). -/
def State.pixelAt (s : State) (b : Buffer) (k : Nat) : Pixel :=
  { r := s.byteAt (b.base + 4 * k), g := s.byteAt (b.base + 4 * k + 1),
    b := s.byteAt (b.base + 4 * k + 2), a := s.byteAt (b.base + 4 * k + 3) }

/-- The pixels of the image in a buffer, in pixel-index order (R45). -/
def State.image (s : State) (b : Buffer) : List Pixel :=
  (List.range (s.pixelCount b)).map (s.pixelAt b)

/-! ## The conditions checked at entry -/

/-- `KEYLEN > 32` (R230). -/
def State.keyTooLong (s : State) : Bool := Config.keyMax < s.keyLen.toNat

/-- `IVLEN > 32` (R230). -/
def State.ivTooLong (s : State) : Bool := Config.ivMax < s.ivLen.toNat

/-- `KEYLEN = 0` (R224). -/
def State.keyMissing (s : State) : Bool := s.keyLen.toNat == 0

/-- A width or height of 0, or an image above the capacity of the buffer (R230). -/
def State.badDims (s : State) (b : Buffer) : Bool :=
  s.width b == 0 || s.height b == 0 || Config.bufBytes < s.imageLen b

/-- `PW < 8` or `PH < 8` (R226). -/
def State.tooSmall (s : State) (b : Buffer) : Bool :=
  s.width b < Config.block || s.height b < Config.block

/-- `CTRL.CHKLEN = 1` and `PLEN != ORIGLEN` (R225). -/
def State.lengthDiffers (s : State) (b : Buffer) : Bool :=
  s.chkLen && s.imageLen b != s.origLen.toNat

end Sys2Proof.Machine
end

