-- ==== Sys2Proof/Machine/Bus.lean ====
section
/-! DEFINITION. The host's access to the unit (R70 to R77, R85): the register map (R47), the address map (R73), what a
read returns and what a write does. -/

namespace Sys2Proof.Machine

/-! ## The register map (R47) -/

/-- The offset of each register (R47). -/
def Reg.offset : Reg → Nat
  | .id => 0x000
  | .cmd => 0x004
  | .status => 0x008
  | .ctrl => 0x00C
  | .keyLen => 0x010
  | .ivLen => 0x014
  | .aW => 0x018
  | .aH => 0x01C
  | .bW => 0x020
  | .bH => 0x024
  | .iter => 0x028
  | .ksLen => 0x02C
  | .origLen => 0x030
  | .key0 => 0x040
  | .key1 => 0x044
  | .key2 => 0x048
  | .key3 => 0x04C
  | .key4 => 0x050
  | .key5 => 0x054
  | .key6 => 0x058
  | .key7 => 0x05C
  | .iv0 => 0x060
  | .iv1 => 0x064
  | .iv2 => 0x068
  | .iv3 => 0x06C
  | .iv4 => 0x070
  | .iv5 => 0x074
  | .iv6 => 0x078
  | .iv7 => 0x07C
  | .xs0 => 0x080
  | .xs1 => 0x084
  | .xs2 => 0x088
  | .xs3 => 0x08C
  | .ksWord => 0x090
  | .lcgSeed => 0x094
  | .nBlocks => 0x098
  | .entQ => 0x0A0
  | .entT => 0x0A4
  | .corrHAcc => 0x0B0
  | .corrHCnt => 0x0B4
  | .corrHQ => 0x0B8
  | .corrVAcc => 0x0C0
  | .corrVCnt => 0x0C4
  | .corrVQ => 0x0C8
  | .corrDAcc => 0x0D0
  | .corrDCnt => 0x0D4
  | .corrDQ => 0x0D8
  | .npcrDiff => 0x0E0
  | .npcrN => 0x0E4
  | .npcrQ => 0x0E8
  | .uaciSad => 0x0F0
  | .uaciQ => 0x0F4

/-- Every register of the map, in the order of their offsets. -/
def allRegs : List Reg :=
  [.id, .cmd, .status, .ctrl, .keyLen, .ivLen, .aW, .aH, .bW, .bH, .iter, .ksLen, .origLen] ++
  [.key0, .key1, .key2, .key3, .key4, .key5, .key6, .key7, .iv0, .iv1, .iv2, .iv3, .iv4] ++
  [.iv5, .iv6, .iv7, .xs0, .xs1, .xs2, .xs3, .ksWord, .lcgSeed, .nBlocks, .entQ, .entT, .corrHAcc] ++
  [.corrHCnt, .corrHQ, .corrVAcc, .corrVCnt, .corrVQ, .corrDAcc, .corrDCnt, .corrDQ, .npcrDiff, .npcrN, .npcrQ, .uaciSad, .uaciQ]

/-- The register at an offset; `none` for a reserved word. -/
def regAt (a : Nat) : Option Reg := allRegs.find? fun r => r.offset == a

/-- The value a read of a register returns (R24 to R42): bits a field does not have read 0. -/
def State.readReg (s : State) : Reg → Word
  | .id => Config.idWord
  | .cmd => s.cmd
  | .status => s.status.toWord
  | .ctrl => (BitVec.ofBool s.chkLen).setWidth 32
  | .keyLen => s.keyLen.setWidth 32
  | .ivLen => s.ivLen.setWidth 32
  | .aW => s.aW.setWidth 32
  | .aH => s.aH.setWidth 32
  | .bW => s.bW.setWidth 32
  | .bH => s.bH.setWidth 32
  | .iter => s.iter
  | .ksLen => s.ksLen
  | .origLen => s.origLen
  | .key0 => s.key.w0
  | .key1 => s.key.w1
  | .key2 => s.key.w2
  | .key3 => s.key.w3
  | .key4 => s.key.w4
  | .key5 => s.key.w5
  | .key6 => s.key.w6
  | .key7 => s.key.w7
  | .iv0 => s.iv.w0
  | .iv1 => s.iv.w1
  | .iv2 => s.iv.w2
  | .iv3 => s.iv.w3
  | .iv4 => s.iv.w4
  | .iv5 => s.iv.w5
  | .iv6 => s.iv.w6
  | .iv7 => s.iv.w7
  | .xs0 => s.xs.x0
  | .xs1 => s.xs.x1
  | .xs2 => s.xs.x2
  | .xs3 => s.xs.x3
  | .ksWord => s.ksWord
  | .lcgSeed => s.lcgSeed
  | .nBlocks => s.nBlocks
  | .entQ => s.ent.q
  | .entT => s.ent.t
  | .corrHAcc => s.corrH.acc
  | .corrHCnt => s.corrH.cnt
  | .corrHQ => s.corrH.q
  | .corrVAcc => s.corrV.acc
  | .corrVCnt => s.corrV.cnt
  | .corrVQ => s.corrV.q
  | .corrDAcc => s.corrD.acc
  | .corrDCnt => s.corrD.cnt
  | .corrDQ => s.corrD.q
  | .npcrDiff => s.diff.npcrDiff
  | .npcrN => s.diff.npcrN
  | .npcrQ => s.diff.npcrQ
  | .uaciSad => s.diff.uaciSad
  | .uaciQ => s.diff.uaciQ

/-- A host write of `v` to a register other than `CMD` (R24 to R42, R74): the writable bits are stored; a write to a
read-only register is ignored; a write to `STATUS` can clear `STICKY` only. (A write to `CMD` also starts a command:
`deliver`.) -/
def State.writeReg (s : State) (v : Word) : Reg → State
  | .id => s
  | .cmd => { s with cmd := v }
  | .status => { s with status := s.status.hostWrite v }
  | .ctrl => { s with chkLen := v.getLsbD 0 }
  | .keyLen => { s with keyLen := v.setWidth 6 }
  | .ivLen => { s with ivLen := v.setWidth 6 }
  | .aW => { s with aW := v.setWidth 16 }
  | .aH => { s with aH := v.setWidth 16 }
  | .bW => { s with bW := v.setWidth 16 }
  | .bH => { s with bH := v.setWidth 16 }
  | .iter => { s with iter := v }
  | .ksLen => { s with ksLen := v }
  | .origLen => { s with origLen := v }
  | .key0 => { s with key := { s.key with w0 := v } }
  | .key1 => { s with key := { s.key with w1 := v } }
  | .key2 => { s with key := { s.key with w2 := v } }
  | .key3 => { s with key := { s.key with w3 := v } }
  | .key4 => { s with key := { s.key with w4 := v } }
  | .key5 => { s with key := { s.key with w5 := v } }
  | .key6 => { s with key := { s.key with w6 := v } }
  | .key7 => { s with key := { s.key with w7 := v } }
  | .iv0 => { s with iv := { s.iv with w0 := v } }
  | .iv1 => { s with iv := { s.iv with w1 := v } }
  | .iv2 => { s with iv := { s.iv with w2 := v } }
  | .iv3 => { s with iv := { s.iv with w3 := v } }
  | .iv4 => { s with iv := { s.iv with w4 := v } }
  | .iv5 => { s with iv := { s.iv with w5 := v } }
  | .iv6 => { s with iv := { s.iv with w6 := v } }
  | .iv7 => { s with iv := { s.iv with w7 := v } }
  | .xs0 => { s with xs := { s.xs with x0 := v } }
  | .xs1 => { s with xs := { s.xs with x1 := v } }
  | .xs2 => { s with xs := { s.xs with x2 := v } }
  | .xs3 => { s with xs := { s.xs with x3 := v } }
  | .ksWord => s
  | .lcgSeed => { s with lcgSeed := v }
  | .nBlocks => s
  | .entQ => s
  | .entT => s
  | .corrHAcc => s
  | .corrHCnt => s
  | .corrHQ => s
  | .corrVAcc => s
  | .corrVCnt => s
  | .corrVQ => s
  | .corrDAcc => s
  | .corrDCnt => s
  | .corrDQ => s
  | .npcrDiff => s
  | .npcrN => s
  | .npcrQ => s
  | .uaciSad => s
  | .uaciQ => s

/-! ## The address map (R73) -/

/-- What a word-aligned offset names (R73). -/
def locate (a : Nat) : Location :=
  if a < 0x1000 then
    match regAt a with
    | some r => .register r
    | none => .reserved
  else if a < 0x1C00 then .table
  else if a < 0x2000 then .reserved
  else if 0x40000 ≤ a && a < 0x40000 + 4 * Config.maxBlocks then .table
  else if 0x80000 ≤ a && a < 0x80000 + 4 * Config.maxBlocks then .table
  else if 0x1000000 ≤ a && a < 0x1000000 + Config.bufBytes then .buffer
  else if 0x2000000 ≤ a && a < 0x2000000 + Config.bufBytes then .buffer
  else .unmapped

/-- A transaction the bus does not serve (R72): a width other than 32 bits, or an address that is no multiple of 4. -/
def badAccess (a : BusAddr) (width : AccessWidth) : Bool := width != .w32 || a.toNat % 4 != 0

/-- The answer to `RD(a)` (R71 to R74). A read has no side effect (R77). -/
def State.busRead (s : State) (a : BusAddr) (width : AccessWidth) : Answer :=
  if badAccess a width then .busError
  else match locate a.toNat with
    | .register r => .value (s.readReg r)
    | .reserved => .value 0
    | .table => .value (s.wordAt a.toNat)
    | .buffer => .value (s.wordAt a.toNat)
    | .unmapped => .busError

/-- The state after `WR(a, v)` at a location other than `CMD`, and the answer (R71 to R74). -/
def State.busWrite (s : State) (a : BusAddr) (width : AccessWidth) (v : Word) : State × Answer :=
  if badAccess a width then (s, .busError)
  else match locate a.toNat with
    | .register r => (s.writeReg v r, .written)
    | .reserved => (s, .written)
    | .table => (s, .written)
    | .buffer => (s.store a.toNat (laneBytes v), .written)
    | .unmapped => (s, .busError)

/-- Record the answer to a transaction (R70). -/
def State.answered (s : State) (ans : Answer) : State := { s with answers := ans :: s.answers }

/-- A `WR` that starts a command (R25): 32 bits at the offset of `CMD`. -/
def startsCommand (a : BusAddr) (width : AccessWidth) : Bool := width == .w32 && a.toNat == Reg.offset .cmd

/-- What a host event does before any command runs, and the command word if it starts one. A `CMD` write stores the
word first (R101). Its answer is recorded here, since no event can come between (R76). -/
def deliver (e : HostEvent) (s : State) : State × Option Word :=
  match e with
  | .rd a width => (s.answered (s.busRead a width), none)
  | .wr a width v =>
    if startsCommand a width then ((s.writeReg v .cmd).answered .written, some v)
    else ((s.busWrite a width v).1.answered (s.busWrite a width v).2, none)
  | .reset => (s.resetEvent, none)

end Sys2Proof.Machine
end

