-- ==== Sys2Proof/Machine/Correlation.lean ====
section
/-! DEFINITION. The pixel-correlation command (R190 to R194). -/

namespace Sys2Proof.Machine

/-- `|a - b|` of two exact integers. -/
def absDiff (a b : Nat) : Nat := ((a : Int) - (b : Int)).natAbs

/-- The sum over `y` in 0 to `h - 1` and `x` in 0 to `w - 1`; 0 when empty (R191). -/
def gridSum (w h : Nat) (f : Nat → Nat → Nat) : Nat :=
  ((List.range h).map fun y => ((List.range w).map fun x => f x y).sum).sum

/-- `S(x, y)` of an image of width `w` (R191). -/
def channelSum (img : List Pixel) (w x y : Nat) : Nat := (img.getD (y * w + x) ⟨0, 0, 0, 0⟩).sum

/-- The mean in UQ8.24 (R192): 0 for no pairs, else the exact quotient rounded down. -/
def meanQ (acc cnt : Nat) : Nat := if cnt = 0 then 0 else acc * 2 ^ Config.frac / (765 * cnt)

/-- The three registers of a direction (R191, R192). -/
def corrRegs (acc cnt : Nat) : CorrRegs := { acc := word acc, cnt := word cnt, q := word (meanQ acc cnt) }

/-- `CORR_H_ACC` (R191). -/
def corrHAcc (img : List Pixel) (w h : Nat) : Nat :=
  gridSum (w - 1) h fun x y => absDiff (channelSum img w x y) (channelSum img w (x + 1) y)

/-- `CORR_V_ACC` (R191). -/
def corrVAcc (img : List Pixel) (w h : Nat) : Nat :=
  gridSum w (h - 1) fun x y => absDiff (channelSum img w x y) (channelSum img w x (y + 1))

/-- `CORR_D_ACC` (R191). -/
def corrDAcc (img : List Pixel) (w h : Nat) : Nat :=
  gridSum (w - 1) (h - 1) fun x y => absDiff (channelSum img w x y) (channelSum img w (x + 1) (y + 1))

/-- `STATUS.EMPTY` (R193): some direction has no pair. -/
def someDirectionEmpty (w h : Nat) : Bool :=
  (w - 1) * h == 0 || w * (h - 1) == 0 || (w - 1) * (h - 1) == 0

/-- What `CORR` writes for an image of width `w` and height `h` (R191 to R193). -/
def State.correlate (s : State) (img : List Pixel) (w h : Nat) : State :=
  { s with
    corrH := corrRegs (corrHAcc img w h) ((w - 1) * h)
    corrV := corrRegs (corrVAcc img w h) (w * (h - 1))
    corrD := corrRegs (corrDAcc img w h) ((w - 1) * (h - 1))
    status := s.status.withEmpty (someDirectionEmpty w h) }

/-- `CORR` (R190). -/
def execCorr (p : Buffer) (s : State) : Host.Outcome State Fault Refusal :=
  runChecked [(s.badDims p, .badParameter)] (fun s => s.correlate (s.image p) (s.width p) (s.height p)) s

end Sys2Proof.Machine
end

