-- ==== Sys2Proof/Machine/Differential.lean ====
section
/-! DEFINITION. The NPCR/UACI differential-metric command (R200 to R204). -/

namespace Sys2Proof.Machine

/-- Two pixels differ in R, G or B; alpha is not compared (R201). -/
def rgbDiffers (p q : Pixel) : Bool := p.r != q.r || p.g != q.g || p.b != q.b

/-- The sum of the absolute differences of R, G and B (R201). -/
def rgbDistance (p q : Pixel) : Nat :=
  absDiff p.r.toNat q.r.toNat + absDiff p.g.toNat q.g.toNat + absDiff p.b.toNat q.b.toNat

/-- `NPCR_DIFF` (R201): pixels are compared index by index. -/
def diffCount (a b : List Pixel) : Nat := (List.zip a b).countP fun pq => rgbDiffers pq.1 pq.2

/-- `UACI_SAD` (R201). -/
def sumAbsDiff (a b : List Pixel) : Nat := ((List.zip a b).map fun pq => rgbDistance pq.1 pq.2).sum

/-- A percentage in UQ8.24, rounded down (R202). -/
def percentQ (part whole : Nat) : Nat := 100 * part * 2 ^ Config.frac / whole

/-- What `NPCR_UACI` writes for two images of `n` pixels (R201, R202). -/
def State.compareImages (s : State) (a b : List Pixel) (n : Nat) : State :=
  { s with
    diff :=
      { npcrDiff := word (diffCount a b)
        npcrN := word n
        npcrQ := word (percentQ (diffCount a b) n)
        uaciSad := word (sumAbsDiff a b)
        uaciQ := word (percentQ (sumAbsDiff a b) (765 * n)) } }

/-- `NPCR_UACI` (R200). -/
def execNpcrUaci (s : State) : Host.Outcome State Fault Refusal :=
  runChecked
    [(s.badDims .bufA || s.badDims .bufB, .badParameter),
      (s.pixelCount .bufA != s.pixelCount .bufB, .dimensionMismatch)]
    (fun s => s.compareImages (s.image .bufA) (s.image .bufB) (s.pixelCount .bufA)) s

end Sys2Proof.Machine
end

