-- ==== Sys2Proof/Machine/Histogram.lean ====
section
/-! DEFINITION. The histogram and entropy commands (R175 to R179). -/

namespace Sys2Proof.Machine

/-! ## Counting (R175, R176) -/

/-- The 256 counts of a list of channel bytes: entry `v` is how many are equal to `v`. -/
def histBins (channel : List Byte) : List Nat :=
  (List.range 256).map fun v => channel.countP fun b => b.toNat == v

/-- The offset of `HIST_R[0]` (R43). -/
abbrev histRBase : Nat := 0x1000
/-- The offset of `HIST_G[0]` (R43). -/
abbrev histGBase : Nat := 0x1400
/-- The offset of `HIST_B[0]` (R43). -/
abbrev histBBase : Nat := 0x1800

/-- `COUNT` on an image: all 768 entries of the three tables; alpha is not read (R175). -/
def State.countImage (s : State) (img : List Pixel) : State :=
  ((s.storeEntries histRBase (histBins (img.map Pixel.r))).storeEntries histGBase
    (histBins (img.map Pixel.g))).storeEntries histBBase (histBins (img.map Pixel.b))

/-- The combined counts `c[0 .. 255]` of an image (R176). -/
def combinedCounts (img : List Pixel) : List Nat :=
  List.zipWith (fun rg b => rg + b)
    (List.zipWith (fun r g => r + g) (histBins (img.map Pixel.r)) (histBins (img.map Pixel.g)))
    (histBins (img.map Pixel.b))

/-! ## Enclosing the entropy

R178 keeps `entQ` within `ENT_TOL` of the real number `E * 2^24`, so the model needs that number rounded down and rounded
up, exactly. The logarithms of `E` are first enclosed between two natural numbers: squaring `x` forty-eight times gives
`x^(2^48)`, whose bit length is `2^48 * log2 x` to within one, and only the top 96 bits are kept at each squaring, rounded
down for the lower bound and up for the upper one. Where the two bounds round to the same unit that unit is the answer;
elsewhere it is computed from `2^(T * E) = T^T / Π c[v]^c[v]` in full (log 5). -/

/-- Square `m * 2^e`, keeping about 96 bits of the mantissa, rounded up or down. -/
def squareRounded (up : Bool) (p : Nat × Nat) : Nat × Nat :=
  let drop := Nat.log2 (p.1 * p.1) - 95
  (if up then (p.1 * p.1 + (2 ^ drop - 1)) / 2 ^ drop else p.1 * p.1 / 2 ^ drop, 2 * p.2 + drop)

/-- A bound of `x^(2^k)` as a mantissa and an exponent of 2. -/
def powerBound (up : Bool) (x : Nat) : Nat → Nat × Nat
  | 0 => (x, 0)
  | k + 1 => squareRounded up (powerBound up x k)

/-- Fraction bits of the logarithm bounds. -/
abbrev logFrac : Nat := 48

/-- At most `2^48 * log2 x`, for `x` at least 1. -/
def log2Lower (x : Nat) : Nat :=
  Nat.log2 (powerBound false x logFrac).1 + (powerBound false x logFrac).2

/-- At least `2^48 * log2 x`, for `x` at least 1. -/
def log2Upper (x : Nat) : Nat :=
  Nat.clog 2 (powerBound true x logFrac).1 + (powerBound true x logFrac).2

/-- At most `2^48 * T * E`, where `T * E = T * log2 T - Σ c[v] * log2 c[v]` (R177). -/
def entropyLower (c : List Nat) (t : Nat) : Nat :=
  t * log2Lower t - (c.map fun v => v * log2Upper v).sum

/-- At least `2^48 * T * E`. -/
def entropyUpper (c : List Nat) (t : Nat) : Nat :=
  t * log2Upper t - (c.map fun v => v * log2Lower v).sum

/-! ## The entropy result (R178) -/

/-- Property (iii): if the nonzero counts are all equal and their number is a power of two `2^k`, this is `k`. -/
def exactEntropy (c : List Nat) : Option Nat :=
  match c.filter (fun v => v != 0) with
  | [] => none
  | v :: rest =>
    if rest.all (fun u => u == v) && 2 ^ Nat.log2 (rest.length + 1) == rest.length + 1 then
      some (Nat.log2 (rest.length + 1))
    else none

/-- Division rounded up. -/
def ceilDiv (a b : Nat) : Nat := (a + (b - 1)) / b

/-- `Π c[v]^c[v]`. -/
def selfPowers (c : List Nat) : Nat := (c.map fun v => v ^ v).prod

/-- `T * E` where it is an integer `m`, that is where `T^T = 2^m * Π c[v]^c[v]`. -/
def wholeEntropy (c : List Nat) (t : Nat) : Option Nat :=
  if t ^ t = 2 ^ Nat.log2 (t ^ t / selfPowers c) * selfPowers c then some (Nat.log2 (t ^ t / selfPowers c)) else none

/-- `E * 2^24` rounded down, without approximation. -/
def entropyFloorExact (c : List Nat) (t : Nat) : Nat :=
  match wholeEntropy c t with
  | some m => m * 2 ^ Config.frac / t
  | none => Nat.log2 ((t ^ t) ^ 2 ^ Config.frac / selfPowers c ^ 2 ^ Config.frac) / t

/-- `E * 2^24` rounded up, without approximation. -/
def entropyCeilExact (c : List Nat) (t : Nat) : Nat :=
  match wholeEntropy c t with
  | some m => ceilDiv (m * 2 ^ Config.frac) t
  | none => ceilDiv (Nat.clog 2 (ceilDiv ((t ^ t) ^ 2 ^ Config.frac) (selfPowers c ^ 2 ^ Config.frac))) t

/-- `E * 2^24` rounded down. -/
def entropyFloor (c : List Nat) (t : Nat) : Nat :=
  let unit := t * 2 ^ (logFrac - Config.frac)
  let lo := entropyLower c t / unit
  if lo = entropyUpper c t / unit then lo else entropyFloorExact c t

/-- `E * 2^24` rounded up. -/
def entropyCeil (c : List Nat) (t : Nat) : Nat :=
  let unit := t * 2 ^ (logFrac - Config.frac)
  let hi := ceilDiv (entropyUpper c t) unit
  if hi = ceilDiv (entropyLower c t) unit then hi else entropyCeilExact c t

/-- The least value properties (i) and (ii) of R178 allow. -/
def entMin (c : List Nat) (t : Nat) : Nat := entropyCeil c t - Config.entTol

/-- The greatest value properties (i) and (ii) of R178 allow. -/
def entMax (c : List Nat) (t : Nat) : Nat := min (entropyFloor c t + Config.entTol) (8 * 2 ^ Config.frac)

/-- `entQ(c, T)` (R178): exact where property (iii) says so; otherwise the implementation's free value, kept to
the values properties (i) and (ii) allow. A function of the counts and `T` alone (iv). -/
def entQ (c : List Nat) (t : Nat) : Nat :=
  match exactEntropy c with
  | some k => k * 2 ^ Config.frac
  | none => min (max (Config.entFree c t) (entMin c t)) (entMax c t)

/-- What `ENTROPY` writes (R177): the tables as `HIST` does, `ENT_T` and `ENT_Q`. -/
def State.measureEntropy (s : State) (img : List Pixel) : State :=
  { s.countImage img with
    ent := { q := word (entQ (combinedCounts img) (3 * img.length)), t := word (3 * img.length) } }

/-! ## The commands -/

/-- `HIST` (R175). -/
def execHist (p : Buffer) (s : State) : Host.Outcome State Fault Refusal :=
  runChecked [(s.badDims p, .badParameter)] (fun s => s.countImage (s.image p)) s

/-- `ENTROPY` (R177). -/
def execEntropy (p : Buffer) (s : State) : Host.Outcome State Fault Refusal :=
  runChecked [(s.badDims p, .badParameter)] (fun s => s.measureEntropy (s.image p)) s

end Sys2Proof.Machine
end

