-- ==== Sys2Proof/Machine/Keystream.lean ====
section
/-! DEFINITION. The keystream generator and the stream cipher commands (R130 to R138). -/

namespace Sys2Proof.Machine

/-! ## Seeding (R131) -/

/-- XOR byte number `i` of a key or an IV into its pair of state words: word `i div 4`, bit offset `8 * (i mod 2)`. -/
def xorIntoPair (pair : Word × Word) (i : Nat) (b : Byte) : Word × Word :=
  let v : Word := b.setWidth 32 <<< (8 * (i % 2))
  if i / 4 = 0 then (pair.1 ^^^ v, pair.2) else (pair.1, pair.2 ^^^ v)

/-- Fold the first 8 bytes, or all if fewer, into a pair of words that starts at 0. -/
def foldPair (bytes : List Byte) : Word × Word :=
  (bytes.take 8).zipIdx.foldl (fun pair bi => xorIntoPair pair bi.2 bi.1) (0, 0)

/-- The seeded state words (R131). -/
def seedState (key iv : List Byte) : XsState :=
  { x0 := (foldPair key).1, x1 := (foldPair key).2, x2 := (foldPair iv).1, x3 := (foldPair iv).2 }

/-! ## The transform (R132) and the keystream (R133) -/

/-- One xorshift step (R132). The output word is the new `x0`. -/
def xsStep (st : XsState) : XsState :=
  let x := st.x0
  let y := st.x1
  let t1 := x ^^^ (x <<< Config.xsA)
  let t2 := t1 ^^^ (t1 >>> Config.xsB)
  let t3 := t2 ^^^ y ^^^ (y >>> Config.xsC)
  { st with x0 := t3 + t3, x1 := t3 }

/-- The state after a number of steps. -/
def xsSteps : Nat → XsState → XsState
  | 0, st => st
  | k + 1, st => xsSteps k (xsStep st)

/-- The output words of a number of steps. -/
def xsWords : Nat → XsState → List Word
  | 0, _ => []
  | k + 1, st => (xsStep st).x0 :: xsWords k (xsStep st)

/-- How many steps `n` keystream bytes take: the last word may be used in part (R133). -/
def keystreamSteps (n : Nat) : Nat := (n + 3) / 4

/-- The keystream bytes `ks[0 .. n - 1]` (R133). -/
def keystream (key iv : List Byte) (n : Nat) : List Byte :=
  ((xsWords (keystreamSteps n) (seedState key iv)).flatMap keystreamBytes).take n

/-- What `KS(n)` leaves in `XS0` to `XS3` and `KS_WORD` (R133): for `n = 0` the seed, and `KS_WORD` unchanged. -/
def State.runKeystream (s : State) (n : Nat) : State :=
  let final := xsSteps (keystreamSteps n) (seedState s.keyBytes s.ivBytes)
  { s with xs := final, ksWord := if n = 0 then s.ksWord else final.x0 }

/-! ## The commands -/

/-- `XS_SEED` (R131). -/
def execXsSeed (s : State) : Host.Outcome State Fault Refusal :=
  runChecked [(s.keyTooLong || s.ivTooLong, .badParameter), (s.keyMissing, .invalidKey)]
    (fun s => { s with xs := seedState s.keyBytes s.ivBytes }) s

/-- `XS_STEP` (R132): `KS_WORD` takes the output word. -/
def execXsStep (s : State) : Host.Outcome State Fault Refusal :=
  runChecked [] (fun s => { s with xs := xsStep s.xs, ksWord := (xsStep s.xs).x0 }) s

/-- `KS_GEN` (R134): the keystream into the first `KS_LEN` bytes of the primary buffer. -/
def execKsGen (p : Buffer) (s : State) : Host.Outcome State Fault Refusal :=
  runChecked
    [(s.keyTooLong || s.ivTooLong || Config.bufBytes < s.ksLen.toNat, .badParameter), (s.keyMissing, .invalidKey)]
    (fun s => (s.runKeystream s.ksLen.toNat).store p.base (keystream s.keyBytes s.ivBytes s.ksLen.toNat)) s

/-- The stream cipher on the primary image in place: every byte XOR its keystream byte, alpha too (R135). -/
def State.streamCipher (s : State) (p : Buffer) : State :=
  (s.runKeystream (s.imageLen p)).store p.base
    (List.zipWith (fun d k => d ^^^ k) (s.bytesAt p.base (s.imageLen p))
      (keystream s.keyBytes s.ivBytes (s.imageLen p)))

/-- `STREAM_ENC` (R135). -/
def execStreamEnc (p : Buffer) (s : State) : Host.Outcome State Fault Refusal :=
  runChecked [(s.keyTooLong || s.ivTooLong || s.badDims p, .badParameter), (s.keyMissing, .invalidKey)]
    (fun s => s.streamCipher p) s

/-- `STREAM_DEC` (R136): the identical operation, with the optional length check last. -/
def execStreamDec (p : Buffer) (s : State) : Host.Outcome State Fault Refusal :=
  runChecked
    [(s.keyTooLong || s.ivTooLong || s.badDims p, .badParameter), (s.keyMissing, .invalidKey),
      (s.lengthDiffers p, .bufferLengthMismatch)]
    (fun s => s.streamCipher p) s

end Sys2Proof.Machine
end

