-- ==== Sys2Proof/Machine/Permutation.lean ====
section
/-! DEFINITION. The LCG and the block-permutation commands (R150 to R159). -/

namespace Sys2Proof.Machine

/-! ## The LCG (R151 to R153) -/

/-- `next` (R152): the wrapped value read as signed, its absolute value kept as an unsigned pattern. -/
def lcgNext (seed : Word) : Word :=
  let t := seed * Config.lcgMul + Config.lcgInc
  if 2 ^ 31 ≤ t.toNat then word (2 ^ 32 - t.toNat) else t

/-- One fold of the seed derivation: `seed <- seed * mul + byte` modulo 2^32 (R151). -/
def foldBytes (mul seed : Word) (bytes : List Byte) : Word :=
  bytes.foldl (fun acc b => acc * mul + b.setWidth 32) seed

/-- `derive(key, iv)` (R151): the seed starts at 0. -/
def deriveSeed (key iv : List Byte) : Word :=
  foldBytes Config.foldIvMul (foldBytes Config.foldKeyMul 0 key) iv

/-! ## The shuffle and the table build (R154, R155) -/

/-- Swap two entries. -/
def swapEntries (t : List Nat) (i j : Nat) : List Nat :=
  (t.set i (t.getD j 0)).set j (t.getD i 0)

/-- `SHUFFLE` from index `i` down to 1 (R154): one draw a step, which selects `j` and becomes the seed. -/
def shuffleFrom : Nat → Word → List Nat → List Nat × Word
  | 0, seed, t => (t, seed)
  | i + 1, seed, t =>
    let r := lcgNext seed
    shuffleFrom i r (swapEntries t (i + 1) (r.toNat % (i + 2)))

/-- `SHUFFLE(n, seed)` (R154). -/
def shuffle (n : Nat) (seed : Word) (t : List Nat) : List Nat × Word := shuffleFrom (n - 1) seed t

/-- The first `r` rounds of `BUILD` (R155): round `r` re-seeds from the key and the one-byte IV `r mod 256` and shuffles
what round `r - 1` left. The seed before the first round is never used, since `ITER` is at least 1. -/
def buildRounds (key : List Byte) (n : Nat) : Nat → List Nat × Word → List Nat × Word
  | 0, acc => acc
  | r + 1, acc => shuffle n (deriveSeed key [BitVec.ofNat 8 r]) (buildRounds key n r acc).1

/-- The forward table and the last seed `BUILD` makes for `n` blocks and `iter` rounds (R155). -/
def buildTable (key : List Byte) (n iter : Nat) : List Nat × Word :=
  buildRounds key n iter (List.range n, 0)

/-- The inverse table: `INVTAB[PERMTAB[i]] <- i` for `i` upward (R155). -/
def inverseTable (t : List Nat) : List Nat :=
  (List.range t.length).foldl (fun inv i => inv.set (t.getD i 0) i) (List.replicate t.length 0)

/-- `bx`: the blocks in a row of the image in a buffer (R155). -/
def State.blocksX (s : State) (p : Buffer) : Nat := s.width p / Config.block

/-- `n`: the number of full blocks of the image in a buffer (R155). -/
def State.blockCount (s : State) (p : Buffer) : Nat := s.blocksX p * (s.height p / Config.block)

/-- The offset of `PERMTAB[0]` (R44). -/
abbrev permTabBase : Nat := 0x40000

/-- The offset of `INVTAB[0]` (R44). -/
abbrev invTabBase : Nat := 0x80000

/-- The table and last seed `BUILD` makes from the state at entry (R155). -/
def State.builtTable (s : State) (p : Buffer) : List Nat × Word :=
  buildTable s.keyBytes (s.blockCount p) s.iter.toNat

/-- `BUILD` (R155): writes `PERMTAB[0 .. n - 1]`, `INVTAB[0 .. n - 1]`, `NBLOCKS`, `LCG_SEED`. -/
def State.build (s : State) (p : Buffer) : State :=
  { (s.storeEntries permTabBase (s.builtTable p).1).storeEntries invTabBase (inverseTable (s.builtTable p).1) with
    nBlocks := word (s.blockCount p), lcgSeed := (s.builtTable p).2 }

/-! ## Moving and substituting blocks (R156) -/

/-- The pixel index of the pixel at `(px, py)` inside block `b`, blocks numbered row-major (R156). -/
def blockPixel (w bx b px py : Nat) : Nat := (8 * (b / bx) + py) * w + 8 * (b % bx) + px

/-- The moves of `MOVE(tab)`, in the order of its loops: source pixel index, destination pixel index (R156). -/
def blockMoves (tab : List Nat) (w bx : Nat) : List (Nat × Nat) :=
  (List.range tab.length).flatMap fun b =>
    (List.range Config.block).flatMap fun py =>
      (List.range Config.block).map fun px =>
        (blockPixel w bx b px py, blockPixel w bx (tab.getD b 0) px py)

/-- The substitution of the pixel at pixel index `k` of the source: R, G, B XOR the key byte that the source byte
offset indexes cyclically; alpha untouched (R156). -/
def substPixel (key : List Byte) (k : Nat) (x : Pixel) : Pixel :=
  { r := x.r ^^^ key.getD ((4 * k) % key.length) 0
    g := x.g ^^^ key.getD ((4 * k + 1) % key.length) 0
    b := x.b ^^^ key.getD ((4 * k + 2) % key.length) 0
    a := x.a }

/-- The image `MOVE(tab)` makes: a copy of the whole image, border included, then every block moved (R156). -/
def moveImage (key : List Byte) (tab : List Nat) (w bx : Nat) (img : List Pixel) : List Pixel :=
  (blockMoves tab w bx).foldl
    (fun out m => out.set m.2 (substPixel key m.1 (img.getD m.1 ⟨0, 0, 0, 0⟩))) img

/-- `MOVE(tab)` from the primary to the secondary buffer, with the secondary dimensions set (R156). -/
def State.move (s : State) (p : Buffer) (tab : List Nat) : State :=
  (s.store (otherBuffer p).base
    ((moveImage s.keyBytes tab (s.width p) (s.blocksX p) (s.image p)).flatMap Pixel.bytes)).setDims
      (otherBuffer p) (s.width p) (s.height p)

/-! ## The commands -/

/-- The checks of the permutation commands, in order (R155). -/
def State.permChecks (s : State) (p : Buffer) : List (Bool × CommandError) :=
  [(s.keyTooLong || s.badDims p, .badParameter), (s.keyMissing, .invalidKey), (s.tooSmall p, .imageTooSmall),
    (s.iter.toNat == 0, .invalidIterationCount)]

/-- `LCG_DERIVE` (R151). -/
def execLcgDerive (s : State) : Host.Outcome State Fault Refusal :=
  runChecked [(s.keyTooLong || s.ivTooLong, .badParameter), (s.keyMissing, .invalidKey)]
    (fun s => { s with lcgSeed := deriveSeed s.keyBytes s.ivBytes }) s

/-- `LCG_NEXT` (R152). -/
def execLcgNext (s : State) : Host.Outcome State Fault Refusal :=
  runChecked [] (fun s => { s with lcgSeed := lcgNext s.lcgSeed }) s

/-- `PERM_BUILD` (R155). -/
def execPermBuild (p : Buffer) (s : State) : Host.Outcome State Fault Refusal :=
  runChecked (s.permChecks p) (fun s => s.build p) s

/-- `PERM_ENC` (R157): `BUILD`, then `MOVE(PERMTAB)`. -/
def execPermEnc (p : Buffer) (s : State) : Host.Outcome State Fault Refusal :=
  runChecked (s.permChecks p) (fun s => (s.build p).move p (s.builtTable p).1) s

/-- `PERM_DEC` (R158): `BUILD`, then `MOVE(INVTAB)`. -/
def execPermDec (p : Buffer) (s : State) : Host.Outcome State Fault Refusal :=
  runChecked (s.permChecks p) (fun s => (s.build p).move p (inverseTable (s.builtTable p).1)) s

end Sys2Proof.Machine
end

