-- ==== Sys2Proof/Machine/System.lean ====
section
/-! DEFINITION. The system command `NOP` (R210) and the report of an illegal command word (R229). -/

namespace Sys2Proof.Machine

/-- `NOP` (R210): completes, touching no data. -/
def execNop (s : State) : Host.Outcome State Fault Refusal := runChecked [] id s

/-- A command word the decoder rejects (R105, R229): `IllegalCommandError`, nothing else changes. -/
def illegalCommand (s : State) : Host.Outcome State Fault Refusal :=
  runChecked [(true, .illegalCommand)] id s

end Sys2Proof.Machine
end

