-- ==== Sys2Proof/Machine/Dispatch.lean ====
section
/-! DEFINITION. The meaning of each command, one arm per constructor of `Instr` (R102). -/

namespace Sys2Proof.Machine

def exec (i : Instr) (s : State) : Host.Outcome State Fault Refusal :=
  match i with
  | .nop => Sys2Proof.Machine.execNop s
  | .xsSeed => Sys2Proof.Machine.execXsSeed s
  | .xsStep => Sys2Proof.Machine.execXsStep s
  | .ksGen p => Sys2Proof.Machine.execKsGen p s
  | .streamEnc p => Sys2Proof.Machine.execStreamEnc p s
  | .streamDec p => Sys2Proof.Machine.execStreamDec p s
  | .lcgDerive => Sys2Proof.Machine.execLcgDerive s
  | .lcgNext => Sys2Proof.Machine.execLcgNext s
  | .permBuild p => Sys2Proof.Machine.execPermBuild p s
  | .permEnc p => Sys2Proof.Machine.execPermEnc p s
  | .permDec p => Sys2Proof.Machine.execPermDec p s
  | .hist p => Sys2Proof.Machine.execHist p s
  | .entropy p => Sys2Proof.Machine.execEntropy p s
  | .corr p => Sys2Proof.Machine.execCorr p s
  | .npcrUaci => Sys2Proof.Machine.execNpcrUaci s

end Sys2Proof.Machine
end

