-- ==== Sys2Proof/Machine/Step.lean ====
section
/-! DEFINITION. One step of the machine: one host event answered in full, with the command it starts (R20, R76). -/

namespace Sys2Proof.Machine

/-- Run a command word (R101): the decoded command, or the report of an illegal one. -/
def runWord (w : Word) (s : State) : Host.Outcome State Fault Refusal :=
  match decode w with
  | .ok i => exec i s
  | .error _ => illegalCommand s

/-- The end of an event: the state it left, with the command run if it started one. -/
def finish (r : State × Option Word) : Host.Outcome State Fault Refusal :=
  match r.2 with
  | none => .next r.1
  | some w => runWord w r.1

/-- One step. With no event pending the run has ended and the unit is idle, keeping all state (R237, R254). -/
def step (s : State) : Host.Outcome State Fault Refusal :=
  match s.script with
  | [] => .next s
  | e :: rest => finish (deliver e { s with script := rest })

/-- The state whose next step runs the command word `w`: the write of it to `CMD` is the next event of the host's
script (log 13). -/
def State.withFetchWord (s : State) (nbits w : Nat) : State :=
  { s with script := .wr 0x0000004 .w32 (word (w % 2 ^ nbits)) :: s.script }

end Sys2Proof.Machine
end

