-- ==== Sys2Proof/Machine/Script.lean ====
section
/-! DEFINITION. The host-script notation (R106, R107): the transactions each line expands to. -/

namespace Sys2Proof.Machine

/-- A 32-bit `WR` at an offset. -/
def wrAt (a : Nat) (v : Word) : HostEvent := .wr (BitVec.ofNat 28 a) .w32 v

/-- The word number `j` of a list of bytes laid into lanes, 0 where the list has ended (R107). -/
def laneWordOf (bytes : List Byte) (j : Nat) : Word :=
  laneWord (bytes.getD (4 * j) 0) (bytes.getD (4 * j + 1) 0) (bytes.getD (4 * j + 2) 0) (bytes.getD (4 * j + 3) 0)

/-- The length write and the eight file writes of `SETKEY` and `SETIV` (R107). -/
def loadFile (lenReg fileReg : Reg) (bytes : List Byte) : List HostEvent :=
  wrAt lenReg.offset (word bytes.length) ::
    (List.range 8).map fun j => wrAt (fileReg.offset + 4 * j) (laneWordOf bytes j)

/-- The expansion of a script line (R107). -/
def expandLine : ScriptLine → List HostEvent
  | .wr a v => [.wr a .w32 v]
  | .rd a => [.rd a .w32]
  | .command i => [wrAt (Reg.offset .cmd) (encode i)]
  | .setKey bytes => loadFile .keyLen .key0 bytes
  | .setIv bytes => loadFile .ivLen .iv0 bytes
  | .setDim .bufA w h => [wrAt (Reg.offset .aW) w, wrAt (Reg.offset .aH) h]
  | .setDim .bufB w h => [wrAt (Reg.offset .bW) w, wrAt (Reg.offset .bH) h]
  | .clrSticky => [wrAt (Reg.offset .status) 8]
  | .fill b v count => (List.range count).map fun k => wrAt (b.base + 4 * k) v

/-- The transactions of a script, run top to bottom with no branches (R106). -/
def expandScript (lines : List ScriptLine) : List HostEvent := lines.flatMap expandLine

/-- A script loaded into the host, to run from a state (log 13). -/
def State.loadScript (s : State) (lines : List ScriptLine) : State :=
  { s with script := s.script ++ expandScript lines }

end Sys2Proof.Machine
end

