-- ==== Sys2Proof/Machine/HostSoftware.lean ====
section
/-! DEFINITION. The host software the unit depends on (R4, R120 to R126): key derivation, IV generation, the single-bit
flip, the metadata record, and the script that performs each function of D00. None of it is a command of the unit. -/

namespace Sys2Proof.Machine

/-- What the host procedures can fail with (R121, R223). The unit has no code for it. -/
inductive HostError
  /-- The passphrase encodes to zero bytes. -/
  | emptyInput
deriving DecidableEq, Repr

/-- The passphrase as bytes: UTF-8 (R120, D27), the encoding of the Lean library (log 15). -/
def passphraseBytes (passphrase : List Char) : List Byte :=
  (passphrase.flatMap String.utf8EncodeChar).map fun b => b.toBitVec

/-- `deriveKey(passphrase, length)` (R120). -/
def deriveKey (passphrase : List Char) (length : Nat := Config.keyDefault) : Except HostError (List Byte) :=
  let bytes := passphraseBytes passphrase
  if bytes.length = 0 then .error .emptyInput
  else .ok ((List.range length).map fun i =>
    BitVec.ofNat 8 ((bytes.getD (i % bytes.length) 0).toNat ^^^ (i * 7)))

/-- `generateIV(length)`, call number `call` (R122): bytes of the host's random source, a free value (log 14). -/
def generateIV (call : Nat) (length : Nat := Config.ivDefault) : List Byte :=
  (List.range length).map (Config.ivDraw call)

/-- `flipSingleBit(key, bitIndex)` (R123); `none` outside the key, a violated precondition of host software (U15). -/
def flipSingleBit (key : List Byte) (bitIndex : Nat) : Option (List Byte) :=
  if bitIndex < 8 * key.length then
    some (key.modify (bitIndex / 8) fun b => b ^^^ (1#8 <<< (bitIndex % 8)))
  else none

/-! ## The metadata record (R125) -/

/-- `algorithm: "stream"|"permutation"`. -/
inductive CipherAlgorithm
  | stream
  | permutation
deriving DecidableEq, Repr

/-- The persisted metadata: the IV as lowercase hex, the timestamp in ms, the iterations of the permutation cipher. -/
structure Metadata where
  algorithm  : CipherAlgorithm
  iv         : List Char
  timestamp  : Nat
  iterations : Option Nat
deriving DecidableEq, Repr

/-- A hex digit, lowercase. -/
def hexDigit (n : Nat) : Char := "0123456789abcdef".toList.getD n '0'

/-- The value of a lowercase hex digit. -/
def hexValue (c : Char) : Option Nat := "0123456789abcdef".toList.findIdx? fun d => d == c

/-- Bytes as lowercase hex (R125). DESIGN CHOICE (log 16; N43 leaves the format open): two digits a byte, the high digit
first, byte 0 first, no separator. -/
def hexOfBytes (bytes : List Byte) : List Char :=
  bytes.flatMap fun b => [hexDigit (b.toNat / 16), hexDigit (b.toNat % 16)]

/-- The bytes of a hex string in the layout of `hexOfBytes` (log 16); `none` for any other string. -/
def bytesOfHex : List Char → Option (List Byte)
  | [] => some []
  | [_] => none
  | hi :: lo :: rest => do
    let h ← hexValue hi
    let l ← hexValue lo
    let bs ← bytesOfHex rest
    return BitVec.ofNat 8 (16 * h + l) :: bs

/-- The record of one encryption (R125): `iterations` for the permutation cipher only. -/
def metadataOf (algorithm : CipherAlgorithm) (iv : List Byte) (timestamp iterations : Nat) : Metadata :=
  { algorithm := algorithm, iv := hexOfBytes iv, timestamp := timestamp,
    iterations := match algorithm with
      | .stream => none
      | .permutation => some iterations }

/-- The lines that load `IV`, `IVLEN` and `ITER` from a record before a decrypt command (R125). DESIGN CHOICE (log 17; the
spec is silent): an `iterations` value of 2^32 or more, which does not fit `ITER`, is written modulo 2^32. DESIGN CHOICE (log 18; the spec is silent): `algorithm` is not looked at;
`ITER` is written exactly where the record has `iterations`. -/
def loadMetadata (m : Metadata) : Option (List ScriptLine) := do
  let iv ← bytesOfHex m.iv
  return .setIv iv :: match m.iterations with
    | none => []
    | some n => [.wr (BitVec.ofNat 28 (Reg.offset .iter)) (word n)]

/-! ## The function-level API (R126) -/

/-- The functions of D00 that a command performs. -/
inductive ApiCall
  | streamEncrypt
  | streamDecrypt
  | permutationEncrypt
  | permutationDecrypt
  | computeEntropy
  | computeCorrelation
  | computeNPCRUACI
  | computeHistogram
deriving DecidableEq, Repr

/-- Where the result of a function is found. -/
inductive ApiResult
  /-- The pixels of a buffer. -/
  | buffer (b : Buffer)
  /-- Registers in UQ8.24 (`fixedValue`). -/
  | registers (rs : List Reg)
  /-- The three histogram tables. -/
  | histogram
deriving DecidableEq, Repr

/-- The script that performs a function on the primary buffer `p`, after the inputs are loaded (R126). -/
def apiScript (f : ApiCall) (p : Buffer) : List ScriptLine :=
  match f with
  | .streamEncrypt => [.command (.streamEnc p)]
  | .streamDecrypt => [.command (.streamDec p)]
  | .permutationEncrypt => [.command (.permEnc p)]
  | .permutationDecrypt => [.command (.permDec p)]
  | .computeEntropy => [.command (.entropy p)]
  | .computeCorrelation => [.command (.corr p)]
  | .computeNPCRUACI => [.command .npcrUaci]
  | .computeHistogram => [.command (.hist p)]

/-- Where the function leaves its result (R126). -/
def apiResult (f : ApiCall) (p : Buffer) : ApiResult :=
  match f with
  | .streamEncrypt => .buffer p
  | .streamDecrypt => .buffer p
  | .permutationEncrypt => .buffer (otherBuffer p)
  | .permutationDecrypt => .buffer (otherBuffer p)
  | .computeEntropy => .registers [.entQ]
  | .computeCorrelation => .registers [.corrHQ, .corrVQ, .corrDQ]
  | .computeNPCRUACI => .registers [.npcrQ, .uaciQ]
  | .computeHistogram => .histogram

/-- The value of a register in UQ8.24: register / 2^24 (R126, R213). -/
def fixedValue (w : Word) : Rat := w.toNat / 2 ^ Config.frac

/-- The result of a function as its caller receives it (R126). -/
inductive ApiOutput
  /-- An `ImageBuffer`: width, height and the pixels in pixel-index order. -/
  | image (width height : Nat) (pixels : List Pixel)
  /-- The "float" results, in the order of D00's signature. -/
  | values (vs : List Rat)
  /-- `{r[256], g[256], b[256]}` -/
  | histogram (r g b : List Nat)
deriving DecidableEq, Repr

/-- The 256 entries of the histogram table at a bus offset (R43). -/
def State.histTable (s : State) (base : Nat) : List Nat :=
  (List.range 256).map fun v => (s.wordAt (base + 4 * v)).toNat

/-- A result read from where it is found. -/
def State.resultAt (s : State) : ApiResult → ApiOutput
  | .buffer b => .image (s.width b) (s.height b) (s.image b)
  | .registers rs => .values (rs.map fun r => fixedValue (s.readReg r))
  | .histogram => .histogram (s.histTable histRBase) (s.histTable histGBase) (s.histTable histBBase)

/-- What the caller of a function receives, read from the state its script left (R126). A failed operation "produces no
output" (R220) and the host reads `STATUS` before it trusts a result (R253): with `ERR = 1` the caller gets no output.
DEDUCED (log 19): it gets the error code in its place. -/
def apiOutput (f : ApiCall) (p : Buffer) (s : State) : Except Byte ApiOutput :=
  if s.status.err then .error s.status.errCode else .ok (s.resultAt (apiResult f p))

end Sys2Proof.Machine
end

