-- ==== Sys2Proof/Safety.lean ====
section
/-! DEFINITION. What counts as a sound state of the unit, and as a safe run, in the terms the statements use. -/

namespace Sys2Proof.Machine

/-- `STATUS` is coherent (R26, R221): never `DONE` and `ERR` together, `ERRCODE` is nonzero exactly when `ERR` is 1, and
codes 8 to 255 are never produced. -/
def Status.coherent (st : Status) : Prop :=
  ¬(st.done = true ∧ st.err = true) ∧ (st.err = true ↔ st.errCode ≠ 0) ∧ st.errCode.toNat ≤ 7

/-- An offset inside a table or a buffer window (R73). -/
def inTableOrBuffer (a : Nat) : Prop :=
  (0x1000 ≤ a ∧ a < 0x1C00) ∨ (0x40000 ≤ a ∧ a < 0x40000 + 4 * Config.maxBlocks) ∨
    (0x80000 ≤ a ∧ a < 0x80000 + 4 * Config.maxBlocks) ∨ (0x1000000 ≤ a ∧ a < 0x1000000 + Config.bufBytes) ∨
    (0x2000000 ≤ a ∧ a < 0x2000000 + Config.bufBytes)

/-- Every listed byte of memory lies in a table or a buffer (R73, R82). -/
def memoryMapped (s : State) : Prop := ∀ c ∈ s.mem, inTableOrBuffer c.1

/-- Entry `i` of `PERMTAB`. -/
def State.permEntry (s : State) (i : Nat) : Nat := (s.wordAt (permTabBase + 4 * i)).toNat

/-- Entry `i` of `INVTAB`. -/
def State.invEntry (s : State) (i : Nat) : Nat := (s.wordAt (invTabBase + 4 * i)).toNat

/-- The first `NBLOCKS` entries of `PERMTAB` and of `INVTAB` are permutations of the block indices, inverse to each
other (R44, R159 (a), (b)). -/
def tablesInverse (s : State) : Prop :=
  s.nBlocks.toNat ≤ Config.maxBlocks ∧ ∀ i < s.nBlocks.toNat,
    s.permEntry i < s.nBlocks.toNat ∧ s.invEntry i < s.nBlocks.toNat ∧
      s.invEntry (s.permEntry i) = i ∧ s.permEntry (s.invEntry i) = i

/-- The result registers lie in the ranges the rules give them (R178 (ii), R192, R202). -/
def resultsInRange (s : State) : Prop :=
  s.ent.q.toNat ≤ 0x08000000 ∧ s.corrH.q.toNat ≤ 0x01000000 ∧ s.corrV.q.toNat ≤ 0x01000000 ∧
    s.corrD.q.toNat ≤ 0x01000000 ∧ s.diff.npcrQ.toNat ≤ 0x64000000 ∧ s.diff.uaciQ.toNat ≤ 0x64000000 ∧
    s.diff.npcrDiff.toNat ≤ s.diff.npcrN.toNat

/-- No command has ended with an error since `STICKY` was last cleared (R26, R253). -/
def noErrorRecorded (s : State) : Prop := s.status.sticky = false

/-- `k` steps, stopping at the first fault or refusal. -/
def run : Nat → State → Host.Outcome State Fault Refusal
  | 0, s => .next s
  | k + 1, s =>
    match step s with
    | .next t => run k t
    | .fault f => .fault f
    | .refused r => .refused r

/-- A safe run of `k` steps: it answers a next state in which no error is recorded. -/
def safeRun (k : Nat) (s : State) : Prop := ∃ t, run k s = .next t ∧ noErrorRecorded t

/-! ## Premises of the statements, with the limits of the rules written out -/

/-- A key length a command that reads the key accepts (R28). -/
def keyLegal (s : State) : Prop := 1 ≤ s.keyLen.toNat ∧ s.keyLen.toNat ≤ 32

/-- An IV length a command that reads the IV accepts (R29). -/
def ivLegal (s : State) : Prop := s.ivLen.toNat ≤ 32

/-- Dimensions a command that uses the buffer accepts (R30). -/
def dimsLegal (s : State) (b : Buffer) : Prop :=
  1 ≤ s.width b ∧ 1 ≤ s.height b ∧ 4 * (s.width b * s.height b) ≤ 4194304

/-- What the permutation commands accept (R155). -/
def permLegal (s : State) (b : Buffer) : Prop :=
  keyLegal s ∧ dimsLegal s b ∧ 8 ≤ s.width b ∧ 8 ≤ s.height b ∧ 1 ≤ s.iter.toNat

/-- The tracked length is not checked, or it agrees (R136). -/
def lengthAgrees (s : State) (b : Buffer) : Prop :=
  s.chkLen = true → 4 * (s.width b * s.height b) = s.origLen.toNat

end Sys2Proof.Machine
end

