-- ==== Sys2Proof/Certificates/Slice0/Obligations.lean ====
section
/-! DEFINITION. The statements for the provers. The namespace `Sys2Proof.Spec` writes the rules' formulas a second time,
in the rules' own terms and not through the model's procedures; the obligations say that the machine does them. -/

namespace Sys2Proof.Spec

open Sys2Proof.Machine

/-! ## Operands, in the terms of the rules -/

/-- Word number `j` of a file. -/
def fileWord (f : WordFile) : Nat → Word
  | 0 => f.w0
  | 1 => f.w1
  | 2 => f.w2
  | 3 => f.w3
  | 4 => f.w4
  | 5 => f.w5
  | 6 => f.w6
  | 7 => f.w7
  | _ => 0

/-- Byte `i` of a file: bits `8 * (i mod 4) + 7 : 8 * (i mod 4)` of word `i div 4` (R34, R35). -/
def fileByte (f : WordFile) (i : Nat) : Byte := BitVec.ofNat 8 ((fileWord f (i / 4)).toNat / 2 ^ (8 * (i % 4)))

/-- `K(i)`: `KEY[i]` for `i < KEYLEN` and 0 otherwise (R131). -/
def keyOr0 (s : State) (i : Nat) : Byte := if i < s.keyLen.toNat then fileByte s.key i else 0

/-- `V(i)`: the same for the IV (R131). -/
def ivOr0 (s : State) (i : Nat) : Byte := if i < s.ivLen.toNat then fileByte s.iv i else 0

/-- `PLEN` (R103). -/
def plen (s : State) (p : Buffer) : Nat := 4 * (s.width p * s.height p)

/-- `STATUS` after a command that completed (R26). -/
def doneStatus (st : Status) : Status := ⟨true, false, st.empty, st.sticky, 0⟩

/-! ## Keystream (R131 to R133) -/

/-- The closed form of a seeded word (R131): bytes `b` to `b + 3` of a key or an IV. -/
def seedWord (f : Nat → Byte) (b : Nat) : Word :=
  word ((f b ^^^ f (b + 2)).toNat + 256 * (f (b + 1) ^^^ f (b + 3)).toNat)

/-- The seeded state (R131). -/
def seed (s : State) : XsState :=
  ⟨seedWord (keyOr0 s) 0, seedWord (keyOr0 s) 4, seedWord (ivOr0 s) 0, seedWord (ivOr0 s) 4⟩

/-- One step with the shifts as arithmetic (R9, R132). -/
def xorshift (st : XsState) : XsState :=
  let t1 := st.x0 ^^^ word (st.x0.toNat * 2 ^ 23)
  let t2 := t1 ^^^ word (t1.toNat / 2 ^ 17)
  let t3 := t2 ^^^ st.x1 ^^^ word (st.x1.toNat / 2 ^ 26)
  ⟨word (t3.toNat + t3.toNat), t3, st.x2, st.x3⟩

/-- The state after the `ceil(n / 4)` steps of `KS(n)` (R133). -/
def keystreamEnd (s : State) (n : Nat) : XsState := xorshift^[(n + 3) / 4] (seed s)

/-- Keystream byte `i`: `KS_WORD[31 - 8j : 24 - 8j]` of output word `i div 4`, `j = i mod 4` (R133). -/
def keystreamByte (s : State) (i : Nat) : Byte :=
  BitVec.ofNat 8 ((xorshift^[i / 4 + 1] (seed s)).x0.toNat / 2 ^ (24 - 8 * (i % 4)))

/-! ## LCG and permutation (R151 to R156) -/

/-- `for i in 0 .. n - 1: seed <- (seed * mul + f(i)) mod 2^32` (R151). -/
def fold (mul : Nat) (f : Nat → Byte) (seed : Nat) : Nat → Nat
  | 0 => seed
  | n + 1 => (fold mul f seed n * mul + (f n).toNat) % 2 ^ 32

/-- `signed32(v)` (R9). -/
def signed32 (v : Nat) : Int := if v < 2 ^ 31 then (v : Int) else (v : Int) - 2 ^ 32

/-- `next(s)`: the absolute value of the wrapped sum read as signed (R152, R153). -/
def lcg (x : Nat) : Nat := (signed32 ((x * 1664525 + 1013904223) % 2 ^ 32)).natAbs

/-- `SHUFFLE` from index `i` down to 1 on a permutation (R154): swapping entries `i` and `j` of the array. -/
def shuffled : Nat → Nat → Equiv.Perm Nat → Equiv.Perm Nat × Nat
  | 0, seed, σ => (σ, seed)
  | i + 1, seed, σ => shuffled i (lcg seed) (σ * Equiv.swap (i + 1) (lcg seed % (i + 2)))

/-- The seed of round `r` (R155). -/
def roundSeed (s : State) (r : Nat) : Nat := (fold 31 (keyOr0 s) 0 s.keyLen.toNat * 17 + r % 256) % 2 ^ 32

/-- The permutation and the last seed after `r` rounds on `n` blocks (R155). -/
def rounds (s : State) (n : Nat) : Nat → Equiv.Perm Nat × Nat
  | 0 => (1, 0)
  | r + 1 => shuffled (n - 1) (roundSeed s r) (rounds s n r).1

/-- `n = (PW div 8) * (PH div 8)` (R155). -/
def blocks (s : State) (p : Buffer) : Nat := (s.width p / 8) * (s.height p / 8)

/-- What `BUILD` makes: entry `i` of `PERMTAB` is the permutation at `i` (R155). -/
def built (s : State) (p : Buffer) : Equiv.Perm Nat × Nat := rounds s (blocks s p) s.iter.toNat

/-- The tables of `t` hold the permutation and its inverse for `n` blocks. -/
def tablesHold (t : State) (n : Nat) (σ : Equiv.Perm Nat) : Prop :=
  ∀ i < n, t.permEntry i = σ i ∧ t.invEntry i = σ.symm i

/-- The byte offset `a` is in the first `n` entries of `PERMTAB` or of `INVTAB`. -/
def inTables (n a : Nat) : Prop := (0x40000 ≤ a ∧ a < 0x40000 + 4 * n) ∨ (0x80000 ≤ a ∧ a < 0x80000 + 4 * n)

/-- The byte offset `a` is in the first `n` bytes of a buffer. -/
def inBuffer (b : Buffer) (n a : Nat) : Prop := b.base ≤ a ∧ a < b.base + n

/-- The pixel index of pixel `(px, py)` of block `b` in the primary image (R156). -/
def blockPx (s : State) (p : Buffer) (b px py : Nat) : Nat :=
  (8 * (b / (s.width p / 8)) + py) * s.width p + (8 * (b % (s.width p / 8)) + px)

/-- The substitution at source pixel index `k` (R156): `byteOffset` is `4 * k + c`; alpha is untouched. -/
def substituted (s : State) (p : Buffer) (k : Nat) : Pixel :=
  let key := fun c => fileByte s.key ((4 * k + c) % s.keyLen.toNat)
  let x := s.pixelAt p k
  ⟨x.r ^^^ key 0, x.g ^^^ key 1, x.b ^^^ key 2, x.a⟩

/-- `MOVE` along `τ` from the primary buffer of `s` to its secondary buffer in `t` (R156): block `b` lands at block
`τ b`, substituted; the border is copied; everything else but the tables reads as before. -/
def moved (s t : State) (p : Buffer) (τ : Nat → Nat) : Prop :=
  (∀ b < blocks s p, ∀ py < 8, ∀ px < 8,
      t.pixelAt (otherBuffer p) (blockPx s p (τ b) px py) = substituted s p (blockPx s p b px py)) ∧
    (∀ y < s.height p, ∀ x < s.width p, 8 * (s.width p / 8) ≤ x ∨ 8 * (s.height p / 8) ≤ y →
      t.pixelAt (otherBuffer p) (y * s.width p + x) = s.pixelAt p (y * s.width p + x)) ∧
    ∀ a, ¬inTables (blocks s p) a → ¬inBuffer (otherBuffer p) (plen s p) a → t.byteAt a = s.byteAt a

/-- The registers after `PERM_ENC` or `PERM_DEC`: `NBLOCKS`, `LCG_SEED`, the secondary dimensions and `STATUS` are
written, every other register is as in `s` (R155, R156). -/
def permRegisters (s t : State) (p : Buffer) : Prop :=
  t = { s with
    mem := t.mem
    nBlocks := word (blocks s p)
    lcgSeed := word (built s p).2
    aW := if p = .bufB then s.bW else s.aW
    aH := if p = .bufB then s.bH else s.aH
    bW := if p = .bufA then s.aW else s.bW
    bH := if p = .bufA then s.aH else s.bH
    status := doneStatus s.status }

/-! ## Metrics (R175 to R202) -/

/-- The number of pixels of an image whose channel, picked by `f`, equals `v` (R175). -/
def count (s : State) (p : Buffer) (f : Pixel → Byte) (v : Nat) : Nat :=
  ((Finset.range (s.width p * s.height p)).filter fun k => (f (s.pixelAt p k)).toNat = v).card

/-- `c[v]` (R176). -/
def combined (s : State) (p : Buffer) (v : Nat) : Nat :=
  count s p Pixel.r v + count s p Pixel.g v + count s p Pixel.b v

/-- The histogram tables of `t` hold the counts of the primary image of `s`, and every byte outside them reads as
before (R175). -/
def histogramOf (s t : State) (p : Buffer) : Prop :=
  (∀ v < 256, (t.wordAt (0x1000 + 4 * v)).toNat = count s p Pixel.r v ∧
      (t.wordAt (0x1400 + 4 * v)).toNat = count s p Pixel.g v ∧
      (t.wordAt (0x1800 + 4 * v)).toNat = count s p Pixel.b v) ∧
    ∀ a, ¬(0x1000 ≤ a ∧ a < 0x1C00) → t.byteAt a = s.byteAt a

/-- `E * 2^24` for counts `c` with total `T` (R177). -/
noncomputable def entropyUnits (c : Nat → Nat) (total : Nat) : ℝ :=
  (∑ v ∈ Finset.range 256,
    if c v = 0 then (0 : ℝ) else (c v : ℝ) / total * Real.logb 2 ((total : ℝ) / c v)) * 2 ^ 24

/-- `S(x, y)` (R191). -/
def chanSum (s : State) (p : Buffer) (x y : Nat) : Int :=
  let o := p.base + 4 * (y * s.width p + x)
  ((s.byteAt o).toNat + (s.byteAt (o + 1)).toNat + (s.byteAt (o + 2)).toNat : Nat)

/-- The sum of `|S(x, y) - S(x + dx, y + dy)|` over `x` in 0 to `w - 1`, `y` in 0 to `h - 1` (R191). -/
def pairSum (s : State) (p : Buffer) (dx dy w h : Nat) : Nat :=
  ∑ y ∈ Finset.range h, ∑ x ∈ Finset.range w, (chanSum s p x y - chanSum s p (x + dx) (y + dy)).natAbs

/-- A direction's registers hold the sum, the number of pairs and the mean (R191, R192). -/
def directionHolds (r : CorrRegs) (acc cnt : Nat) : Prop :=
  r.acc.toNat = acc ∧ r.cnt.toNat = cnt ∧ r.q.toNat = if cnt = 0 then 0 else acc * 2 ^ 24 / (765 * cnt)

/-- `|A[4p + c] - B[4p + c]|` summed over the three colour channels (R201). -/
def pixelSad (s : State) (k : Nat) : Nat :=
  ∑ c ∈ Finset.range 3,
    (((s.byteAt (0x1000000 + 4 * k + c)).toNat : Int) - ((s.byteAt (0x2000000 + 4 * k + c)).toNat : Int)).natAbs

/-- The number of pixel indices below `n` at which R, G or B differ (R201). -/
def differing (s : State) (n : Nat) : Nat :=
  ((Finset.range n).filter fun k =>
    ∃ c ∈ Finset.range 3, s.byteAt (0x1000000 + 4 * k + c) ≠ s.byteAt (0x2000000 + 4 * k + c)).card

/-- The value `num / den` rounded down to a multiple of 2^-24 (0 where `den` is 0). -/
def roundedDown (q : ℚ) (num den : Nat) : Prop :=
  (∃ m : Nat, q = m / 2 ^ 24) ∧ q ≤ (num : ℚ) / den ∧ (num : ℚ) / den < q + 1 / 2 ^ 24

/-! ## Errors (R221, R230 to R232) -/

/-- Error numbers (R221). -/
def codeNumber : CommandError → Byte
  | .invalidKey => 1
  | .bufferLengthMismatch => 2
  | .imageTooSmall => 3
  | .invalidIterationCount => 4
  | .dimensionMismatch => 5
  | .illegalCommand => 6
  | .badParameter => 7

/-- The place of an error in the order of R231. -/
def priority : CommandError → Nat
  | .illegalCommand => 0
  | .badParameter => 1
  | .invalidKey => 2
  | .imageTooSmall => 3
  | .invalidIterationCount => 4
  | .dimensionMismatch => 5
  | .bufferLengthMismatch => 6

/-- The commands that read the key (R221, code 1). -/
def readsKey : Instr → Prop
  | .xsSeed | .ksGen _ | .streamEnc _ | .streamDec _ | .lcgDerive => True
  | .permBuild _ | .permEnc _ | .permDec _ => True
  | .nop | .xsStep | .lcgNext | .hist _ | .entropy _ | .corr _ | .npcrUaci => False

/-- The commands that read the IV (R230). -/
def readsIv : Instr → Prop
  | .xsSeed | .ksGen _ | .streamEnc _ | .streamDec _ | .lcgDerive => True
  | .permBuild _ | .permEnc _ | .permDec _ => False
  | .nop | .xsStep | .lcgNext | .hist _ | .entropy _ | .corr _ | .npcrUaci => False

/-- The buffers whose dimensions a command checks (R230). -/
def usesDims : Instr → Buffer → Prop
  | .streamEnc p, b | .streamDec p, b | .permBuild p, b | .permEnc p, b | .permDec p, b => p = b
  | .hist p, b | .entropy p, b | .corr p, b => p = b
  | .npcrUaci, _ => True
  | .nop, _ | .xsSeed, _ | .xsStep, _ | .ksGen _, _ | .lcgDerive, _ | .lcgNext, _ => False

/-- The permutation commands and their primary buffer. -/
def permutes (i : Instr) (p : Buffer) : Prop := i = .permBuild p ∨ i = .permEnc p ∨ i = .permDec p

/-- The command that writes `EMPTY` (R26). -/
def writesEmpty : Instr → Bool
  | .corr _ => true
  | .nop | .xsSeed | .xsStep | .ksGen _ | .streamEnc _ | .streamDec _ | .lcgDerive | .lcgNext => false
  | .permBuild _ | .permEnc _ | .permDec _ | .hist _ | .entropy _ | .npcrUaci => false

/-- The cause of each error for each command (R224 to R230, R232). -/
def cause (s : State) (i : Instr) : CommandError → Prop
  | .badParameter =>
    (readsKey i ∧ 32 < s.keyLen.toNat) ∨ (readsIv i ∧ 32 < s.ivLen.toNat) ∨
      (∃ b, usesDims i b ∧ (s.width b = 0 ∨ s.height b = 0 ∨ 4194304 < plen s b)) ∨
      ∃ p, i = .ksGen p ∧ 4194304 < s.ksLen.toNat
  | .invalidKey => readsKey i ∧ s.keyLen.toNat = 0
  | .imageTooSmall => ∃ p, permutes i p ∧ (s.width p < 8 ∨ s.height p < 8)
  | .invalidIterationCount => ∃ p, permutes i p ∧ s.iter.toNat = 0
  | .dimensionMismatch => i = .npcrUaci ∧ s.width .bufA * s.height .bufA ≠ s.width .bufB * s.height .bufB
  | .bufferLengthMismatch => ∃ p, i = .streamDec p ∧ s.chkLen = true ∧ plen s p ≠ s.origLen.toNat
  | .illegalCommand => False

/-- The state before a failed command, but for `STATUS` (R222). -/
def failedState (s : State) (e : CommandError) : State :=
  { s with status := ⟨false, true, s.status.empty, true, codeNumber e⟩ }

/-- A command reports the first error, in the order of R231, whose cause holds at its entry, and changes nothing else
(R222, R231, R232). -/
def errorsReported (i : Instr) : Prop :=
  ∀ s e, cause s i e → (∀ e', priority e' < priority e → ¬cause s i e') → exec i s = .next (failedState s e)

/-- The row of a command that does not allow `SEL` (R102). -/
def row (opc : Word) (i : Instr) : Prop := decode opc = .ok i ∧ decode (opc ||| 0x100) = .error .selNotAllowed

/-- The row of a command that allows `SEL`: 0 picks `BUFA`, 1 picks `BUFB` (R102, R103). -/
def rowWithSel (opc : Word) (f : Buffer → Instr) : Prop :=
  decode opc = .ok (f .bufA) ∧ decode (opc ||| 0x100) = .ok (f .bufB)

/-! ## The host's access -/

/-- The bits of a register a host write stores (R24 to R42). `CMD` and `STATUS` have statements of their own. -/
def writableBits : Reg → Word
  | .ctrl => 0x1
  | .keyLen | .ivLen => 0x3F
  | .aW | .aH | .bW | .bH => 0xFFFF
  | .cmd | .iter | .ksLen | .origLen | .lcgSeed => 0xFFFFFFFF
  | .key0 | .key1 | .key2 | .key3 | .key4 | .key5 | .key6 | .key7 => 0xFFFFFFFF
  | .iv0 | .iv1 | .iv2 | .iv3 | .iv4 | .iv5 | .iv6 | .iv7 => 0xFFFFFFFF
  | .xs0 | .xs1 | .xs2 | .xs3 => 0xFFFFFFFF
  | .id | .status | .ksWord | .nBlocks | .entQ | .entT => 0
  | .corrHAcc | .corrHCnt | .corrHQ | .corrVAcc | .corrVCnt | .corrVQ | .corrDAcc | .corrDCnt | .corrDQ => 0
  | .npcrDiff | .npcrN | .npcrQ | .uaciSad | .uaciQ => 0

/-- The bits of a register that read as 0 (R26 to R30). -/
def reservedBits : Reg → Word
  | .status => 0xFFFF00F0
  | .ctrl => 0xFFFFFFFE
  | .keyLen | .ivLen => 0xFFFFFFC0
  | .aW | .aH | .bW | .bH => 0xFFFF0000
  | .cmd | .iter | .ksLen | .origLen | .lcgSeed => 0
  | .key0 | .key1 | .key2 | .key3 | .key4 | .key5 | .key6 | .key7 => 0
  | .iv0 | .iv1 | .iv2 | .iv3 | .iv4 | .iv5 | .iv6 | .iv7 => 0
  | .xs0 | .xs1 | .xs2 | .xs3 => 0
  | .id | .ksWord | .nBlocks | .entQ | .entT => 0
  | .corrHAcc | .corrHCnt | .corrHQ | .corrVAcc | .corrVCnt | .corrVQ | .corrDAcc | .corrDCnt | .corrDQ => 0
  | .npcrDiff | .npcrN | .npcrQ | .uaciSad | .uaciQ => 0

/-- The registers whose host write is ignored (R47). -/
def readOnly (r : Reg) : Prop := r ≠ .cmd ∧ r ≠ .status ∧ writableBits r = 0

/-- A reserved word of the mapped register range (R47). -/
def reservedWord (a : Nat) : Prop :=
  a % 4 = 0 ∧ ((a < 0x1000 ∧ ∀ r, Reg.offset r ≠ a) ∨ (0x1C00 ≤ a ∧ a < 0x2000))

/-- A table entry (R43, R44). -/
def tableEntry (a : Nat) : Prop :=
  a % 4 = 0 ∧ ((0x1000 ≤ a ∧ a < 0x1C00) ∨ (0x40000 ≤ a ∧ a < 0x50000) ∨ (0x80000 ≤ a ∧ a < 0x90000))

/-- The unmapped byte offsets (R73). -/
def unmapped (a : Nat) : Prop :=
  (0x2000 ≤ a ∧ a < 0x40000) ∨ (0x50000 ≤ a ∧ a < 0x80000) ∨ (0x90000 ≤ a ∧ a < 0x1000000) ∨
    (0x1400000 ≤ a ∧ a < 0x2000000) ∨ 0x2400000 ≤ a

/-- A transaction that gets a bus error (R85). -/
def badTransaction (a : BusAddr) (w : AccessWidth) : Prop := w ≠ .w32 ∨ a.toNat % 4 ≠ 0 ∨ unmapped a.toNat

/-- The opcodes of R102 and whether `SEL` may be 1. -/
def opcodeRow : Nat → Option Bool
  | 0x00 | 0x01 | 0x02 | 0x10 | 0x11 | 0x23 => some false
  | 0x03 | 0x04 | 0x05 | 0x12 | 0x13 | 0x14 | 0x20 | 0x21 | 0x22 => some true
  | _ => none

/-- A legal command word (R101). -/
def legalWord (w : Word) : Prop :=
  w.toNat / 2 ^ 9 = 0 ∧ ∃ sel, opcodeRow (w.toNat % 256) = some sel ∧ (w.getLsbD 8 = true → sel = true)

/-- The state in which a command runs: the word stored in `CMD`, the write answered (R101). -/
def accepted (s : State) (w : Word) (rest : List HostEvent) : State :=
  { s with cmd := w, script := rest, answers := .written :: s.answers }

/-- The host event that writes a word to `CMD`, offset 0x004 (R25). -/
def cmdWrite (w : Word) : HostEvent := .wr 0x0000004 .w32 w

end Sys2Proof.Spec

open Sys2Proof Sys2Proof.Machine Sys2Proof.Spec

/-! ## Reset -/

/-- R48: after reset every register reads 0 but `ID`. The tables and buffers hold unspecified values: here, by the model's
choice (log 2, log 3), the free value of a never-written byte after reset number 0. -/
def Obligations.ResetRegisterValues : Prop :=
  (∀ r, State.reset.readReg r = if r = .id then 0x584B4701 else 0) ∧
    ∀ a, State.reset.byteAt a = Config.unwrittenByte 0 a

/-- R250: a reset event leaves every register at its reset value and every byte of the tables and buffers unspecified
anew, and the unit takes the next event (the model's own fields: log 4). -/
def Obligations.ResetEventRestoresRegisters : Prop :=
  ∀ s rest, s.script = .reset :: rest → ∃ t, step s = .next t ∧
    (∀ r, t.readReg r = if r = .id then 0x584B4701 else 0) ∧
    (∀ a, t.byteAt a = Config.unwrittenByte (s.resets + 1) a) ∧ t.script = rest ∧ t.answers = s.answers

/-- R251: right after reset only `NOP`, `XS_STEP` and `LCG_NEXT` complete, with the values the rule gives; every other
command fails with `BadParameterError` or `InvalidKeyError`; no key survives. -/
def Obligations.ResetStateInert : Prop :=
  exec .nop State.reset = .next { State.reset with status := ⟨true, false, false, false, 0⟩ } ∧
    exec .xsStep State.reset = .next { State.reset with status := ⟨true, false, false, false, 0⟩ } ∧
    exec .lcgNext State.reset =
      .next { State.reset with lcgSeed := 0x3C6EF35F, status := ⟨true, false, false, false, 0⟩ } ∧
    (∀ i, i ≠ .nop → i ≠ .xsStep → i ≠ .lcgNext →
      exec i State.reset = .next (failedState State.reset .badParameter) ∨
        exec i State.reset = .next (failedState State.reset .invalidKey)) ∧
    (∀ j, fileWord State.reset.key j = 0) ∧ ∀ j, fileWord State.reset.iv j = 0

/-! ## Encoding -/

/-- R101, R102: the decoder and the encoder agree in both directions: an instruction's word decodes to it with its buffer
operand, and a word that decodes is its instruction's word. -/
def Obligations.DecodeEncodeAgree : Prop :=
  (∀ i, i.wellFormed = true → decode (encode i) = .ok i) ∧ ∀ w i, decode w = .ok i → encode i = w

/-- R101, R105: the words the decoder takes are exactly the legal ones: bits 31:9 zero, a listed opcode, `SEL = 1` only
where allowed. -/
def Obligations.LegalWordsExactly : Prop :=
  ∀ w, (∃ i, decode w = .ok i) ↔ legalWord w

/-- A few words written out from R100 and R102 decode to the commands they stand for, and three illegal ones to the
reason. -/
def Obligations.DecodedSampleWords : Prop :=
  decode 0x00000000 = .ok .nop ∧ decode 0x00000104 = .ok (.streamEnc .bufB) ∧
    decode 0x00000011 = .ok .lcgNext ∧ decode 0x00000114 = .ok (.permDec .bufB) ∧
    decode 0x00000021 = .ok (.entropy .bufA) ∧ decode 0x00000122 = .ok (.corr .bufB) ∧
    decode 0x00000023 = .ok .npcrUaci ∧ decode 0x00000123 = .error .selNotAllowed ∧
    decode 0x00000006 = .error .unlistedOpcode ∧ decode 0x80000003 = .error .reservedBits

/-! ## The step -/

/-- R101, R76: when the host's next event writes a word that decodes to `i` to `CMD`, the step is `exec i` in the state
that holds the word in `CMD`, with the event taken from the script and answered. -/
def Obligations.StepRunsDecodedCommand : Prop :=
  ∀ s w rest i, s.script = cmdWrite w :: rest → decode w = .ok i → step s = exec i (accepted s w rest)

/-- R105, R229: an illegal word is stored in `CMD`, raises `IllegalCommandError` and changes nothing else. -/
def Obligations.IllegalWordReported : Prop :=
  ∀ s w rest, s.script = cmdWrite w :: rest → ¬legalWord w →
    step s = .next (failedState (accepted s w rest) .illegalCommand)

/-- R107, R126: the script line of a command expands to one write of its opcode, plus 0x100 for the suffix `.B`, to
`CMD`, and the step that takes it runs the command. -/
def Obligations.CommandLineRunsCommand : Prop :=
  ∀ i s rest, expandLine (.command i) =
      [cmdWrite (word ((opcodeOf i).toNat + if primaryOf i = some .bufB then 0x100 else 0))] ∧
    (s.script = expandLine (.command i) ++ rest → step s = exec i (accepted s (encode i) rest))

/-- The machine never stops: every step answers a next state (R85, R222, R234: errors are reports; log 12). -/
def Obligations.StepNeverStops : Prop :=
  ∀ s, ∃ t, step s = .next t

/-- R237, R254: with no event pending the unit is idle and keeps all state (the step then is the model's: log 1). -/
def Obligations.IdleKeepsState : Prop :=
  ∀ s, s.script = [] → step s = .next s

/-! ## The host's transactions -/

/-- R47: the offsets of the registers, written out; every other word below 0x1000 is reserved. -/
def Obligations.RegisterMapOffsets : Prop :=
  allRegs.map Reg.offset =
      [0x000, 0x004, 0x008, 0x00C, 0x010, 0x014, 0x018, 0x01C, 0x020, 0x024, 0x028, 0x02C, 0x030] ++
        [0x040, 0x044, 0x048, 0x04C, 0x050, 0x054, 0x058, 0x05C, 0x060, 0x064, 0x068, 0x06C, 0x070] ++
        [0x074, 0x078, 0x07C, 0x080, 0x084, 0x088, 0x08C, 0x090, 0x094, 0x098, 0x0A0, 0x0A4, 0x0B0] ++
        [0x0B4, 0x0B8, 0x0C0, 0x0C4, 0x0C8, 0x0D0, 0x0D4, 0x0D8, 0x0E0, 0x0E4, 0x0E8, 0x0F0, 0x0F4] ∧
    (∀ r : Reg, r ∈ allRegs) ∧ (∀ r, locate (Reg.offset r) = .register r) ∧
    ∀ a < 0x1000, a ∉ allRegs.map Reg.offset → locate a = .reserved

/-- R77: a read has no side effect at any address: the state is as before but for the event taken and the answer
recorded, and the answer to a register read is the register. -/
def Obligations.ReadHasNoSideEffect : Prop :=
  ∀ s a w rest, s.script = .rd a w :: rest → ∃ ans,
    step s = .next { s with script := rest, answers := ans :: s.answers } ∧
      (∀ r : Reg, w = .w32 → a.toNat = r.offset → ans = .value (s.readReg r))

/-- R75 (b): the word a read of a table or buffer returns holds the byte at the address in its low lane. -/
def Obligations.ReadIsLittleEndian : Prop :=
  ∀ s a rest, s.script = .rd a .w32 :: rest → a.toNat % 4 = 0 → inTableOrBuffer a.toNat → ∃ v : Word,
    step s = .next { s with script := rest, answers := .value v :: s.answers } ∧
      v.toNat = (s.byteAt a.toNat).toNat + 2 ^ 8 * (s.byteAt (a.toNat + 1)).toNat +
        2 ^ 16 * (s.byteAt (a.toNat + 2)).toNat + 2 ^ 24 * (s.byteAt (a.toNat + 3)).toNat

/-- R85: a transaction gets a bus error exactly for the causes the rule lists, and then nothing changes: no register, no
table, no buffer, not `STATUS` nor `STICKY`; the next event follows. -/
def Obligations.BusErrorExactly : Prop :=
  ∀ s e a w v rest, (e = .rd a w ∨ e = .wr a w v) → s.script = e :: rest →
    (badTransaction a w → step s = .next { s with script := rest, answers := .busError :: s.answers }) ∧
      (¬badTransaction a w → ∃ t ans, step s = .next t ∧ t.answers = ans :: s.answers ∧ ans ≠ .busError)

/-- R74, R77: a host write to a register stores its writable bits, leaves its other bits, and does nothing else; `CMD`
and `STATUS` apart. -/
def Obligations.HostWriteStoresWritableBits : Prop :=
  ∀ s r v rest, r ≠ .cmd → r ≠ .status → s.script = .wr (BitVec.ofNat 28 r.offset) .w32 v :: rest →
    ∃ t, step s = .next t ∧ t.readReg r = (v &&& writableBits r) ||| (s.readReg r &&& ~~~writableBits r) ∧
      (∀ q, q ≠ r → t.readReg q = s.readReg q) ∧ t.mem = s.mem ∧ t.resets = s.resets ∧ t.script = rest ∧
      t.answers = .written :: s.answers

/-- R74: an unmapped address gets a bus error and nothing changes; a write to a read-only register, a table entry or a
reserved word is accepted and ignored; a reserved word and the reserved bits of every register read 0. (That a write
leaves the reserved bits of a writable register: `HostWriteStoresWritableBits`.) -/
def Obligations.UnmappedReadOnlyReserved : Prop :=
  (∀ s a v rest, unmapped a.toNat → s.script = .rd a .w32 :: rest ∨ s.script = .wr a .w32 v :: rest →
      step s = .next { s with script := rest, answers := .busError :: s.answers }) ∧
    (∀ s a v rest, (∃ r, readOnly r ∧ a.toNat = r.offset) ∨ tableEntry a.toNat ∨ reservedWord a.toNat →
      s.script = .wr a .w32 v :: rest →
      step s = .next { s with script := rest, answers := .written :: s.answers }) ∧
    (∀ s a rest, reservedWord a.toNat → s.script = .rd a .w32 :: rest →
      step s = .next { s with script := rest, answers := .value 0 :: s.answers }) ∧
    ∀ (s : State) r, s.readReg r &&& reservedBits r = 0

/-- R26: a host write to `STATUS` changes nothing but `STICKY`, which it clears when bit 3 of the data is 1. -/
def Obligations.StatusWriteClearsStickyOnly : Prop :=
  ∀ s v rest, s.script = .wr 0x0000008 .w32 v :: rest →
    step s = .next { s with
      status := { s.status with sticky := if v.getLsbD 3 then false else s.status.sticky }
      script := rest
      answers := .written :: s.answers }

/-- R26: where each field stands in the word a read of `STATUS` returns, and that the reserved bits read 0. -/
def Obligations.StatusWordLayout : Prop :=
  ∀ s : State, (s.readReg .status).toNat = (if s.status.done then 1 else 0) + (if s.status.err then 2 else 0) +
    (if s.status.empty then 4 else 0) + (if s.status.sticky then 8 else 0) + 256 * s.status.errCode.toNat

/-- R75 (b), R78: a word written to a buffer window is what the next read of that address answers; every other byte and
every register is as before. -/
def Obligations.BufferWriteThenRead : Prop :=
  ∀ s a v rest b, s.script = .wr a .w32 v :: .rd a .w32 :: rest → a.toNat % 4 = 0 → inBuffer b 4194304 a.toNat →
    ∃ t, run 2 s = .next t ∧ t.answers = .value v :: .written :: s.answers ∧
      t = { s with mem := t.mem, script := rest, answers := t.answers } ∧
      (∀ j < 4, t.byteAt (a.toNat + j) = BitVec.ofNat 8 (v.toNat / 2 ^ (8 * j))) ∧
      ∀ x, ¬(a.toNat ≤ x ∧ x < a.toNat + 4) → t.byteAt x = s.byteAt x

/-! ## Errors -/

/-- R222: a command that ends with an error writes `ERR`, `DONE`, `STICKY` and `ERRCODE`, and nothing else. -/
def Obligations.FailureChangesOnlyStatus : Prop :=
  ∀ i s t, exec i s = .next t → t.status.err = true →
    ∃ e, t = failedState s e

/-- R231, R232, R224 to R230: an illegal word is reported before anything else; of the errors of a command whose cause
holds exactly the first in the order of R231 is reported; with no cause the command completes. -/
def Obligations.FirstErrorReported : Prop :=
  (∀ w s, ¬legalWord w → runWord w s = .next (failedState s .illegalCommand)) ∧
    ∀ i, errorsReported i ∧ ∀ s, (∀ e, ¬cause s i e) → ∃ t, exec i s = .next t ∧ t.status.done = true ∧
      t.status.err = false ∧ t.status.errCode = 0 ∧ t.status.sticky = s.status.sticky

/-- R234: re-issuing a failed command with unchanged registers fails the same way. -/
def Obligations.FailureRepeats : Prop :=
  ∀ i s t, exec i s = .next t → t.status.err = true → exec i t = .next t

/-! ## System and whole-machine rules -/

/-- R210: `NOP` completes from any state and changes `DONE`, `ERR` and `ERRCODE` only. -/
def Obligations.NopCompletes : Prop :=
  row 0x00 .nop ∧ ∀ s, exec .nop s = .next { s with status := ⟨true, false, s.status.empty, s.status.sticky, 0⟩ }

/-- R23: no command's result depends on `STATUS` or on the old value of `CMD`: changing both changes nothing after the
command but `CMD`, `STICKY` and, where the command does not write it, `EMPTY`. -/
def Obligations.CommandsIgnoreStatusAndCmd : Prop :=
  ∀ i s t st c, exec i s = .next t → exec i { s with status := st, cmd := c } = .next { t with
    cmd := c
    status := { t.status with
      sticky := st.sticky || t.status.err
      empty := if writesEmpty i = true ∧ t.status.done = true then t.status.empty else st.empty } }

/-- R34, R35, R47: no command writes the key or IV file, their lengths, `CTRL`, `ITER`, `KS_LEN`, `ORIGLEN` or `CMD`, and
only `PERM_ENC` and `PERM_DEC` write dimension registers, those of the secondary buffer. -/
def Obligations.CommandsKeepHostRegisters : Prop :=
  ∀ i s t, exec i s = .next t →
    t.key = s.key ∧ t.iv = s.iv ∧ t.keyLen = s.keyLen ∧ t.ivLen = s.ivLen ∧ t.chkLen = s.chkLen ∧
      t.iter = s.iter ∧ t.ksLen = s.ksLen ∧ t.origLen = s.origLen ∧ t.cmd = s.cmd ∧
      ∀ b, (t.width b ≠ s.width b ∨ t.height b ≠ s.height b) → ∃ p, (i = .permEnc p ∨ i = .permDec p) ∧
        b = otherBuffer p

/-- R84: the metric commands and the primitives write no buffer byte; the stream commands and `KS_GEN` write no byte of
the other buffer; the permutation commands write no byte of the primary buffer. -/
def Obligations.CommandsWriteTheirBuffersOnly : Prop :=
  ∀ i s t b a, exec i s = .next t → inBuffer b 4194304 a → t.byteAt a ≠ s.byteAt a →
    (i = .ksGen b ∨ i = .streamEnc b ∨ i = .streamDec b) ∨
      i = .permEnc (otherBuffer b) ∨ i = .permDec (otherBuffer b)

/-- R26: `STICKY` is cleared only by a host write to `STATUS` with bit 3 equal to 1, or by reset. -/
def Obligations.StickyClearedOnlyByHost : Prop :=
  ∀ s t, step s = .next t → s.status.sticky = true → t.status.sticky = false →
    ∃ rest, s.script = .reset :: rest ∨
      ∃ v : Word, s.script = .wr 0x0000008 .w32 v :: rest ∧ v.getLsbD 3 = true

/-- R26: after any command exactly one of `DONE` and `ERR` is 1. -/
def Obligations.CommandEndsDoneOrErr : Prop :=
  ∀ i s t, exec i s = .next t → (t.status.done = true ↔ t.status.err = false)

/-! ## Keystream and stream cipher -/

/-- R131: `XS_SEED` with legal lengths completes with the closed form of the four words; nothing else changes. -/
def Obligations.XsSeedResult : Prop :=
  row 0x01 .xsSeed ∧ errorsReported .xsSeed ∧ ∀ s, keyLegal s → ivLegal s →
    exec .xsSeed s = .next { s with xs := seed s, status := doneStatus s.status }

/-- R132: `XS_STEP` completes from any state; `XS2` and `XS3` are as before, `KS_WORD` is the output word, and bit 0 of it
is 0. -/
def Obligations.XsStepResult : Prop :=
  row 0x02 .xsStep ∧ ∀ s, exec .xsStep s =
      .next { s with xs := xorshift s.xs, ksWord := (xorshift s.xs).x0, status := doneStatus s.status } ∧
    (xorshift s.xs).x2 = s.xs.x2 ∧ (xorshift s.xs).x3 = s.xs.x3 ∧ (xorshift s.xs).x0.getLsbD 0 = false ∧
    (s.xs.x0 = 0 → s.xs.x1 = 0 → (xorshift s.xs).x0 = 0 ∧ (xorshift s.xs).x1 = 0)

/-- R134, R133: `KS_GEN` writes the first `KS_LEN` bytes of the primary buffer with the keystream and leaves every other
byte; it leaves the state of `KS(KS_LEN)` in `XS0` to `XS3` and `KS_WORD`. -/
def Obligations.KsGenResult : Prop :=
  rowWithSel 0x03 .ksGen ∧ (∀ p, errorsReported (.ksGen p)) ∧ ∀ s p, keyLegal s → ivLegal s → s.ksLen.toNat ≤ 4194304 → ∃ t, exec (.ksGen p) s = .next t ∧
    t = { s with
      mem := t.mem
      xs := keystreamEnd s s.ksLen.toNat
      ksWord := if s.ksLen.toNat = 0 then s.ksWord else (keystreamEnd s s.ksLen.toNat).x0
      status := doneStatus s.status } ∧
    (∀ a, inBuffer p s.ksLen.toNat a → t.byteAt a = keystreamByte s (a - p.base)) ∧
    ∀ a, ¬inBuffer p s.ksLen.toNat a → t.byteAt a = s.byteAt a

/-- R135: `STREAM_ENC` XORs every byte of the primary image, alpha too, with its keystream byte, in place; every other
byte and register is as the rule says. -/
def Obligations.StreamEncResult : Prop :=
  rowWithSel 0x04 .streamEnc ∧ (∀ p, errorsReported (.streamEnc p)) ∧ ∀ s p, keyLegal s → ivLegal s → dimsLegal s p → ∃ t, exec (.streamEnc p) s = .next t ∧
    t = { s with
      mem := t.mem
      xs := keystreamEnd s (plen s p)
      ksWord := (keystreamEnd s (plen s p)).x0
      status := doneStatus s.status } ∧
    (∀ a, inBuffer p (plen s p) a → t.byteAt a = s.byteAt a ^^^ keystreamByte s (a - p.base)) ∧
    ∀ a, ¬inBuffer p (plen s p) a → t.byteAt a = s.byteAt a

/-- R136: where the tracked length is not checked or agrees, `STREAM_DEC` has exactly the effect of `STREAM_ENC`; where it
is checked and differs, with the other operands legal, it fails with `BufferLengthMismatchError`. -/
def Obligations.StreamDecResult : Prop :=
  rowWithSel 0x05 .streamDec ∧ (∀ p, errorsReported (.streamDec p)) ∧ ∀ s p, keyLegal s → ivLegal s → dimsLegal s p →
    (lengthAgrees s p → ∃ t, exec (.streamDec p) s = .next t ∧ exec (.streamEnc p) s = .next t ∧
      t.status = doneStatus s.status ∧
      (∀ a, inBuffer p (plen s p) a → t.byteAt a = s.byteAt a ^^^ keystreamByte s (a - p.base)) ∧
      ∀ a, ¬inBuffer p (plen s p) a → t.byteAt a = s.byteAt a) ∧
    (¬lengthAgrees s p → exec (.streamDec p) s = .next (failedState s .bufferLengthMismatch))

/-- R137 (a): decrypting, or encrypting again, with the same registers restores every byte of memory. -/
def Obligations.StreamRoundTrip : Prop :=
  ∀ s p, keyLegal s → ivLegal s → dimsLegal s p → ∃ t, exec (.streamEnc p) s = .next t ∧
    (∃ u, exec (.streamEnc p) t = .next u ∧ ∀ a, u.byteAt a = s.byteAt a) ∧
    (lengthAgrees s p → ∃ u, exec (.streamDec p) t = .next u ∧ ∀ a, u.byteAt a = s.byteAt a)

/-- R137 (b), R257: the ciphertext does not depend on the IV nor on key bytes 8 and above: two states that differ only in
those give the same bytes and the same `XS0`, `XS1`, `KS_WORD`. -/
def Obligations.KeystreamIgnoresIv : Prop :=
  ∀ s p key iv keyLen ivLen, keyLegal s → ivLegal s → dimsLegal s p →
    keyLegal { s with key := key, iv := iv, keyLen := keyLen, ivLen := ivLen } →
    ivLegal { s with key := key, iv := iv, keyLen := keyLen, ivLen := ivLen } →
    (∀ i < 8, keyOr0 s i = keyOr0 { s with key := key, iv := iv, keyLen := keyLen, ivLen := ivLen } i) →
    ∃ t u, exec (.streamEnc p) s = .next t ∧
      exec (.streamEnc p) { s with key := key, iv := iv, keyLen := keyLen, ivLen := ivLen } = .next u ∧
      (∀ a, t.byteAt a = u.byteAt a) ∧ t.xs.x0 = u.xs.x0 ∧ t.xs.x1 = u.xs.x1 ∧ t.ksWord = u.ksWord

/-- R137 (e): every output word is even, so `STREAM_ENC` never changes the least significant bit of an alpha byte. -/
def Obligations.AlphaLowBitKept : Prop :=
  ∀ s p, keyLegal s → ivLegal s → dimsLegal s p → ∃ t, exec (.streamEnc p) s = .next t ∧
    ∀ k < s.width p * s.height p, (t.pixelAt p k).a.getLsbD 0 = (s.pixelAt p k).a.getLsbD 0

/-- R256: from `XS0 = XS1 = 0` every `XS_STEP` leaves them 0 and outputs 0; with a key whose bytes 0 to 7 pair off,
`XS_SEED` leaves 0 in both words and `STREAM_ENC` leaves every byte unchanged and reports success. -/
def Obligations.ZeroSeedEncryptsNothing : Prop :=
  (∀ s, s.xs.x0 = 0 → s.xs.x1 = 0 → ∃ t, exec .xsStep s = .next t ∧ t.xs.x0 = 0 ∧ t.xs.x1 = 0 ∧ t.ksWord = 0) ∧
    ∀ s p, keyLegal s → ivLegal s → dimsLegal s p → keyOr0 s 0 = keyOr0 s 2 → keyOr0 s 1 = keyOr0 s 3 →
      keyOr0 s 4 = keyOr0 s 6 → keyOr0 s 5 = keyOr0 s 7 →
      (∃ t, exec .xsSeed s = .next t ∧ t.xs.x0 = 0 ∧ t.xs.x1 = 0) ∧
      ∃ t, exec (.streamEnc p) s = .next t ∧ t.status.done = true ∧ t.status.err = false ∧
        t.xs.x0 = 0 ∧ t.xs.x1 = 0 ∧ ∀ a, t.byteAt a = s.byteAt a

/-! ## LCG and permutation -/

/-- R151: `LCG_DERIVE` with legal lengths completes with the two folds in `LCG_SEED`; nothing else changes. -/
def Obligations.LcgDeriveResult : Prop :=
  row 0x10 .lcgDerive ∧ errorsReported .lcgDerive ∧ ∀ s, keyLegal s → ivLegal s → exec .lcgDerive s = .next { s with
    lcgSeed := word (fold 17 (ivOr0 s) (fold 31 (keyOr0 s) 0 s.keyLen.toNat) s.ivLen.toNat)
    status := doneStatus s.status }

/-- R152, R153: `LCG_NEXT` completes from any state with the absolute value of the wrapped sum read as signed, which is at
most 2^31; nothing else changes. -/
def Obligations.LcgNextResult : Prop :=
  row 0x11 .lcgNext ∧ ∀ s, exec .lcgNext s =
      .next { s with lcgSeed := word (lcg s.lcgSeed.toNat), status := doneStatus s.status } ∧
    lcg s.lcgSeed.toNat ≤ 2 ^ 31

/-- R155, R154: `PERM_BUILD` writes the permutation that the shuffles make into `PERMTAB`, its inverse into `INVTAB`, the
block count and the last seed; every other byte and register is as before. -/
def Obligations.PermBuildResult : Prop :=
  rowWithSel 0x12 .permBuild ∧ (∀ p, errorsReported (.permBuild p)) ∧ ∀ s p, permLegal s p → ∃ t, exec (.permBuild p) s = .next t ∧
    t = { s with
      mem := t.mem
      nBlocks := word (blocks s p)
      lcgSeed := word (built s p).2
      status := doneStatus s.status } ∧
    tablesHold t (blocks s p) (built s p).1 ∧ ∀ a, ¬inTables (blocks s p) a → t.byteAt a = s.byteAt a

/-- R157, R156: `PERM_ENC` builds the tables and moves every block of the primary image along `PERMTAB` into the secondary
buffer, substituted at its source offset; border, alpha, dimensions and everything else as the rules say. -/
def Obligations.PermEncResult : Prop :=
  rowWithSel 0x13 .permEnc ∧ (∀ p, errorsReported (.permEnc p)) ∧ ∀ s p, permLegal s p → ∃ t, exec (.permEnc p) s = .next t ∧ permRegisters s t p ∧
    tablesHold t (blocks s p) (built s p).1 ∧ moved s t p (built s p).1

/-- R158, R156: `PERM_DEC` does the same along `INVTAB`. -/
def Obligations.PermDecResult : Prop :=
  rowWithSel 0x14 .permDec ∧ (∀ p, errorsReported (.permDec p)) ∧ ∀ s p, permLegal s p → ∃ t, exec (.permDec p) s = .next t ∧ permRegisters s t p ∧
    tablesHold t (blocks s p) (built s p).1 ∧ moved s t p (built s p).1.symm

/-- R159 (d), R258: where `KEYLEN` divides 32, `PERM_DEC` from the secondary buffer back undoes `PERM_ENC`: every byte of
the image is restored, and the primary dimensions with it. -/
def Obligations.PermRoundTrip : Prop :=
  ∀ s p, permLegal s p → 32 % s.keyLen.toNat = 0 → ∃ t u, exec (.permEnc p) s = .next t ∧
    exec (.permDec (otherBuffer p)) t = .next u ∧ u.width p = s.width p ∧ u.height p = s.height p ∧
      ∀ a, inBuffer p (plen s p) a → u.byteAt a = s.byteAt a

/-! ## Metrics -/

/-- R175: `HIST` writes all 768 entries with the counts of the primary image and changes nothing else; each table sums to
the pixel count. -/
def Obligations.HistResult : Prop :=
  rowWithSel 0x20 .hist ∧ (∀ p, errorsReported (.hist p)) ∧ ∀ s p, dimsLegal s p → ∃ t, exec (.hist p) s = .next t ∧
    t = { s with mem := t.mem, status := doneStatus s.status } ∧ histogramOf s t p ∧
    ∑ v ∈ Finset.range 256, (t.wordAt (0x1000 + 4 * v)).toNat = s.width p * s.height p ∧
    ∑ v ∈ Finset.range 256, (t.wordAt (0x1400 + 4 * v)).toNat = s.width p * s.height p ∧
    ∑ v ∈ Finset.range 256, (t.wordAt (0x1800 + 4 * v)).toNat = s.width p * s.height p

/-- R177: `ENTROPY` fills the tables as `HIST` does, writes `ENT_T = 3 * PN`, and `ENT_Q` with `entQ` of the combined
counts (R176) and that total, and changes nothing else. -/
def Obligations.EntropyResult : Prop :=
  rowWithSel 0x21 .entropy ∧ (∀ p, errorsReported (.entropy p)) ∧
    ∀ s p, dimsLegal s p → ∃ t, exec (.entropy p) s = .next t ∧
      t = { s with
        mem := t.mem
        ent := ⟨word (entQ ((List.range 256).map (combined s p)) (3 * (s.width p * s.height p))),
          word (3 * (s.width p * s.height p))⟩
        status := doneStatus s.status } ∧
      histogramOf s t p ∧ t.ent.t.toNat = 3 * (s.width p * s.height p) ∧
      |(t.ent.q.toNat : ℝ) - entropyUnits (combined s p) (3 * (s.width p * s.height p))| ≤ 256

/-- R178: `entQ` of 256 counts and their total is (i) within 256 units of `E * 2^24`, (ii) at most 8.0, and (iii) exactly
`k * 2^24` where the nonzero counts are all equal and `2^k` in number; (iv) it is a function of these two arguments. No
value that (i) and (ii) allow is shut out by the limits put on the free value of log 5. -/
def Obligations.EntropyFunction : Prop :=
  ∀ c : List Nat, c.length = 256 → 0 < c.sum →
    |(entQ c c.sum : ℝ) - entropyUnits (fun v => c.getD v 0) c.sum| ≤ 256 ∧ entQ c c.sum ≤ 0x08000000 ∧
    (∀ m k, (∀ x ∈ c, x = 0 ∨ x = m) → (c.filter fun x => x ≠ 0).length = 2 ^ k → entQ c c.sum = k * 2 ^ 24) ∧
    ∀ q : Nat, q ≤ 0x08000000 → |(q : ℝ) - entropyUnits (fun v => c.getD v 0) c.sum| ≤ 256 →
      entMin c c.sum ≤ q ∧ q ≤ entMax c c.sum

/-- R190 to R193: `CORR` writes the three sums, counts and means of the primary image, exactly and without overflow, sets
`EMPTY` exactly when a direction has no pair, and changes nothing else. -/
def Obligations.CorrResult : Prop :=
  rowWithSel 0x22 .corr ∧ (∀ p, errorsReported (.corr p)) ∧ ∀ s p, dimsLegal s p → ∃ t, exec (.corr p) s = .next t ∧
    t = { s with
      corrH := t.corrH
      corrV := t.corrV
      corrD := t.corrD
      status := ⟨true, false, decide (s.width p = 1 ∨ s.height p = 1), s.status.sticky, 0⟩ } ∧
    directionHolds t.corrH (pairSum s p 1 0 (s.width p - 1) (s.height p)) ((s.width p - 1) * s.height p) ∧
    directionHolds t.corrV (pairSum s p 0 1 (s.width p) (s.height p - 1)) (s.width p * (s.height p - 1)) ∧
    directionHolds t.corrD (pairSum s p 1 1 (s.width p - 1) (s.height p - 1))
      ((s.width p - 1) * (s.height p - 1))

/-- R200 to R202: `NPCR_UACI` on two images of equal pixel count writes the five results, exactly and without overflow,
and changes nothing else. -/
def Obligations.NpcrUaciResult : Prop :=
  row 0x23 .npcrUaci ∧ errorsReported .npcrUaci ∧ ∀ s n, dimsLegal s .bufA → dimsLegal s .bufB → s.width .bufA * s.height .bufA = n →
    s.width .bufB * s.height .bufB = n → ∃ t, exec .npcrUaci s = .next t ∧
      t = { s with diff := t.diff, status := doneStatus s.status } ∧
      t.diff.npcrN.toNat = n ∧ t.diff.npcrDiff.toNat = differing s n ∧
      t.diff.npcrQ.toNat = 100 * differing s n * 2 ^ 24 / n ∧
      t.diff.uaciSad.toNat = ∑ k ∈ Finset.range n, pixelSad s k ∧
      t.diff.uaciQ.toNat = 100 * (∑ k ∈ Finset.range n, pixelSad s k) * 2 ^ 24 / (765 * n)

/-! ## Invariants that every step keeps -/

/-- Every step keeps memory in its canonical form, with only table and buffer bytes listed (R73, R82). -/
def Obligations.StepKeepsMemory : Prop :=
  ∀ s t, Memory.wf s.mem → memoryMapped s → step s = .next t → Memory.wf t.mem ∧ memoryMapped t

/-- R26, R221: every step keeps `STATUS` coherent. -/
def Obligations.StepKeepsStatusCoherent : Prop :=
  ∀ s t, s.status.coherent → step s = .next t → t.status.coherent

/-- R44, R159 (a), (b): every step keeps the first `NBLOCKS` entries of `PERMTAB` and `INVTAB` inverse permutations of
the block indices. -/
def Obligations.StepKeepsTablesInverse : Prop :=
  ∀ s t, tablesInverse s → step s = .next t → tablesInverse t

/-- R178 (ii), R192, R202: every step keeps the result registers in the ranges the rules give. -/
def Obligations.StepKeepsResultsInRange : Prop :=
  ∀ s t, resultsInRange s → step s = .next t → resultsInRange t

/-- The reset state meets the four invariants. -/
def Obligations.ResetMeetsInvariants : Prop :=
  Memory.wf State.reset.mem ∧ memoryMapped State.reset ∧ State.reset.status.coherent ∧
    tablesInverse State.reset ∧ resultsInRange State.reset

/-! ## Host software -/

/-- R107, R124: the nine writes of `SETKEY b0 ... b(n-1)` load exactly that key, and change nothing but the key file and
its length; `SETIV` likewise. -/
def Obligations.SetKeyAndIvLoadBytes : Prop :=
  (∀ s bytes rest, 1 ≤ bytes.length → bytes.length ≤ 32 → s.script = expandLine (.setKey bytes) ++ rest →
    ∃ t, run 9 s = .next t ∧ t.keyLen.toNat = bytes.length ∧
      (∀ i < 32, fileByte t.key i = bytes.getD i 0) ∧
      t = { s with keyLen := t.keyLen, key := t.key, script := rest, answers := t.answers }) ∧
  ∀ s bytes rest, bytes.length ≤ 32 → s.script = expandLine (.setIv bytes) ++ rest →
    ∃ t, run 9 s = .next t ∧ t.ivLen.toNat = bytes.length ∧
      (∀ i < 32, fileByte t.iv i = bytes.getD i 0) ∧
      t = { s with ivLen := t.ivLen, iv := t.iv, script := rest, answers := t.answers }

/-- R120, R121: `deriveKey` fails exactly on a passphrase of no bytes, and otherwise gives `length` bytes by the formula. -/
def Obligations.DeriveKeyResult : Prop :=
  ∀ passphrase length,
    ((passphraseBytes passphrase).length = 0 → deriveKey passphrase length = .error .emptyInput) ∧
    ((passphraseBytes passphrase).length ≠ 0 → ∃ key, deriveKey passphrase length = .ok key ∧ key.length = length ∧
      ∀ i < length, key.getD i 0 =
        (passphraseBytes passphrase).getD (i % (passphraseBytes passphrase).length) 0 ^^^ BitVec.ofNat 8 (i * 7))

/-- R123: inside the key `flipSingleBit` toggles exactly the bit it names, bit 0 the least significant of its byte. -/
def Obligations.FlipSingleBitTogglesOne : Prop :=
  ∀ key bitIndex, bitIndex < 8 * key.length → ∃ flipped, flipSingleBit key bitIndex = some flipped ∧
    flipped.length = key.length ∧ ∀ i < key.length, ∀ j < 8,
      (flipped.getD i 0).getLsbD j = ((key.getD i 0).getLsbD j ^^ decide (8 * i + j = bitIndex))

/-- R126, R213: the values the caller of a metric function receives. After the script of `computeEntropy` the value is
within 2^-16 of `E` (R178 (i)); after those of `computeCorrelation` and `computeNPCRUACI` each value is the exact rational
of R192 and R202 rounded down to a multiple of 2^-24 (0 for a direction with no pair). -/
def Obligations.ApiMetricValues : Prop :=
  (∀ s p, s.script = [] → dimsLegal s p → ∃ t v, run 1 (s.loadScript (apiScript .computeEntropy p)) = .next t ∧
      apiOutput .computeEntropy p t = .ok (.values [v]) ∧
      |(v : ℝ) - entropyUnits (combined s p) (3 * (s.width p * s.height p)) / 2 ^ 24| ≤ 1 / 2 ^ 16) ∧
    (∀ s p, s.script = [] → dimsLegal s p → ∃ t h v d,
      run 1 (s.loadScript (apiScript .computeCorrelation p)) = .next t ∧
      apiOutput .computeCorrelation p t = .ok (.values [h, v, d]) ∧
      roundedDown h (pairSum s p 1 0 (s.width p - 1) (s.height p)) (765 * ((s.width p - 1) * s.height p)) ∧
      roundedDown v (pairSum s p 0 1 (s.width p) (s.height p - 1)) (765 * (s.width p * (s.height p - 1))) ∧
      roundedDown d (pairSum s p 1 1 (s.width p - 1) (s.height p - 1))
        (765 * ((s.width p - 1) * (s.height p - 1)))) ∧
    ∀ s p n, s.script = [] → dimsLegal s .bufA → dimsLegal s .bufB → s.width .bufA * s.height .bufA = n →
      s.width .bufB * s.height .bufB = n → ∃ t npcr uaci,
        run 1 (s.loadScript (apiScript .computeNPCRUACI p)) = .next t ∧
        apiOutput .computeNPCRUACI p t = .ok (.values [npcr, uaci]) ∧ roundedDown npcr (100 * differing s n) n ∧
        roundedDown uaci (100 * ∑ k ∈ Finset.range n, pixelSad s k) (765 * n)

/-- R126: the other functions: `computeHistogram` receives the counts, `streamEncrypt` and `streamDecrypt` the primary
image with its dimensions, the permutation functions the secondary image with the dimensions of the primary. R220:
a function whose command fails gives its caller no output; that the caller gets the error code is log 19. -/
def Obligations.ApiImagesAndHistogram : Prop :=
  (∀ s p, s.script = [] → dimsLegal s p → ∃ t, run 1 (s.loadScript (apiScript .computeHistogram p)) = .next t ∧
      apiOutput .computeHistogram p t = .ok (.histogram ((List.range 256).map (count s p Pixel.r))
        ((List.range 256).map (count s p Pixel.g)) ((List.range 256).map (count s p Pixel.b)))) ∧
    (∀ f s p, f = .streamEncrypt ∨ f = .streamDecrypt ∧ lengthAgrees s p → s.script = [] → keyLegal s → ivLegal s →
      dimsLegal s p → ∃ t px, run 1 (s.loadScript (apiScript f p)) = .next t ∧
        apiOutput f p t = .ok (.image (s.width p) (s.height p) px) ∧ px.length = s.width p * s.height p ∧
        ∀ k < px.length, ∃ x, px[k]? = some x ∧ x = t.pixelAt p k ∧
          x.r = (s.pixelAt p k).r ^^^ keystreamByte s (4 * k) ∧
          x.g = (s.pixelAt p k).g ^^^ keystreamByte s (4 * k + 1) ∧
          x.b = (s.pixelAt p k).b ^^^ keystreamByte s (4 * k + 2) ∧
          x.a = (s.pixelAt p k).a ^^^ keystreamByte s (4 * k + 3)) ∧
    (∀ f s p, f = .permutationEncrypt ∨ f = .permutationDecrypt → s.script = [] → permLegal s p → ∃ t px,
      run 1 (s.loadScript (apiScript f p)) = .next t ∧ apiOutput f p t = .ok (.image (s.width p) (s.height p) px) ∧
        px.length = s.width p * s.height p ∧ ∀ k < px.length, px[k]? = some (t.pixelAt (otherBuffer p) k)) ∧
    ∀ f s p i e, s.script = [] → apiScript f p = [.command i] → cause s i e →
      (∀ e', priority e' < priority e → ¬cause s i e') → ∃ t,
        run 1 (s.loadScript (apiScript f p)) = .next t ∧ apiOutput f p t = .error (codeNumber e)

/-- R125: the IV is reconstructed exactly from the lowercase hex of the metadata record. That there are two digits a byte
is the model's choice (log 16). -/
def Obligations.MetadataHexRoundTrip : Prop :=
  ∀ bytes, bytesOfHex (hexOfBytes bytes) = some bytes ∧ (hexOfBytes bytes).length = 2 * bytes.length ∧
    ∀ c ∈ hexOfBytes bytes, ('0' ≤ c ∧ c ≤ '9') ∨ ('a' ≤ c ∧ c ≤ 'f')
end

