-- ==== Sys2Proof/Laws/Memory.lean ====
section
/-! SUPPORT. The laws of memory: what a read gives after a write of a run of bytes, that a write keeps the canonical
form, and that equal memories are equal data. -/

namespace Sys2Proof.Machine

/-! ## Lookup in the parts a write is made of -/

theorem Memory.lookup_append (m n : Memory) (x : Nat) :
    Memory.lookup (m ++ n) x = (Memory.lookup m x).or (Memory.lookup n x) := by
  induction m with
  | nil => simp [Memory.lookup]
  | cons c m ih => by_cases h : c.1 = x <;> simp [Memory.lookup, h, ih]

theorem Memory.lookup_filter_of_true (p : Host.Cell → Bool) (m : Memory) (x : Nat) (h : ∀ b, p (x, b) = true) :
    Memory.lookup (m.filter p) x = Memory.lookup m x := by
  induction m with
  | nil => rfl
  | cons c m ih =>
    obtain ⟨a, b⟩ := c
    by_cases hp : p (a, b) = true
    · simp [Memory.lookup, hp, ih]
    · have : a ≠ x := fun e => hp (e ▸ h b)
      simp [Memory.lookup, hp, ih, this]

theorem Memory.lookup_filter_of_false (p : Host.Cell → Bool) (m : Memory) (x : Nat) (h : ∀ b, p (x, b) = false) :
    Memory.lookup (m.filter p) x = none := by
  induction m with
  | nil => rfl
  | cons c m ih =>
    obtain ⟨a, b⟩ := c
    by_cases hp : p (a, b) = true
    · have : a ≠ x := fun e => by subst e; simp [h b] at hp
      simp [Memory.lookup, hp, ih, this]
    · simp [hp, ih]

theorem Memory.lookup_cells (base : Nat) (bs : List Byte) (x : Nat) :
    Memory.lookup (Memory.cells base bs) x = if base ≤ x then bs[x - base]? else none := by
  induction bs generalizing base with
  | nil => simp [Memory.cells, Memory.lookup]
  | cons b bs ih =>
    simp only [Memory.cells, Memory.lookup, ih]
    by_cases h : base = x
    · simp [h]
    · by_cases h' : base ≤ x
      · have hlt : base + 1 ≤ x := by omega
        have he : x - base = x - (base + 1) + 1 := by omega
        simp [h, h', hlt, he]
      · have hlt : ¬base + 1 ≤ x := by omega
        simp [h, h', hlt]

/-- Inside a written run a lookup gives the written byte; outside it the lookup is unchanged. -/
theorem Memory.lookup_writeRun (m : Memory) (base : Nat) (bs : List Byte) (x : Nat) :
    Memory.lookup (Memory.writeRun m base bs) x =
      if base ≤ x ∧ x < base + bs.length then bs[x - base]? else Memory.lookup m x := by
  rw [Memory.writeRun, Memory.lookup_append, Memory.lookup_append, Memory.lookup_cells]
  by_cases hlo : x < base
  · rw [Memory.lookup_filter_of_true _ _ _ (by simpa using hlo),
      Memory.lookup_filter_of_false _ _ _ (by simp only [decide_eq_false_iff_not]; omega)]
    simp [show ¬base ≤ x by omega]
  · rw [Memory.lookup_filter_of_false _ _ _ (by simpa using hlo)]
    by_cases hhi : x < base + bs.length
    · have hx : x - base < bs.length := by omega
      simp [show base ≤ x by omega, hhi, List.getElem?_eq_getElem hx]
    · have hx : bs.length ≤ x - base := by omega
      rw [Memory.lookup_filter_of_true _ _ _ (by simp only [decide_eq_true_eq]; omega)]
      simp [hhi, List.getElem?_eq_none hx]

/-! ## The canonical form -/

theorem Memory.mem_cells {base : Nat} {bs : List Byte} {c : Host.Cell} (h : c ∈ Memory.cells base bs) :
    base ≤ c.1 ∧ c.1 < base + bs.length := by
  induction bs generalizing base with
  | nil => simp [Memory.cells] at h
  | cons b bs ih =>
    simp only [Memory.cells, List.mem_cons] at h
    rcases h with rfl | h
    · simp
    · have := ih h
      simp only [List.length_cons]
      omega

theorem Memory.wf_cells (base : Nat) (bs : List Byte) : Memory.wf (Memory.cells base bs) := by
  induction bs generalizing base with
  | nil => exact List.Pairwise.nil
  | cons b bs ih =>
    refine List.Pairwise.cons (fun c hc => ?_) (ih _)
    have := Memory.mem_cells hc
    show base < c.1
    omega

/-- A write of a run of bytes keeps the canonical form. -/
theorem Memory.wf_writeRun {m : Memory} (h : Memory.wf m) (base : Nat) (bs : List Byte) :
    Memory.wf (Memory.writeRun m base bs) := by
  refine List.pairwise_append.2 ⟨h.filter _, List.pairwise_append.2 ⟨Memory.wf_cells _ _, h.filter _, ?_⟩, ?_⟩
  · intro c hc d hd
    have := Memory.mem_cells hc
    have := (List.mem_filter.1 hd).2
    simp only [decide_eq_true_eq] at this
    omega
  · intro c hc d hd
    have hc := (List.mem_filter.1 hc).2
    simp only [decide_eq_true_eq] at hc
    rcases List.mem_append.1 hd with hd | hd
    · have := Memory.mem_cells hd
      omega
    · have := (List.mem_filter.1 hd).2
      simp only [decide_eq_true_eq] at this
      omega

/-- The memory of reset is in canonical form. -/
theorem Memory.wf_nil : Memory.wf [] := List.Pairwise.nil

/-- The addresses a write lists: those listed before, and those of the run. -/
theorem Memory.mem_writeRun {m : Memory} {base : Nat} {bs : List Byte} {c : Host.Cell}
    (h : c ∈ Memory.writeRun m base bs) : c ∈ m ∨ (base ≤ c.1 ∧ c.1 < base + bs.length) := by
  rcases List.mem_append.1 h with h | h
  · exact .inl (List.mem_of_mem_filter h)
  · rcases List.mem_append.1 h with h | h
    · exact .inr (Memory.mem_cells h)
    · exact .inl (List.mem_of_mem_filter h)

theorem Memory.lookup_eq_none {m : Memory} {x : Nat} (h : ∀ c ∈ m, x < c.1) : Memory.lookup m x = none := by
  induction m with
  | nil => rfl
  | cons c m ih =>
    have hc := h c (by simp)
    simp only [Memory.lookup, show c.1 ≠ x by omega, if_false]
    exact ih fun d hd => h d (by simp [hd])

/-- Canonical memories that read the same everywhere are equal data. -/
theorem Memory.ext_of_wf {m n : Memory} (hm : Memory.wf m) (hn : Memory.wf n)
    (h : ∀ x, Memory.lookup m x = Memory.lookup n x) : m = n := by
  induction m generalizing n with
  | nil =>
    cases n with
    | nil => rfl
    | cons d n => simpa [Memory.lookup] using h d.1
  | cons c m ih =>
    cases n with
    | nil => simpa [Memory.lookup] using h c.1
    | cons d n =>
      obtain ⟨hc, hm'⟩ := List.pairwise_cons.1 hm
      obtain ⟨hd, hn'⟩ := List.pairwise_cons.1 hn
      have key : c.1 = d.1 := by
        rcases Nat.lt_trichotomy c.1 d.1 with hlt | heq | hgt
        · have := h c.1
          rw [Memory.lookup_eq_none (m := d :: n) (fun e he => by
            rcases List.mem_cons.1 he with rfl | he
            · exact hlt
            · exact Nat.lt_trans hlt (hd e he))] at this
          simp [Memory.lookup] at this
        · exact heq
        · have := h d.1
          rw [Memory.lookup_eq_none (m := c :: m) (fun e he => by
            rcases List.mem_cons.1 he with rfl | he
            · exact hgt
            · exact Nat.lt_trans hgt (hc e he))] at this
          simp [Memory.lookup] at this
      have hval : c.2 = d.2 := by simpa [Memory.lookup, key] using h c.1
      have hcd : c = d := Prod.ext key hval
      subst hcd
      refine congrArg _ (ih hm' hn' fun x => ?_)
      by_cases hx : c.1 = x
      · subst hx
        rw [Memory.lookup_eq_none hc, Memory.lookup_eq_none hd]
      · simpa [Memory.lookup, hx] using h x

/-! ## Reads of the state after a store -/

/-- A read inside the stored run gives the stored byte. -/
theorem State.byteAt_store_of_mem (s : State) {base : Nat} {bs : List Byte} {x : Nat}
    (h : base ≤ x ∧ x < base + bs.length) : (s.store base bs).byteAt x = bs.getD (x - base) 0 := by
  have hx : x - base < bs.length := by omega
  simp only [State.byteAt, State.store, Memory.lookup_writeRun, if_pos h]
  simp [List.getElem?_eq_getElem hx, List.getD]

/-- A read outside the stored run is unchanged. -/
theorem State.byteAt_store_of_not_mem (s : State) {base : Nat} {bs : List Byte} {x : Nat}
    (h : ¬(base ≤ x ∧ x < base + bs.length)) : (s.store base bs).byteAt x = s.byteAt x := by
  simp only [State.byteAt, State.store, Memory.lookup_writeRun, if_neg h]

theorem State.byteAt_store (s : State) (base : Nat) (bs : List Byte) (x : Nat) :
    (s.store base bs).byteAt x =
      if base ≤ x ∧ x < base + bs.length then bs.getD (x - base) 0 else s.byteAt x := by
  split
  · exact s.byteAt_store_of_mem ‹_›
  · exact s.byteAt_store_of_not_mem ‹_›

@[simp] theorem State.length_bytesAt (s : State) (base n : Nat) : (s.bytesAt base n).length = n := by
  simp [State.bytesAt]

theorem State.getElem_bytesAt (s : State) (base n k : Nat) (h : k < (s.bytesAt base n).length) :
    (s.bytesAt base n)[k] = s.byteAt (base + k) := by
  simp [State.bytesAt]

/-! ## Byte order -/

@[simp] theorem laneBytes_length (w : Word) : (laneBytes w).length = 4 := rfl

@[simp] theorem keystreamBytes_length (w : Word) : (keystreamBytes w).length = 4 := rfl

/-- The lanes of a word put together again are the word. -/
theorem laneWord_of_lanes (w : Word) :
    laneWord (w.extractLsb' 0 8) (w.extractLsb' 8 8) (w.extractLsb' 16 8) (w.extractLsb' 24 8) = w := by
  apply BitVec.eq_of_getLsbD_eq
  intro i hi
  simp only [laneWord, BitVec.getLsbD_append, BitVec.getLsbD_extractLsb']
  grind

/-- The bytes of an entry list: four for each entry. -/
@[simp] theorem length_flatMap_laneBytes (es : List Nat) :
    (es.flatMap fun v => laneBytes (word v)).length = 4 * es.length := by
  induction es with
  | nil => rfl
  | cons e es ih => simp [List.flatMap_cons, ih]; omega

/-- Byte `4 * i + j` of an entry list is lane `j` of entry `i`. -/
theorem getD_flatMap_laneBytes (es : List Nat) (i j : Nat) (hi : i < es.length) (hj : j < 4) :
    (es.flatMap fun v => laneBytes (word v)).getD (4 * i + j) 0 = (laneBytes (word (es.getD i 0))).getD j 0 := by
  induction es generalizing i with
  | nil => simp at hi
  | cons e es ih =>
    rw [List.flatMap_cons]
    cases i with
    | zero =>
      have hlen : 4 * 0 + j < (laneBytes (word e)).length := by simpa using hj
      simp only [List.getD_eq_getElem?_getD, List.getElem?_append_left hlen]
      simp
    | succ i =>
      have hlen : (laneBytes (word e)).length ≤ 4 * (i + 1) + j := by simp; omega
      have hsub : 4 * (i + 1) + j - (laneBytes (word e)).length = 4 * i + j := by simp; omega
      have := ih i (by simpa using hi)
      simp only [List.getD_eq_getElem?_getD, List.getElem?_append_right hlen, hsub] at this ⊢
      simpa using this

/-- Reading an entry of a stored table gives its 32-bit pattern. -/
theorem State.wordAt_storeEntries_of_lt (s : State) (base : Nat) (es : List Nat) (i : Nat) (hi : i < es.length) :
    (s.storeEntries base es).wordAt (base + 4 * i) = word (es.getD i 0) := by
  have read : ∀ j, j < 4 → (s.storeEntries base es).byteAt (base + 4 * i + j) =
      (laneBytes (word (es.getD i 0))).getD j 0 := by
    intro j hj
    rw [State.storeEntries, State.byteAt_store_of_mem _ (by simp; omega),
      show base + 4 * i + j - base = 4 * i + j by omega, getD_flatMap_laneBytes _ _ _ hi hj]
  have h0 := read 0 (by omega)
  simp only [Nat.add_zero] at h0
  rw [State.wordAt, h0, read 1 (by omega), read 2 (by omega), read 3 (by omega)]
  exact laneWord_of_lanes _

/-- Reading outside a stored table is unchanged. -/
theorem State.byteAt_storeEntries_of_not_mem (s : State) {base : Nat} {es : List Nat} {x : Nat}
    (h : ¬(base ≤ x ∧ x < base + 4 * es.length)) : (s.storeEntries base es).byteAt x = s.byteAt x := by
  rw [State.storeEntries, State.byteAt_store_of_not_mem]
  rwa [length_flatMap_laneBytes]

end Sys2Proof.Machine
end

