-- ==== Sys2Proof/Laws/State.lean ====
section
/-! SUPPORT. For each named update of the state, what each field holds after it: one lemma per field, true by
definition, so that no later proof unfolds a record update. -/

namespace Sys2Proof.Machine.State

variable (s : State)

/-! ## `store` -/

@[simp] theorem store_cmd (base : Nat) (bs : List Byte) : (s.store base bs).cmd = s.cmd := rfl
@[simp] theorem store_status (base : Nat) (bs : List Byte) : (s.store base bs).status = s.status := rfl
@[simp] theorem store_chkLen (base : Nat) (bs : List Byte) : (s.store base bs).chkLen = s.chkLen := rfl
@[simp] theorem store_keyLen (base : Nat) (bs : List Byte) : (s.store base bs).keyLen = s.keyLen := rfl
@[simp] theorem store_ivLen (base : Nat) (bs : List Byte) : (s.store base bs).ivLen = s.ivLen := rfl
@[simp] theorem store_aW (base : Nat) (bs : List Byte) : (s.store base bs).aW = s.aW := rfl
@[simp] theorem store_aH (base : Nat) (bs : List Byte) : (s.store base bs).aH = s.aH := rfl
@[simp] theorem store_bW (base : Nat) (bs : List Byte) : (s.store base bs).bW = s.bW := rfl
@[simp] theorem store_bH (base : Nat) (bs : List Byte) : (s.store base bs).bH = s.bH := rfl
@[simp] theorem store_iter (base : Nat) (bs : List Byte) : (s.store base bs).iter = s.iter := rfl
@[simp] theorem store_ksLen (base : Nat) (bs : List Byte) : (s.store base bs).ksLen = s.ksLen := rfl
@[simp] theorem store_origLen (base : Nat) (bs : List Byte) : (s.store base bs).origLen = s.origLen := rfl
@[simp] theorem store_key (base : Nat) (bs : List Byte) : (s.store base bs).key = s.key := rfl
@[simp] theorem store_iv (base : Nat) (bs : List Byte) : (s.store base bs).iv = s.iv := rfl
@[simp] theorem store_xs (base : Nat) (bs : List Byte) : (s.store base bs).xs = s.xs := rfl
@[simp] theorem store_ksWord (base : Nat) (bs : List Byte) : (s.store base bs).ksWord = s.ksWord := rfl
@[simp] theorem store_lcgSeed (base : Nat) (bs : List Byte) : (s.store base bs).lcgSeed = s.lcgSeed := rfl
@[simp] theorem store_nBlocks (base : Nat) (bs : List Byte) : (s.store base bs).nBlocks = s.nBlocks := rfl
@[simp] theorem store_ent (base : Nat) (bs : List Byte) : (s.store base bs).ent = s.ent := rfl
@[simp] theorem store_corrH (base : Nat) (bs : List Byte) : (s.store base bs).corrH = s.corrH := rfl
@[simp] theorem store_corrV (base : Nat) (bs : List Byte) : (s.store base bs).corrV = s.corrV := rfl
@[simp] theorem store_corrD (base : Nat) (bs : List Byte) : (s.store base bs).corrD = s.corrD := rfl
@[simp] theorem store_diff (base : Nat) (bs : List Byte) : (s.store base bs).diff = s.diff := rfl
@[simp] theorem store_mem (base : Nat) (bs : List Byte) :
    (s.store base bs).mem = Memory.writeRun s.mem base bs := rfl
@[simp] theorem store_script (base : Nat) (bs : List Byte) : (s.store base bs).script = s.script := rfl
@[simp] theorem store_answers (base : Nat) (bs : List Byte) : (s.store base bs).answers = s.answers := rfl
@[simp] theorem store_resets (base : Nat) (bs : List Byte) : (s.store base bs).resets = s.resets := rfl

/-! ## `storeEntries` -/

@[simp] theorem storeEntries_cmd (base : Nat) (es : List Nat) :
    (s.storeEntries base es).cmd = s.cmd := by simp only [State.storeEntries, store_cmd]
@[simp] theorem storeEntries_status (base : Nat) (es : List Nat) :
    (s.storeEntries base es).status = s.status := by simp only [State.storeEntries, store_status]
@[simp] theorem storeEntries_chkLen (base : Nat) (es : List Nat) :
    (s.storeEntries base es).chkLen = s.chkLen := by simp only [State.storeEntries, store_chkLen]
@[simp] theorem storeEntries_keyLen (base : Nat) (es : List Nat) :
    (s.storeEntries base es).keyLen = s.keyLen := by simp only [State.storeEntries, store_keyLen]
@[simp] theorem storeEntries_ivLen (base : Nat) (es : List Nat) :
    (s.storeEntries base es).ivLen = s.ivLen := by simp only [State.storeEntries, store_ivLen]
@[simp] theorem storeEntries_aW (base : Nat) (es : List Nat) :
    (s.storeEntries base es).aW = s.aW := by simp only [State.storeEntries, store_aW]
@[simp] theorem storeEntries_aH (base : Nat) (es : List Nat) :
    (s.storeEntries base es).aH = s.aH := by simp only [State.storeEntries, store_aH]
@[simp] theorem storeEntries_bW (base : Nat) (es : List Nat) :
    (s.storeEntries base es).bW = s.bW := by simp only [State.storeEntries, store_bW]
@[simp] theorem storeEntries_bH (base : Nat) (es : List Nat) :
    (s.storeEntries base es).bH = s.bH := by simp only [State.storeEntries, store_bH]
@[simp] theorem storeEntries_iter (base : Nat) (es : List Nat) :
    (s.storeEntries base es).iter = s.iter := by simp only [State.storeEntries, store_iter]
@[simp] theorem storeEntries_ksLen (base : Nat) (es : List Nat) :
    (s.storeEntries base es).ksLen = s.ksLen := by simp only [State.storeEntries, store_ksLen]
@[simp] theorem storeEntries_origLen (base : Nat) (es : List Nat) :
    (s.storeEntries base es).origLen = s.origLen := by simp only [State.storeEntries, store_origLen]
@[simp] theorem storeEntries_key (base : Nat) (es : List Nat) :
    (s.storeEntries base es).key = s.key := by simp only [State.storeEntries, store_key]
@[simp] theorem storeEntries_iv (base : Nat) (es : List Nat) :
    (s.storeEntries base es).iv = s.iv := by simp only [State.storeEntries, store_iv]
@[simp] theorem storeEntries_xs (base : Nat) (es : List Nat) :
    (s.storeEntries base es).xs = s.xs := by simp only [State.storeEntries, store_xs]
@[simp] theorem storeEntries_ksWord (base : Nat) (es : List Nat) :
    (s.storeEntries base es).ksWord = s.ksWord := by simp only [State.storeEntries, store_ksWord]
@[simp] theorem storeEntries_lcgSeed (base : Nat) (es : List Nat) :
    (s.storeEntries base es).lcgSeed = s.lcgSeed := by simp only [State.storeEntries, store_lcgSeed]
@[simp] theorem storeEntries_nBlocks (base : Nat) (es : List Nat) :
    (s.storeEntries base es).nBlocks = s.nBlocks := by simp only [State.storeEntries, store_nBlocks]
@[simp] theorem storeEntries_ent (base : Nat) (es : List Nat) :
    (s.storeEntries base es).ent = s.ent := by simp only [State.storeEntries, store_ent]
@[simp] theorem storeEntries_corrH (base : Nat) (es : List Nat) :
    (s.storeEntries base es).corrH = s.corrH := by simp only [State.storeEntries, store_corrH]
@[simp] theorem storeEntries_corrV (base : Nat) (es : List Nat) :
    (s.storeEntries base es).corrV = s.corrV := by simp only [State.storeEntries, store_corrV]
@[simp] theorem storeEntries_corrD (base : Nat) (es : List Nat) :
    (s.storeEntries base es).corrD = s.corrD := by simp only [State.storeEntries, store_corrD]
@[simp] theorem storeEntries_diff (base : Nat) (es : List Nat) :
    (s.storeEntries base es).diff = s.diff := by simp only [State.storeEntries, store_diff]
@[simp] theorem storeEntries_mem (base : Nat) (es : List Nat) :
    (s.storeEntries base es).mem = Memory.writeRun s.mem base (es.flatMap fun v => laneBytes (word v)) := rfl
@[simp] theorem storeEntries_script (base : Nat) (es : List Nat) :
    (s.storeEntries base es).script = s.script := by simp only [State.storeEntries, store_script]
@[simp] theorem storeEntries_answers (base : Nat) (es : List Nat) :
    (s.storeEntries base es).answers = s.answers := by simp only [State.storeEntries, store_answers]
@[simp] theorem storeEntries_resets (base : Nat) (es : List Nat) :
    (s.storeEntries base es).resets = s.resets := by simp only [State.storeEntries, store_resets]

/-! ## `raise` -/

@[simp] theorem raise_cmd (e : CommandError) : (s.raise e).cmd = s.cmd := rfl
@[simp] theorem raise_status (e : CommandError) : (s.raise e).status = s.status.failed e := rfl
@[simp] theorem raise_chkLen (e : CommandError) : (s.raise e).chkLen = s.chkLen := rfl
@[simp] theorem raise_keyLen (e : CommandError) : (s.raise e).keyLen = s.keyLen := rfl
@[simp] theorem raise_ivLen (e : CommandError) : (s.raise e).ivLen = s.ivLen := rfl
@[simp] theorem raise_aW (e : CommandError) : (s.raise e).aW = s.aW := rfl
@[simp] theorem raise_aH (e : CommandError) : (s.raise e).aH = s.aH := rfl
@[simp] theorem raise_bW (e : CommandError) : (s.raise e).bW = s.bW := rfl
@[simp] theorem raise_bH (e : CommandError) : (s.raise e).bH = s.bH := rfl
@[simp] theorem raise_iter (e : CommandError) : (s.raise e).iter = s.iter := rfl
@[simp] theorem raise_ksLen (e : CommandError) : (s.raise e).ksLen = s.ksLen := rfl
@[simp] theorem raise_origLen (e : CommandError) : (s.raise e).origLen = s.origLen := rfl
@[simp] theorem raise_key (e : CommandError) : (s.raise e).key = s.key := rfl
@[simp] theorem raise_iv (e : CommandError) : (s.raise e).iv = s.iv := rfl
@[simp] theorem raise_xs (e : CommandError) : (s.raise e).xs = s.xs := rfl
@[simp] theorem raise_ksWord (e : CommandError) : (s.raise e).ksWord = s.ksWord := rfl
@[simp] theorem raise_lcgSeed (e : CommandError) : (s.raise e).lcgSeed = s.lcgSeed := rfl
@[simp] theorem raise_nBlocks (e : CommandError) : (s.raise e).nBlocks = s.nBlocks := rfl
@[simp] theorem raise_ent (e : CommandError) : (s.raise e).ent = s.ent := rfl
@[simp] theorem raise_corrH (e : CommandError) : (s.raise e).corrH = s.corrH := rfl
@[simp] theorem raise_corrV (e : CommandError) : (s.raise e).corrV = s.corrV := rfl
@[simp] theorem raise_corrD (e : CommandError) : (s.raise e).corrD = s.corrD := rfl
@[simp] theorem raise_diff (e : CommandError) : (s.raise e).diff = s.diff := rfl
@[simp] theorem raise_mem (e : CommandError) : (s.raise e).mem = s.mem := rfl
@[simp] theorem raise_script (e : CommandError) : (s.raise e).script = s.script := rfl
@[simp] theorem raise_answers (e : CommandError) : (s.raise e).answers = s.answers := rfl
@[simp] theorem raise_resets (e : CommandError) : (s.raise e).resets = s.resets := rfl

/-! ## `complete` -/

@[simp] theorem complete_cmd : s.complete.cmd = s.cmd := rfl
@[simp] theorem complete_status : s.complete.status = s.status.completed := rfl
@[simp] theorem complete_chkLen : s.complete.chkLen = s.chkLen := rfl
@[simp] theorem complete_keyLen : s.complete.keyLen = s.keyLen := rfl
@[simp] theorem complete_ivLen : s.complete.ivLen = s.ivLen := rfl
@[simp] theorem complete_aW : s.complete.aW = s.aW := rfl
@[simp] theorem complete_aH : s.complete.aH = s.aH := rfl
@[simp] theorem complete_bW : s.complete.bW = s.bW := rfl
@[simp] theorem complete_bH : s.complete.bH = s.bH := rfl
@[simp] theorem complete_iter : s.complete.iter = s.iter := rfl
@[simp] theorem complete_ksLen : s.complete.ksLen = s.ksLen := rfl
@[simp] theorem complete_origLen : s.complete.origLen = s.origLen := rfl
@[simp] theorem complete_key : s.complete.key = s.key := rfl
@[simp] theorem complete_iv : s.complete.iv = s.iv := rfl
@[simp] theorem complete_xs : s.complete.xs = s.xs := rfl
@[simp] theorem complete_ksWord : s.complete.ksWord = s.ksWord := rfl
@[simp] theorem complete_lcgSeed : s.complete.lcgSeed = s.lcgSeed := rfl
@[simp] theorem complete_nBlocks : s.complete.nBlocks = s.nBlocks := rfl
@[simp] theorem complete_ent : s.complete.ent = s.ent := rfl
@[simp] theorem complete_corrH : s.complete.corrH = s.corrH := rfl
@[simp] theorem complete_corrV : s.complete.corrV = s.corrV := rfl
@[simp] theorem complete_corrD : s.complete.corrD = s.corrD := rfl
@[simp] theorem complete_diff : s.complete.diff = s.diff := rfl
@[simp] theorem complete_mem : s.complete.mem = s.mem := rfl
@[simp] theorem complete_script : s.complete.script = s.script := rfl
@[simp] theorem complete_answers : s.complete.answers = s.answers := rfl
@[simp] theorem complete_resets : s.complete.resets = s.resets := rfl

/-! ## `runKeystream` -/

@[simp] theorem runKeystream_cmd (n : Nat) : (s.runKeystream n).cmd = s.cmd := rfl
@[simp] theorem runKeystream_status (n : Nat) : (s.runKeystream n).status = s.status := rfl
@[simp] theorem runKeystream_chkLen (n : Nat) : (s.runKeystream n).chkLen = s.chkLen := rfl
@[simp] theorem runKeystream_keyLen (n : Nat) : (s.runKeystream n).keyLen = s.keyLen := rfl
@[simp] theorem runKeystream_ivLen (n : Nat) : (s.runKeystream n).ivLen = s.ivLen := rfl
@[simp] theorem runKeystream_aW (n : Nat) : (s.runKeystream n).aW = s.aW := rfl
@[simp] theorem runKeystream_aH (n : Nat) : (s.runKeystream n).aH = s.aH := rfl
@[simp] theorem runKeystream_bW (n : Nat) : (s.runKeystream n).bW = s.bW := rfl
@[simp] theorem runKeystream_bH (n : Nat) : (s.runKeystream n).bH = s.bH := rfl
@[simp] theorem runKeystream_iter (n : Nat) : (s.runKeystream n).iter = s.iter := rfl
@[simp] theorem runKeystream_ksLen (n : Nat) : (s.runKeystream n).ksLen = s.ksLen := rfl
@[simp] theorem runKeystream_origLen (n : Nat) : (s.runKeystream n).origLen = s.origLen := rfl
@[simp] theorem runKeystream_key (n : Nat) : (s.runKeystream n).key = s.key := rfl
@[simp] theorem runKeystream_iv (n : Nat) : (s.runKeystream n).iv = s.iv := rfl
@[simp] theorem runKeystream_xs (n : Nat) :
    (s.runKeystream n).xs = xsSteps (keystreamSteps n) (seedState s.keyBytes s.ivBytes) := rfl
@[simp] theorem runKeystream_ksWord (n : Nat) :
    (s.runKeystream n).ksWord = if n = 0 then s.ksWord else (xsSteps (keystreamSteps n) (seedState s.keyBytes s.ivBytes)).x0 := rfl
@[simp] theorem runKeystream_lcgSeed (n : Nat) : (s.runKeystream n).lcgSeed = s.lcgSeed := rfl
@[simp] theorem runKeystream_nBlocks (n : Nat) : (s.runKeystream n).nBlocks = s.nBlocks := rfl
@[simp] theorem runKeystream_ent (n : Nat) : (s.runKeystream n).ent = s.ent := rfl
@[simp] theorem runKeystream_corrH (n : Nat) : (s.runKeystream n).corrH = s.corrH := rfl
@[simp] theorem runKeystream_corrV (n : Nat) : (s.runKeystream n).corrV = s.corrV := rfl
@[simp] theorem runKeystream_corrD (n : Nat) : (s.runKeystream n).corrD = s.corrD := rfl
@[simp] theorem runKeystream_diff (n : Nat) : (s.runKeystream n).diff = s.diff := rfl
@[simp] theorem runKeystream_mem (n : Nat) : (s.runKeystream n).mem = s.mem := rfl
@[simp] theorem runKeystream_script (n : Nat) : (s.runKeystream n).script = s.script := rfl
@[simp] theorem runKeystream_answers (n : Nat) : (s.runKeystream n).answers = s.answers := rfl
@[simp] theorem runKeystream_resets (n : Nat) : (s.runKeystream n).resets = s.resets := rfl

/-! ## `streamCipher` -/

@[simp] theorem streamCipher_cmd (p : Buffer) :
    (s.streamCipher p).cmd = s.cmd := by simp only [State.streamCipher, store_cmd, runKeystream_cmd]
@[simp] theorem streamCipher_status (p : Buffer) :
    (s.streamCipher p).status = s.status := by simp only [State.streamCipher, store_status, runKeystream_status]
@[simp] theorem streamCipher_chkLen (p : Buffer) :
    (s.streamCipher p).chkLen = s.chkLen := by simp only [State.streamCipher, store_chkLen, runKeystream_chkLen]
@[simp] theorem streamCipher_keyLen (p : Buffer) :
    (s.streamCipher p).keyLen = s.keyLen := by simp only [State.streamCipher, store_keyLen, runKeystream_keyLen]
@[simp] theorem streamCipher_ivLen (p : Buffer) :
    (s.streamCipher p).ivLen = s.ivLen := by simp only [State.streamCipher, store_ivLen, runKeystream_ivLen]
@[simp] theorem streamCipher_aW (p : Buffer) :
    (s.streamCipher p).aW = s.aW := by simp only [State.streamCipher, store_aW, runKeystream_aW]
@[simp] theorem streamCipher_aH (p : Buffer) :
    (s.streamCipher p).aH = s.aH := by simp only [State.streamCipher, store_aH, runKeystream_aH]
@[simp] theorem streamCipher_bW (p : Buffer) :
    (s.streamCipher p).bW = s.bW := by simp only [State.streamCipher, store_bW, runKeystream_bW]
@[simp] theorem streamCipher_bH (p : Buffer) :
    (s.streamCipher p).bH = s.bH := by simp only [State.streamCipher, store_bH, runKeystream_bH]
@[simp] theorem streamCipher_iter (p : Buffer) :
    (s.streamCipher p).iter = s.iter := by simp only [State.streamCipher, store_iter, runKeystream_iter]
@[simp] theorem streamCipher_ksLen (p : Buffer) :
    (s.streamCipher p).ksLen = s.ksLen := by simp only [State.streamCipher, store_ksLen, runKeystream_ksLen]
@[simp] theorem streamCipher_origLen (p : Buffer) :
    (s.streamCipher p).origLen = s.origLen := by simp only [State.streamCipher, store_origLen, runKeystream_origLen]
@[simp] theorem streamCipher_key (p : Buffer) :
    (s.streamCipher p).key = s.key := by simp only [State.streamCipher, store_key, runKeystream_key]
@[simp] theorem streamCipher_iv (p : Buffer) :
    (s.streamCipher p).iv = s.iv := by simp only [State.streamCipher, store_iv, runKeystream_iv]
@[simp] theorem streamCipher_xs (p : Buffer) : (s.streamCipher p).xs = (s.runKeystream (s.imageLen p)).xs := rfl
@[simp] theorem streamCipher_ksWord (p : Buffer) :
    (s.streamCipher p).ksWord = (s.runKeystream (s.imageLen p)).ksWord := rfl
@[simp] theorem streamCipher_lcgSeed (p : Buffer) :
    (s.streamCipher p).lcgSeed = s.lcgSeed := by simp only [State.streamCipher, store_lcgSeed, runKeystream_lcgSeed]
@[simp] theorem streamCipher_nBlocks (p : Buffer) :
    (s.streamCipher p).nBlocks = s.nBlocks := by simp only [State.streamCipher, store_nBlocks, runKeystream_nBlocks]
@[simp] theorem streamCipher_ent (p : Buffer) :
    (s.streamCipher p).ent = s.ent := by simp only [State.streamCipher, store_ent, runKeystream_ent]
@[simp] theorem streamCipher_corrH (p : Buffer) :
    (s.streamCipher p).corrH = s.corrH := by simp only [State.streamCipher, store_corrH, runKeystream_corrH]
@[simp] theorem streamCipher_corrV (p : Buffer) :
    (s.streamCipher p).corrV = s.corrV := by simp only [State.streamCipher, store_corrV, runKeystream_corrV]
@[simp] theorem streamCipher_corrD (p : Buffer) :
    (s.streamCipher p).corrD = s.corrD := by simp only [State.streamCipher, store_corrD, runKeystream_corrD]
@[simp] theorem streamCipher_diff (p : Buffer) :
    (s.streamCipher p).diff = s.diff := by simp only [State.streamCipher, store_diff, runKeystream_diff]
@[simp] theorem streamCipher_script (p : Buffer) :
    (s.streamCipher p).script = s.script := by simp only [State.streamCipher, store_script, runKeystream_script]
@[simp] theorem streamCipher_answers (p : Buffer) :
    (s.streamCipher p).answers = s.answers := by simp only [State.streamCipher, store_answers, runKeystream_answers]
@[simp] theorem streamCipher_resets (p : Buffer) :
    (s.streamCipher p).resets = s.resets := by simp only [State.streamCipher, store_resets, runKeystream_resets]

/-! ## `setDims` -/

@[simp] theorem setDims_cmd (b : Buffer) (w h : Nat) : (s.setDims b w h).cmd = s.cmd := by cases b <;> rfl
@[simp] theorem setDims_status (b : Buffer) (w h : Nat) : (s.setDims b w h).status = s.status := by cases b <;> rfl
@[simp] theorem setDims_chkLen (b : Buffer) (w h : Nat) : (s.setDims b w h).chkLen = s.chkLen := by cases b <;> rfl
@[simp] theorem setDims_keyLen (b : Buffer) (w h : Nat) : (s.setDims b w h).keyLen = s.keyLen := by cases b <;> rfl
@[simp] theorem setDims_ivLen (b : Buffer) (w h : Nat) : (s.setDims b w h).ivLen = s.ivLen := by cases b <;> rfl
@[simp] theorem setDims_iter (b : Buffer) (w h : Nat) : (s.setDims b w h).iter = s.iter := by cases b <;> rfl
@[simp] theorem setDims_ksLen (b : Buffer) (w h : Nat) : (s.setDims b w h).ksLen = s.ksLen := by cases b <;> rfl
@[simp] theorem setDims_origLen (b : Buffer) (w h : Nat) :
    (s.setDims b w h).origLen = s.origLen := by cases b <;> rfl
@[simp] theorem setDims_key (b : Buffer) (w h : Nat) : (s.setDims b w h).key = s.key := by cases b <;> rfl
@[simp] theorem setDims_iv (b : Buffer) (w h : Nat) : (s.setDims b w h).iv = s.iv := by cases b <;> rfl
@[simp] theorem setDims_xs (b : Buffer) (w h : Nat) : (s.setDims b w h).xs = s.xs := by cases b <;> rfl
@[simp] theorem setDims_ksWord (b : Buffer) (w h : Nat) : (s.setDims b w h).ksWord = s.ksWord := by cases b <;> rfl
@[simp] theorem setDims_lcgSeed (b : Buffer) (w h : Nat) :
    (s.setDims b w h).lcgSeed = s.lcgSeed := by cases b <;> rfl
@[simp] theorem setDims_nBlocks (b : Buffer) (w h : Nat) :
    (s.setDims b w h).nBlocks = s.nBlocks := by cases b <;> rfl
@[simp] theorem setDims_ent (b : Buffer) (w h : Nat) : (s.setDims b w h).ent = s.ent := by cases b <;> rfl
@[simp] theorem setDims_corrH (b : Buffer) (w h : Nat) : (s.setDims b w h).corrH = s.corrH := by cases b <;> rfl
@[simp] theorem setDims_corrV (b : Buffer) (w h : Nat) : (s.setDims b w h).corrV = s.corrV := by cases b <;> rfl
@[simp] theorem setDims_corrD (b : Buffer) (w h : Nat) : (s.setDims b w h).corrD = s.corrD := by cases b <;> rfl
@[simp] theorem setDims_diff (b : Buffer) (w h : Nat) : (s.setDims b w h).diff = s.diff := by cases b <;> rfl
@[simp] theorem setDims_mem (b : Buffer) (w h : Nat) : (s.setDims b w h).mem = s.mem := by cases b <;> rfl
@[simp] theorem setDims_script (b : Buffer) (w h : Nat) : (s.setDims b w h).script = s.script := by cases b <;> rfl
@[simp] theorem setDims_answers (b : Buffer) (w h : Nat) :
    (s.setDims b w h).answers = s.answers := by cases b <;> rfl
@[simp] theorem setDims_resets (b : Buffer) (w h : Nat) : (s.setDims b w h).resets = s.resets := by cases b <;> rfl

/-! ## `build` -/

@[simp] theorem build_cmd (p : Buffer) : (s.build p).cmd = s.cmd := by simp only [State.build, storeEntries_cmd]
@[simp] theorem build_status (p : Buffer) :
    (s.build p).status = s.status := by simp only [State.build, storeEntries_status]
@[simp] theorem build_chkLen (p : Buffer) :
    (s.build p).chkLen = s.chkLen := by simp only [State.build, storeEntries_chkLen]
@[simp] theorem build_keyLen (p : Buffer) :
    (s.build p).keyLen = s.keyLen := by simp only [State.build, storeEntries_keyLen]
@[simp] theorem build_ivLen (p : Buffer) :
    (s.build p).ivLen = s.ivLen := by simp only [State.build, storeEntries_ivLen]
@[simp] theorem build_aW (p : Buffer) : (s.build p).aW = s.aW := by simp only [State.build, storeEntries_aW]
@[simp] theorem build_aH (p : Buffer) : (s.build p).aH = s.aH := by simp only [State.build, storeEntries_aH]
@[simp] theorem build_bW (p : Buffer) : (s.build p).bW = s.bW := by simp only [State.build, storeEntries_bW]
@[simp] theorem build_bH (p : Buffer) : (s.build p).bH = s.bH := by simp only [State.build, storeEntries_bH]
@[simp] theorem build_iter (p : Buffer) : (s.build p).iter = s.iter := by simp only [State.build, storeEntries_iter]
@[simp] theorem build_ksLen (p : Buffer) :
    (s.build p).ksLen = s.ksLen := by simp only [State.build, storeEntries_ksLen]
@[simp] theorem build_origLen (p : Buffer) :
    (s.build p).origLen = s.origLen := by simp only [State.build, storeEntries_origLen]
@[simp] theorem build_key (p : Buffer) : (s.build p).key = s.key := by simp only [State.build, storeEntries_key]
@[simp] theorem build_iv (p : Buffer) : (s.build p).iv = s.iv := by simp only [State.build, storeEntries_iv]
@[simp] theorem build_xs (p : Buffer) : (s.build p).xs = s.xs := by simp only [State.build, storeEntries_xs]
@[simp] theorem build_ksWord (p : Buffer) :
    (s.build p).ksWord = s.ksWord := by simp only [State.build, storeEntries_ksWord]
@[simp] theorem build_lcgSeed (p : Buffer) : (s.build p).lcgSeed = (s.builtTable p).2 := rfl
@[simp] theorem build_nBlocks (p : Buffer) : (s.build p).nBlocks = word (s.blockCount p) := rfl
@[simp] theorem build_ent (p : Buffer) : (s.build p).ent = s.ent := by simp only [State.build, storeEntries_ent]
@[simp] theorem build_corrH (p : Buffer) :
    (s.build p).corrH = s.corrH := by simp only [State.build, storeEntries_corrH]
@[simp] theorem build_corrV (p : Buffer) :
    (s.build p).corrV = s.corrV := by simp only [State.build, storeEntries_corrV]
@[simp] theorem build_corrD (p : Buffer) :
    (s.build p).corrD = s.corrD := by simp only [State.build, storeEntries_corrD]
@[simp] theorem build_diff (p : Buffer) : (s.build p).diff = s.diff := by simp only [State.build, storeEntries_diff]
@[simp] theorem build_script (p : Buffer) :
    (s.build p).script = s.script := by simp only [State.build, storeEntries_script]
@[simp] theorem build_answers (p : Buffer) :
    (s.build p).answers = s.answers := by simp only [State.build, storeEntries_answers]
@[simp] theorem build_resets (p : Buffer) :
    (s.build p).resets = s.resets := by simp only [State.build, storeEntries_resets]

/-! ## `move` -/

@[simp] theorem move_cmd (p : Buffer) (tab : List Nat) :
    (s.move p tab).cmd = s.cmd := by simp only [State.move, setDims_cmd, store_cmd]
@[simp] theorem move_status (p : Buffer) (tab : List Nat) :
    (s.move p tab).status = s.status := by simp only [State.move, setDims_status, store_status]
@[simp] theorem move_chkLen (p : Buffer) (tab : List Nat) :
    (s.move p tab).chkLen = s.chkLen := by simp only [State.move, setDims_chkLen, store_chkLen]
@[simp] theorem move_keyLen (p : Buffer) (tab : List Nat) :
    (s.move p tab).keyLen = s.keyLen := by simp only [State.move, setDims_keyLen, store_keyLen]
@[simp] theorem move_ivLen (p : Buffer) (tab : List Nat) :
    (s.move p tab).ivLen = s.ivLen := by simp only [State.move, setDims_ivLen, store_ivLen]
@[simp] theorem move_iter (p : Buffer) (tab : List Nat) :
    (s.move p tab).iter = s.iter := by simp only [State.move, setDims_iter, store_iter]
@[simp] theorem move_ksLen (p : Buffer) (tab : List Nat) :
    (s.move p tab).ksLen = s.ksLen := by simp only [State.move, setDims_ksLen, store_ksLen]
@[simp] theorem move_origLen (p : Buffer) (tab : List Nat) :
    (s.move p tab).origLen = s.origLen := by simp only [State.move, setDims_origLen, store_origLen]
@[simp] theorem move_key (p : Buffer) (tab : List Nat) :
    (s.move p tab).key = s.key := by simp only [State.move, setDims_key, store_key]
@[simp] theorem move_iv (p : Buffer) (tab : List Nat) :
    (s.move p tab).iv = s.iv := by simp only [State.move, setDims_iv, store_iv]
@[simp] theorem move_xs (p : Buffer) (tab : List Nat) :
    (s.move p tab).xs = s.xs := by simp only [State.move, setDims_xs, store_xs]
@[simp] theorem move_ksWord (p : Buffer) (tab : List Nat) :
    (s.move p tab).ksWord = s.ksWord := by simp only [State.move, setDims_ksWord, store_ksWord]
@[simp] theorem move_lcgSeed (p : Buffer) (tab : List Nat) :
    (s.move p tab).lcgSeed = s.lcgSeed := by simp only [State.move, setDims_lcgSeed, store_lcgSeed]
@[simp] theorem move_nBlocks (p : Buffer) (tab : List Nat) :
    (s.move p tab).nBlocks = s.nBlocks := by simp only [State.move, setDims_nBlocks, store_nBlocks]
@[simp] theorem move_ent (p : Buffer) (tab : List Nat) :
    (s.move p tab).ent = s.ent := by simp only [State.move, setDims_ent, store_ent]
@[simp] theorem move_corrH (p : Buffer) (tab : List Nat) :
    (s.move p tab).corrH = s.corrH := by simp only [State.move, setDims_corrH, store_corrH]
@[simp] theorem move_corrV (p : Buffer) (tab : List Nat) :
    (s.move p tab).corrV = s.corrV := by simp only [State.move, setDims_corrV, store_corrV]
@[simp] theorem move_corrD (p : Buffer) (tab : List Nat) :
    (s.move p tab).corrD = s.corrD := by simp only [State.move, setDims_corrD, store_corrD]
@[simp] theorem move_diff (p : Buffer) (tab : List Nat) :
    (s.move p tab).diff = s.diff := by simp only [State.move, setDims_diff, store_diff]
@[simp] theorem move_script (p : Buffer) (tab : List Nat) :
    (s.move p tab).script = s.script := by simp only [State.move, setDims_script, store_script]
@[simp] theorem move_answers (p : Buffer) (tab : List Nat) :
    (s.move p tab).answers = s.answers := by simp only [State.move, setDims_answers, store_answers]
@[simp] theorem move_resets (p : Buffer) (tab : List Nat) :
    (s.move p tab).resets = s.resets := by simp only [State.move, setDims_resets, store_resets]

/-! ## `countImage` -/

@[simp] theorem countImage_cmd (img : List Pixel) :
    (s.countImage img).cmd = s.cmd := by simp only [State.countImage, storeEntries_cmd]
@[simp] theorem countImage_status (img : List Pixel) :
    (s.countImage img).status = s.status := by simp only [State.countImage, storeEntries_status]
@[simp] theorem countImage_chkLen (img : List Pixel) :
    (s.countImage img).chkLen = s.chkLen := by simp only [State.countImage, storeEntries_chkLen]
@[simp] theorem countImage_keyLen (img : List Pixel) :
    (s.countImage img).keyLen = s.keyLen := by simp only [State.countImage, storeEntries_keyLen]
@[simp] theorem countImage_ivLen (img : List Pixel) :
    (s.countImage img).ivLen = s.ivLen := by simp only [State.countImage, storeEntries_ivLen]
@[simp] theorem countImage_aW (img : List Pixel) :
    (s.countImage img).aW = s.aW := by simp only [State.countImage, storeEntries_aW]
@[simp] theorem countImage_aH (img : List Pixel) :
    (s.countImage img).aH = s.aH := by simp only [State.countImage, storeEntries_aH]
@[simp] theorem countImage_bW (img : List Pixel) :
    (s.countImage img).bW = s.bW := by simp only [State.countImage, storeEntries_bW]
@[simp] theorem countImage_bH (img : List Pixel) :
    (s.countImage img).bH = s.bH := by simp only [State.countImage, storeEntries_bH]
@[simp] theorem countImage_iter (img : List Pixel) :
    (s.countImage img).iter = s.iter := by simp only [State.countImage, storeEntries_iter]
@[simp] theorem countImage_ksLen (img : List Pixel) :
    (s.countImage img).ksLen = s.ksLen := by simp only [State.countImage, storeEntries_ksLen]
@[simp] theorem countImage_origLen (img : List Pixel) :
    (s.countImage img).origLen = s.origLen := by simp only [State.countImage, storeEntries_origLen]
@[simp] theorem countImage_key (img : List Pixel) :
    (s.countImage img).key = s.key := by simp only [State.countImage, storeEntries_key]
@[simp] theorem countImage_iv (img : List Pixel) :
    (s.countImage img).iv = s.iv := by simp only [State.countImage, storeEntries_iv]
@[simp] theorem countImage_xs (img : List Pixel) :
    (s.countImage img).xs = s.xs := by simp only [State.countImage, storeEntries_xs]
@[simp] theorem countImage_ksWord (img : List Pixel) :
    (s.countImage img).ksWord = s.ksWord := by simp only [State.countImage, storeEntries_ksWord]
@[simp] theorem countImage_lcgSeed (img : List Pixel) :
    (s.countImage img).lcgSeed = s.lcgSeed := by simp only [State.countImage, storeEntries_lcgSeed]
@[simp] theorem countImage_nBlocks (img : List Pixel) :
    (s.countImage img).nBlocks = s.nBlocks := by simp only [State.countImage, storeEntries_nBlocks]
@[simp] theorem countImage_ent (img : List Pixel) :
    (s.countImage img).ent = s.ent := by simp only [State.countImage, storeEntries_ent]
@[simp] theorem countImage_corrH (img : List Pixel) :
    (s.countImage img).corrH = s.corrH := by simp only [State.countImage, storeEntries_corrH]
@[simp] theorem countImage_corrV (img : List Pixel) :
    (s.countImage img).corrV = s.corrV := by simp only [State.countImage, storeEntries_corrV]
@[simp] theorem countImage_corrD (img : List Pixel) :
    (s.countImage img).corrD = s.corrD := by simp only [State.countImage, storeEntries_corrD]
@[simp] theorem countImage_diff (img : List Pixel) :
    (s.countImage img).diff = s.diff := by simp only [State.countImage, storeEntries_diff]
@[simp] theorem countImage_script (img : List Pixel) :
    (s.countImage img).script = s.script := by simp only [State.countImage, storeEntries_script]
@[simp] theorem countImage_answers (img : List Pixel) :
    (s.countImage img).answers = s.answers := by simp only [State.countImage, storeEntries_answers]
@[simp] theorem countImage_resets (img : List Pixel) :
    (s.countImage img).resets = s.resets := by simp only [State.countImage, storeEntries_resets]

/-! ## `measureEntropy` -/

@[simp] theorem measureEntropy_cmd (img : List Pixel) :
    (s.measureEntropy img).cmd = s.cmd := by simp only [State.measureEntropy, countImage_cmd]
@[simp] theorem measureEntropy_status (img : List Pixel) :
    (s.measureEntropy img).status = s.status := by simp only [State.measureEntropy, countImage_status]
@[simp] theorem measureEntropy_chkLen (img : List Pixel) :
    (s.measureEntropy img).chkLen = s.chkLen := by simp only [State.measureEntropy, countImage_chkLen]
@[simp] theorem measureEntropy_keyLen (img : List Pixel) :
    (s.measureEntropy img).keyLen = s.keyLen := by simp only [State.measureEntropy, countImage_keyLen]
@[simp] theorem measureEntropy_ivLen (img : List Pixel) :
    (s.measureEntropy img).ivLen = s.ivLen := by simp only [State.measureEntropy, countImage_ivLen]
@[simp] theorem measureEntropy_aW (img : List Pixel) :
    (s.measureEntropy img).aW = s.aW := by simp only [State.measureEntropy, countImage_aW]
@[simp] theorem measureEntropy_aH (img : List Pixel) :
    (s.measureEntropy img).aH = s.aH := by simp only [State.measureEntropy, countImage_aH]
@[simp] theorem measureEntropy_bW (img : List Pixel) :
    (s.measureEntropy img).bW = s.bW := by simp only [State.measureEntropy, countImage_bW]
@[simp] theorem measureEntropy_bH (img : List Pixel) :
    (s.measureEntropy img).bH = s.bH := by simp only [State.measureEntropy, countImage_bH]
@[simp] theorem measureEntropy_iter (img : List Pixel) :
    (s.measureEntropy img).iter = s.iter := by simp only [State.measureEntropy, countImage_iter]
@[simp] theorem measureEntropy_ksLen (img : List Pixel) :
    (s.measureEntropy img).ksLen = s.ksLen := by simp only [State.measureEntropy, countImage_ksLen]
@[simp] theorem measureEntropy_origLen (img : List Pixel) :
    (s.measureEntropy img).origLen = s.origLen := by simp only [State.measureEntropy, countImage_origLen]
@[simp] theorem measureEntropy_key (img : List Pixel) :
    (s.measureEntropy img).key = s.key := by simp only [State.measureEntropy, countImage_key]
@[simp] theorem measureEntropy_iv (img : List Pixel) :
    (s.measureEntropy img).iv = s.iv := by simp only [State.measureEntropy, countImage_iv]
@[simp] theorem measureEntropy_xs (img : List Pixel) :
    (s.measureEntropy img).xs = s.xs := by simp only [State.measureEntropy, countImage_xs]
@[simp] theorem measureEntropy_ksWord (img : List Pixel) :
    (s.measureEntropy img).ksWord = s.ksWord := by simp only [State.measureEntropy, countImage_ksWord]
@[simp] theorem measureEntropy_lcgSeed (img : List Pixel) :
    (s.measureEntropy img).lcgSeed = s.lcgSeed := by simp only [State.measureEntropy, countImage_lcgSeed]
@[simp] theorem measureEntropy_nBlocks (img : List Pixel) :
    (s.measureEntropy img).nBlocks = s.nBlocks := by simp only [State.measureEntropy, countImage_nBlocks]
@[simp] theorem measureEntropy_ent (img : List Pixel) :
    (s.measureEntropy img).ent = ⟨word (entQ (combinedCounts img) (3 * img.length)), word (3 * img.length)⟩ := rfl
@[simp] theorem measureEntropy_corrH (img : List Pixel) :
    (s.measureEntropy img).corrH = s.corrH := by simp only [State.measureEntropy, countImage_corrH]
@[simp] theorem measureEntropy_corrV (img : List Pixel) :
    (s.measureEntropy img).corrV = s.corrV := by simp only [State.measureEntropy, countImage_corrV]
@[simp] theorem measureEntropy_corrD (img : List Pixel) :
    (s.measureEntropy img).corrD = s.corrD := by simp only [State.measureEntropy, countImage_corrD]
@[simp] theorem measureEntropy_diff (img : List Pixel) :
    (s.measureEntropy img).diff = s.diff := by simp only [State.measureEntropy, countImage_diff]
@[simp] theorem measureEntropy_mem (img : List Pixel) : (s.measureEntropy img).mem = (s.countImage img).mem := rfl
@[simp] theorem measureEntropy_script (img : List Pixel) :
    (s.measureEntropy img).script = s.script := by simp only [State.measureEntropy, countImage_script]
@[simp] theorem measureEntropy_answers (img : List Pixel) :
    (s.measureEntropy img).answers = s.answers := by simp only [State.measureEntropy, countImage_answers]
@[simp] theorem measureEntropy_resets (img : List Pixel) :
    (s.measureEntropy img).resets = s.resets := by simp only [State.measureEntropy, countImage_resets]

/-! ## `correlate` -/

@[simp] theorem correlate_cmd (img : List Pixel) (w h : Nat) : (s.correlate img w h).cmd = s.cmd := rfl
@[simp] theorem correlate_status (img : List Pixel) (w h : Nat) :
    (s.correlate img w h).status = s.status.withEmpty (someDirectionEmpty w h) := rfl
@[simp] theorem correlate_chkLen (img : List Pixel) (w h : Nat) : (s.correlate img w h).chkLen = s.chkLen := rfl
@[simp] theorem correlate_keyLen (img : List Pixel) (w h : Nat) : (s.correlate img w h).keyLen = s.keyLen := rfl
@[simp] theorem correlate_ivLen (img : List Pixel) (w h : Nat) : (s.correlate img w h).ivLen = s.ivLen := rfl
@[simp] theorem correlate_aW (img : List Pixel) (w h : Nat) : (s.correlate img w h).aW = s.aW := rfl
@[simp] theorem correlate_aH (img : List Pixel) (w h : Nat) : (s.correlate img w h).aH = s.aH := rfl
@[simp] theorem correlate_bW (img : List Pixel) (w h : Nat) : (s.correlate img w h).bW = s.bW := rfl
@[simp] theorem correlate_bH (img : List Pixel) (w h : Nat) : (s.correlate img w h).bH = s.bH := rfl
@[simp] theorem correlate_iter (img : List Pixel) (w h : Nat) : (s.correlate img w h).iter = s.iter := rfl
@[simp] theorem correlate_ksLen (img : List Pixel) (w h : Nat) : (s.correlate img w h).ksLen = s.ksLen := rfl
@[simp] theorem correlate_origLen (img : List Pixel) (w h : Nat) : (s.correlate img w h).origLen = s.origLen := rfl
@[simp] theorem correlate_key (img : List Pixel) (w h : Nat) : (s.correlate img w h).key = s.key := rfl
@[simp] theorem correlate_iv (img : List Pixel) (w h : Nat) : (s.correlate img w h).iv = s.iv := rfl
@[simp] theorem correlate_xs (img : List Pixel) (w h : Nat) : (s.correlate img w h).xs = s.xs := rfl
@[simp] theorem correlate_ksWord (img : List Pixel) (w h : Nat) : (s.correlate img w h).ksWord = s.ksWord := rfl
@[simp] theorem correlate_lcgSeed (img : List Pixel) (w h : Nat) : (s.correlate img w h).lcgSeed = s.lcgSeed := rfl
@[simp] theorem correlate_nBlocks (img : List Pixel) (w h : Nat) : (s.correlate img w h).nBlocks = s.nBlocks := rfl
@[simp] theorem correlate_ent (img : List Pixel) (w h : Nat) : (s.correlate img w h).ent = s.ent := rfl
@[simp] theorem correlate_corrH (img : List Pixel) (w h : Nat) :
    (s.correlate img w h).corrH = corrRegs (corrHAcc img w h) ((w - 1) * h) := rfl
@[simp] theorem correlate_corrV (img : List Pixel) (w h : Nat) :
    (s.correlate img w h).corrV = corrRegs (corrVAcc img w h) (w * (h - 1)) := rfl
@[simp] theorem correlate_corrD (img : List Pixel) (w h : Nat) :
    (s.correlate img w h).corrD = corrRegs (corrDAcc img w h) ((w - 1) * (h - 1)) := rfl
@[simp] theorem correlate_diff (img : List Pixel) (w h : Nat) : (s.correlate img w h).diff = s.diff := rfl
@[simp] theorem correlate_mem (img : List Pixel) (w h : Nat) : (s.correlate img w h).mem = s.mem := rfl
@[simp] theorem correlate_script (img : List Pixel) (w h : Nat) : (s.correlate img w h).script = s.script := rfl
@[simp] theorem correlate_answers (img : List Pixel) (w h : Nat) : (s.correlate img w h).answers = s.answers := rfl
@[simp] theorem correlate_resets (img : List Pixel) (w h : Nat) : (s.correlate img w h).resets = s.resets := rfl

/-! ## `compareImages` -/

@[simp] theorem compareImages_cmd (a b : List Pixel) (n : Nat) : (s.compareImages a b n).cmd = s.cmd := rfl
@[simp] theorem compareImages_status (a b : List Pixel) (n : Nat) : (s.compareImages a b n).status = s.status := rfl
@[simp] theorem compareImages_chkLen (a b : List Pixel) (n : Nat) : (s.compareImages a b n).chkLen = s.chkLen := rfl
@[simp] theorem compareImages_keyLen (a b : List Pixel) (n : Nat) : (s.compareImages a b n).keyLen = s.keyLen := rfl
@[simp] theorem compareImages_ivLen (a b : List Pixel) (n : Nat) : (s.compareImages a b n).ivLen = s.ivLen := rfl
@[simp] theorem compareImages_aW (a b : List Pixel) (n : Nat) : (s.compareImages a b n).aW = s.aW := rfl
@[simp] theorem compareImages_aH (a b : List Pixel) (n : Nat) : (s.compareImages a b n).aH = s.aH := rfl
@[simp] theorem compareImages_bW (a b : List Pixel) (n : Nat) : (s.compareImages a b n).bW = s.bW := rfl
@[simp] theorem compareImages_bH (a b : List Pixel) (n : Nat) : (s.compareImages a b n).bH = s.bH := rfl
@[simp] theorem compareImages_iter (a b : List Pixel) (n : Nat) : (s.compareImages a b n).iter = s.iter := rfl
@[simp] theorem compareImages_ksLen (a b : List Pixel) (n : Nat) : (s.compareImages a b n).ksLen = s.ksLen := rfl
@[simp] theorem compareImages_origLen (a b : List Pixel) (n : Nat) :
    (s.compareImages a b n).origLen = s.origLen := rfl
@[simp] theorem compareImages_key (a b : List Pixel) (n : Nat) : (s.compareImages a b n).key = s.key := rfl
@[simp] theorem compareImages_iv (a b : List Pixel) (n : Nat) : (s.compareImages a b n).iv = s.iv := rfl
@[simp] theorem compareImages_xs (a b : List Pixel) (n : Nat) : (s.compareImages a b n).xs = s.xs := rfl
@[simp] theorem compareImages_ksWord (a b : List Pixel) (n : Nat) : (s.compareImages a b n).ksWord = s.ksWord := rfl
@[simp] theorem compareImages_lcgSeed (a b : List Pixel) (n : Nat) :
    (s.compareImages a b n).lcgSeed = s.lcgSeed := rfl
@[simp] theorem compareImages_nBlocks (a b : List Pixel) (n : Nat) :
    (s.compareImages a b n).nBlocks = s.nBlocks := rfl
@[simp] theorem compareImages_ent (a b : List Pixel) (n : Nat) : (s.compareImages a b n).ent = s.ent := rfl
@[simp] theorem compareImages_corrH (a b : List Pixel) (n : Nat) : (s.compareImages a b n).corrH = s.corrH := rfl
@[simp] theorem compareImages_corrV (a b : List Pixel) (n : Nat) : (s.compareImages a b n).corrV = s.corrV := rfl
@[simp] theorem compareImages_corrD (a b : List Pixel) (n : Nat) : (s.compareImages a b n).corrD = s.corrD := rfl
@[simp] theorem compareImages_diff (a b : List Pixel) (n : Nat) :
    (s.compareImages a b n).diff = ⟨word (diffCount a b), word n, word (percentQ (diffCount a b) n), word (sumAbsDiff a b), word (percentQ (sumAbsDiff a b) (765 * n))⟩ := rfl
@[simp] theorem compareImages_mem (a b : List Pixel) (n : Nat) : (s.compareImages a b n).mem = s.mem := rfl
@[simp] theorem compareImages_script (a b : List Pixel) (n : Nat) : (s.compareImages a b n).script = s.script := rfl
@[simp] theorem compareImages_answers (a b : List Pixel) (n : Nat) :
    (s.compareImages a b n).answers = s.answers := rfl
@[simp] theorem compareImages_resets (a b : List Pixel) (n : Nat) : (s.compareImages a b n).resets = s.resets := rfl

/-! ## `answered` -/

@[simp] theorem answered_cmd (ans : Answer) : (s.answered ans).cmd = s.cmd := rfl
@[simp] theorem answered_status (ans : Answer) : (s.answered ans).status = s.status := rfl
@[simp] theorem answered_chkLen (ans : Answer) : (s.answered ans).chkLen = s.chkLen := rfl
@[simp] theorem answered_keyLen (ans : Answer) : (s.answered ans).keyLen = s.keyLen := rfl
@[simp] theorem answered_ivLen (ans : Answer) : (s.answered ans).ivLen = s.ivLen := rfl
@[simp] theorem answered_aW (ans : Answer) : (s.answered ans).aW = s.aW := rfl
@[simp] theorem answered_aH (ans : Answer) : (s.answered ans).aH = s.aH := rfl
@[simp] theorem answered_bW (ans : Answer) : (s.answered ans).bW = s.bW := rfl
@[simp] theorem answered_bH (ans : Answer) : (s.answered ans).bH = s.bH := rfl
@[simp] theorem answered_iter (ans : Answer) : (s.answered ans).iter = s.iter := rfl
@[simp] theorem answered_ksLen (ans : Answer) : (s.answered ans).ksLen = s.ksLen := rfl
@[simp] theorem answered_origLen (ans : Answer) : (s.answered ans).origLen = s.origLen := rfl
@[simp] theorem answered_key (ans : Answer) : (s.answered ans).key = s.key := rfl
@[simp] theorem answered_iv (ans : Answer) : (s.answered ans).iv = s.iv := rfl
@[simp] theorem answered_xs (ans : Answer) : (s.answered ans).xs = s.xs := rfl
@[simp] theorem answered_ksWord (ans : Answer) : (s.answered ans).ksWord = s.ksWord := rfl
@[simp] theorem answered_lcgSeed (ans : Answer) : (s.answered ans).lcgSeed = s.lcgSeed := rfl
@[simp] theorem answered_nBlocks (ans : Answer) : (s.answered ans).nBlocks = s.nBlocks := rfl
@[simp] theorem answered_ent (ans : Answer) : (s.answered ans).ent = s.ent := rfl
@[simp] theorem answered_corrH (ans : Answer) : (s.answered ans).corrH = s.corrH := rfl
@[simp] theorem answered_corrV (ans : Answer) : (s.answered ans).corrV = s.corrV := rfl
@[simp] theorem answered_corrD (ans : Answer) : (s.answered ans).corrD = s.corrD := rfl
@[simp] theorem answered_diff (ans : Answer) : (s.answered ans).diff = s.diff := rfl
@[simp] theorem answered_mem (ans : Answer) : (s.answered ans).mem = s.mem := rfl
@[simp] theorem answered_script (ans : Answer) : (s.answered ans).script = s.script := rfl
@[simp] theorem answered_answers (ans : Answer) : (s.answered ans).answers = ans :: s.answers := rfl
@[simp] theorem answered_resets (ans : Answer) : (s.answered ans).resets = s.resets := rfl

/-! ## The dimension registers after `setDims` and `move` -/

@[simp] theorem setDims_bufA_aW (w h : Nat) : (s.setDims .bufA w h).aW = BitVec.ofNat 16 w := rfl
@[simp] theorem setDims_bufA_aH (w h : Nat) : (s.setDims .bufA w h).aH = BitVec.ofNat 16 h := rfl
@[simp] theorem setDims_bufA_bW (w h : Nat) : (s.setDims .bufA w h).bW = s.bW := rfl
@[simp] theorem setDims_bufA_bH (w h : Nat) : (s.setDims .bufA w h).bH = s.bH := rfl
@[simp] theorem setDims_bufB_bW (w h : Nat) : (s.setDims .bufB w h).bW = BitVec.ofNat 16 w := rfl
@[simp] theorem setDims_bufB_bH (w h : Nat) : (s.setDims .bufB w h).bH = BitVec.ofNat 16 h := rfl
@[simp] theorem setDims_bufB_aW (w h : Nat) : (s.setDims .bufB w h).aW = s.aW := rfl
@[simp] theorem setDims_bufB_aH (w h : Nat) : (s.setDims .bufB w h).aH = s.aH := rfl
@[simp] theorem move_bufA_bW (tab : List Nat) : (s.move .bufA tab).bW = BitVec.ofNat 16 (s.width .bufA) := rfl
@[simp] theorem move_bufA_bH (tab : List Nat) : (s.move .bufA tab).bH = BitVec.ofNat 16 (s.height .bufA) := rfl
@[simp] theorem move_bufA_aW (tab : List Nat) : (s.move .bufA tab).aW = s.aW := rfl
@[simp] theorem move_bufA_aH (tab : List Nat) : (s.move .bufA tab).aH = s.aH := rfl
@[simp] theorem move_bufB_aW (tab : List Nat) : (s.move .bufB tab).aW = BitVec.ofNat 16 (s.width .bufB) := rfl
@[simp] theorem move_bufB_aH (tab : List Nat) : (s.move .bufB tab).aH = BitVec.ofNat 16 (s.height .bufB) := rfl
@[simp] theorem move_bufB_bW (tab : List Nat) : (s.move .bufB tab).bW = s.bW := rfl
@[simp] theorem move_bufB_bH (tab : List Nat) : (s.move .bufB tab).bH = s.bH := rfl

/-! ## The reset event -/

@[simp] theorem resetEvent_cmd : s.resetEvent.cmd = State.reset.cmd := rfl
@[simp] theorem resetEvent_status : s.resetEvent.status = State.reset.status := rfl
@[simp] theorem resetEvent_chkLen : s.resetEvent.chkLen = State.reset.chkLen := rfl
@[simp] theorem resetEvent_keyLen : s.resetEvent.keyLen = State.reset.keyLen := rfl
@[simp] theorem resetEvent_ivLen : s.resetEvent.ivLen = State.reset.ivLen := rfl
@[simp] theorem resetEvent_aW : s.resetEvent.aW = State.reset.aW := rfl
@[simp] theorem resetEvent_aH : s.resetEvent.aH = State.reset.aH := rfl
@[simp] theorem resetEvent_bW : s.resetEvent.bW = State.reset.bW := rfl
@[simp] theorem resetEvent_bH : s.resetEvent.bH = State.reset.bH := rfl
@[simp] theorem resetEvent_iter : s.resetEvent.iter = State.reset.iter := rfl
@[simp] theorem resetEvent_ksLen : s.resetEvent.ksLen = State.reset.ksLen := rfl
@[simp] theorem resetEvent_origLen : s.resetEvent.origLen = State.reset.origLen := rfl
@[simp] theorem resetEvent_key : s.resetEvent.key = State.reset.key := rfl
@[simp] theorem resetEvent_iv : s.resetEvent.iv = State.reset.iv := rfl
@[simp] theorem resetEvent_xs : s.resetEvent.xs = State.reset.xs := rfl
@[simp] theorem resetEvent_ksWord : s.resetEvent.ksWord = State.reset.ksWord := rfl
@[simp] theorem resetEvent_lcgSeed : s.resetEvent.lcgSeed = State.reset.lcgSeed := rfl
@[simp] theorem resetEvent_nBlocks : s.resetEvent.nBlocks = State.reset.nBlocks := rfl
@[simp] theorem resetEvent_ent : s.resetEvent.ent = State.reset.ent := rfl
@[simp] theorem resetEvent_corrH : s.resetEvent.corrH = State.reset.corrH := rfl
@[simp] theorem resetEvent_corrV : s.resetEvent.corrV = State.reset.corrV := rfl
@[simp] theorem resetEvent_corrD : s.resetEvent.corrD = State.reset.corrD := rfl
@[simp] theorem resetEvent_diff : s.resetEvent.diff = State.reset.diff := rfl
@[simp] theorem resetEvent_mem : s.resetEvent.mem = State.reset.mem := rfl
@[simp] theorem resetEvent_script : s.resetEvent.script = s.script := rfl
@[simp] theorem resetEvent_answers : s.resetEvent.answers = s.answers := rfl
@[simp] theorem resetEvent_resets : s.resetEvent.resets = s.resets + 1 := rfl

/-! ## Reads of memory after updates that do not write it -/

@[simp] theorem raise_byteAt (e : CommandError) (x : Nat) : (s.raise e).byteAt x = s.byteAt x := by
  simp only [State.byteAt, raise_mem, raise_resets]
@[simp] theorem raise_wordAt (e : CommandError) (x : Nat) : (s.raise e).wordAt x = s.wordAt x := by
  simp only [State.wordAt, raise_byteAt]
@[simp] theorem raise_bytesAt (e : CommandError) (x k : Nat) : (s.raise e).bytesAt x k = s.bytesAt x k := by
  simp only [State.bytesAt, raise_byteAt]
@[simp] theorem raise_pixelAt (e : CommandError) (q : Buffer) (k : Nat) : (s.raise e).pixelAt q k = s.pixelAt q k := by
  simp only [State.pixelAt, raise_byteAt]
@[simp] theorem complete_byteAt (x : Nat) : s.complete.byteAt x = s.byteAt x := by
  simp only [State.byteAt, complete_mem, complete_resets]
@[simp] theorem complete_wordAt (x : Nat) : s.complete.wordAt x = s.wordAt x := by
  simp only [State.wordAt, complete_byteAt]
@[simp] theorem complete_bytesAt (x k : Nat) : s.complete.bytesAt x k = s.bytesAt x k := by
  simp only [State.bytesAt, complete_byteAt]
@[simp] theorem complete_pixelAt (q : Buffer) (k : Nat) : s.complete.pixelAt q k = s.pixelAt q k := by
  simp only [State.pixelAt, complete_byteAt]
@[simp] theorem runKeystream_byteAt (n : Nat) (x : Nat) : (s.runKeystream n).byteAt x = s.byteAt x := by
  simp only [State.byteAt, runKeystream_mem, runKeystream_resets]
@[simp] theorem runKeystream_wordAt (n : Nat) (x : Nat) : (s.runKeystream n).wordAt x = s.wordAt x := by
  simp only [State.wordAt, runKeystream_byteAt]
@[simp] theorem runKeystream_bytesAt (n : Nat) (x k : Nat) : (s.runKeystream n).bytesAt x k = s.bytesAt x k := by
  simp only [State.bytesAt, runKeystream_byteAt]
@[simp] theorem runKeystream_pixelAt (n : Nat) (q : Buffer) (k : Nat) : (s.runKeystream n).pixelAt q k = s.pixelAt q k := by
  simp only [State.pixelAt, runKeystream_byteAt]
@[simp] theorem setDims_byteAt (b : Buffer) (w h : Nat) (x : Nat) : (s.setDims b w h).byteAt x = s.byteAt x := by
  simp only [State.byteAt, setDims_mem, setDims_resets]
@[simp] theorem setDims_wordAt (b : Buffer) (w h : Nat) (x : Nat) : (s.setDims b w h).wordAt x = s.wordAt x := by
  simp only [State.wordAt, setDims_byteAt]
@[simp] theorem setDims_bytesAt (b : Buffer) (w h : Nat) (x k : Nat) : (s.setDims b w h).bytesAt x k = s.bytesAt x k := by
  simp only [State.bytesAt, setDims_byteAt]
@[simp] theorem setDims_pixelAt (b : Buffer) (w h : Nat) (q : Buffer) (k : Nat) : (s.setDims b w h).pixelAt q k = s.pixelAt q k := by
  simp only [State.pixelAt, setDims_byteAt]
@[simp] theorem correlate_byteAt (img : List Pixel) (w h : Nat) (x : Nat) : (s.correlate img w h).byteAt x = s.byteAt x := by
  simp only [State.byteAt, correlate_mem, correlate_resets]
@[simp] theorem correlate_wordAt (img : List Pixel) (w h : Nat) (x : Nat) : (s.correlate img w h).wordAt x = s.wordAt x := by
  simp only [State.wordAt, correlate_byteAt]
@[simp] theorem correlate_bytesAt (img : List Pixel) (w h : Nat) (x k : Nat) : (s.correlate img w h).bytesAt x k = s.bytesAt x k := by
  simp only [State.bytesAt, correlate_byteAt]
@[simp] theorem correlate_pixelAt (img : List Pixel) (w h : Nat) (q : Buffer) (k : Nat) : (s.correlate img w h).pixelAt q k = s.pixelAt q k := by
  simp only [State.pixelAt, correlate_byteAt]
@[simp] theorem compareImages_byteAt (a b : List Pixel) (n : Nat) (x : Nat) : (s.compareImages a b n).byteAt x = s.byteAt x := by
  simp only [State.byteAt, compareImages_mem, compareImages_resets]
@[simp] theorem compareImages_wordAt (a b : List Pixel) (n : Nat) (x : Nat) : (s.compareImages a b n).wordAt x = s.wordAt x := by
  simp only [State.wordAt, compareImages_byteAt]
@[simp] theorem compareImages_bytesAt (a b : List Pixel) (n : Nat) (x k : Nat) : (s.compareImages a b n).bytesAt x k = s.bytesAt x k := by
  simp only [State.bytesAt, compareImages_byteAt]
@[simp] theorem compareImages_pixelAt (a b : List Pixel) (n : Nat) (q : Buffer) (k : Nat) : (s.compareImages a b n).pixelAt q k = s.pixelAt q k := by
  simp only [State.pixelAt, compareImages_byteAt]
@[simp] theorem answered_byteAt (ans : Answer) (x : Nat) : (s.answered ans).byteAt x = s.byteAt x := by
  simp only [State.byteAt, answered_mem, answered_resets]
@[simp] theorem answered_wordAt (ans : Answer) (x : Nat) : (s.answered ans).wordAt x = s.wordAt x := by
  simp only [State.wordAt, answered_byteAt]
@[simp] theorem answered_bytesAt (ans : Answer) (x k : Nat) : (s.answered ans).bytesAt x k = s.bytesAt x k := by
  simp only [State.bytesAt, answered_byteAt]
@[simp] theorem answered_pixelAt (ans : Answer) (q : Buffer) (k : Nat) : (s.answered ans).pixelAt q k = s.pixelAt q k := by
  simp only [State.pixelAt, answered_byteAt]

/-! ## Operands after updates that do not write the registers they read -/

@[simp] theorem store_keyBytes (base : Nat) (bs : List Byte) : (s.store base bs).keyBytes = s.keyBytes := by
  simp only [State.keyBytes, store_key, store_keyLen]
@[simp] theorem store_ivBytes (base : Nat) (bs : List Byte) : (s.store base bs).ivBytes = s.ivBytes := by
  simp only [State.ivBytes, store_iv, store_ivLen]
@[simp] theorem store_keyTooLong (base : Nat) (bs : List Byte) : (s.store base bs).keyTooLong = s.keyTooLong := by
  rw [State.keyTooLong, State.keyTooLong, store_keyLen]
@[simp] theorem store_ivTooLong (base : Nat) (bs : List Byte) : (s.store base bs).ivTooLong = s.ivTooLong := by
  rw [State.ivTooLong, State.ivTooLong, store_ivLen]
@[simp] theorem store_keyMissing (base : Nat) (bs : List Byte) : (s.store base bs).keyMissing = s.keyMissing := by
  simp only [State.keyMissing, store_keyLen]
@[simp] theorem store_width (base : Nat) (bs : List Byte) (q : Buffer) : (s.store base bs).width q = s.width q := by
  cases q <;> simp only [State.width, store_aW, store_bW]
@[simp] theorem store_height (base : Nat) (bs : List Byte) (q : Buffer) : (s.store base bs).height q = s.height q := by
  cases q <;> simp only [State.height, store_aH, store_bH]
@[simp] theorem store_pixelCount (base : Nat) (bs : List Byte) (q : Buffer) : (s.store base bs).pixelCount q = s.pixelCount q := by
  simp only [State.pixelCount, store_width, store_height]
@[simp] theorem store_imageLen (base : Nat) (bs : List Byte) (q : Buffer) : (s.store base bs).imageLen q = s.imageLen q := by
  simp only [State.imageLen, store_pixelCount]
@[simp] theorem store_badDims (base : Nat) (bs : List Byte) (q : Buffer) : (s.store base bs).badDims q = s.badDims q := by
  simp only [State.badDims, store_width, store_height, store_imageLen]
@[simp] theorem store_tooSmall (base : Nat) (bs : List Byte) (q : Buffer) : (s.store base bs).tooSmall q = s.tooSmall q := by
  simp only [State.tooSmall, store_width, store_height]
@[simp] theorem store_lengthDiffers (base : Nat) (bs : List Byte) (q : Buffer) : (s.store base bs).lengthDiffers q = s.lengthDiffers q := by
  simp only [State.lengthDiffers, store_chkLen, store_imageLen, store_origLen]
@[simp] theorem store_blocksX (base : Nat) (bs : List Byte) (q : Buffer) : (s.store base bs).blocksX q = s.blocksX q := by
  simp only [State.blocksX, store_width]
@[simp] theorem store_blockCount (base : Nat) (bs : List Byte) (q : Buffer) : (s.store base bs).blockCount q = s.blockCount q := by
  simp only [State.blockCount, store_blocksX, store_height]
@[simp] theorem store_builtTable (base : Nat) (bs : List Byte) (q : Buffer) : (s.store base bs).builtTable q = s.builtTable q := by
  simp only [State.builtTable, store_keyBytes, store_blockCount, store_iter]
@[simp] theorem storeEntries_keyBytes (base : Nat) (es : List Nat) : (s.storeEntries base es).keyBytes = s.keyBytes := by
  simp only [State.keyBytes, storeEntries_key, storeEntries_keyLen]
@[simp] theorem storeEntries_ivBytes (base : Nat) (es : List Nat) : (s.storeEntries base es).ivBytes = s.ivBytes := by
  simp only [State.ivBytes, storeEntries_iv, storeEntries_ivLen]
@[simp] theorem storeEntries_keyTooLong (base : Nat) (es : List Nat) : (s.storeEntries base es).keyTooLong = s.keyTooLong := by
  rw [State.keyTooLong, State.keyTooLong, storeEntries_keyLen]
@[simp] theorem storeEntries_ivTooLong (base : Nat) (es : List Nat) : (s.storeEntries base es).ivTooLong = s.ivTooLong := by
  rw [State.ivTooLong, State.ivTooLong, storeEntries_ivLen]
@[simp] theorem storeEntries_keyMissing (base : Nat) (es : List Nat) : (s.storeEntries base es).keyMissing = s.keyMissing := by
  simp only [State.keyMissing, storeEntries_keyLen]
@[simp] theorem storeEntries_width (base : Nat) (es : List Nat) (q : Buffer) : (s.storeEntries base es).width q = s.width q := by
  cases q <;> simp only [State.width, storeEntries_aW, storeEntries_bW]
@[simp] theorem storeEntries_height (base : Nat) (es : List Nat) (q : Buffer) : (s.storeEntries base es).height q = s.height q := by
  cases q <;> simp only [State.height, storeEntries_aH, storeEntries_bH]
@[simp] theorem storeEntries_pixelCount (base : Nat) (es : List Nat) (q : Buffer) : (s.storeEntries base es).pixelCount q = s.pixelCount q := by
  simp only [State.pixelCount, storeEntries_width, storeEntries_height]
@[simp] theorem storeEntries_imageLen (base : Nat) (es : List Nat) (q : Buffer) : (s.storeEntries base es).imageLen q = s.imageLen q := by
  simp only [State.imageLen, storeEntries_pixelCount]
@[simp] theorem storeEntries_badDims (base : Nat) (es : List Nat) (q : Buffer) : (s.storeEntries base es).badDims q = s.badDims q := by
  simp only [State.badDims, storeEntries_width, storeEntries_height, storeEntries_imageLen]
@[simp] theorem storeEntries_tooSmall (base : Nat) (es : List Nat) (q : Buffer) : (s.storeEntries base es).tooSmall q = s.tooSmall q := by
  simp only [State.tooSmall, storeEntries_width, storeEntries_height]
@[simp] theorem storeEntries_lengthDiffers (base : Nat) (es : List Nat) (q : Buffer) : (s.storeEntries base es).lengthDiffers q = s.lengthDiffers q := by
  simp only [State.lengthDiffers, storeEntries_chkLen, storeEntries_imageLen, storeEntries_origLen]
@[simp] theorem storeEntries_blocksX (base : Nat) (es : List Nat) (q : Buffer) : (s.storeEntries base es).blocksX q = s.blocksX q := by
  simp only [State.blocksX, storeEntries_width]
@[simp] theorem storeEntries_blockCount (base : Nat) (es : List Nat) (q : Buffer) : (s.storeEntries base es).blockCount q = s.blockCount q := by
  simp only [State.blockCount, storeEntries_blocksX, storeEntries_height]
@[simp] theorem storeEntries_builtTable (base : Nat) (es : List Nat) (q : Buffer) : (s.storeEntries base es).builtTable q = s.builtTable q := by
  simp only [State.builtTable, storeEntries_keyBytes, storeEntries_blockCount, storeEntries_iter]
@[simp] theorem raise_keyBytes (e : CommandError) : (s.raise e).keyBytes = s.keyBytes := by
  simp only [State.keyBytes, raise_key, raise_keyLen]
@[simp] theorem raise_ivBytes (e : CommandError) : (s.raise e).ivBytes = s.ivBytes := by
  simp only [State.ivBytes, raise_iv, raise_ivLen]
@[simp] theorem raise_keyTooLong (e : CommandError) : (s.raise e).keyTooLong = s.keyTooLong := by
  rw [State.keyTooLong, State.keyTooLong, raise_keyLen]
@[simp] theorem raise_ivTooLong (e : CommandError) : (s.raise e).ivTooLong = s.ivTooLong := by
  rw [State.ivTooLong, State.ivTooLong, raise_ivLen]
@[simp] theorem raise_keyMissing (e : CommandError) : (s.raise e).keyMissing = s.keyMissing := by
  simp only [State.keyMissing, raise_keyLen]
@[simp] theorem raise_width (e : CommandError) (q : Buffer) : (s.raise e).width q = s.width q := by
  cases q <;> simp only [State.width, raise_aW, raise_bW]
@[simp] theorem raise_height (e : CommandError) (q : Buffer) : (s.raise e).height q = s.height q := by
  cases q <;> simp only [State.height, raise_aH, raise_bH]
@[simp] theorem raise_pixelCount (e : CommandError) (q : Buffer) : (s.raise e).pixelCount q = s.pixelCount q := by
  simp only [State.pixelCount, raise_width, raise_height]
@[simp] theorem raise_imageLen (e : CommandError) (q : Buffer) : (s.raise e).imageLen q = s.imageLen q := by
  simp only [State.imageLen, raise_pixelCount]
@[simp] theorem raise_badDims (e : CommandError) (q : Buffer) : (s.raise e).badDims q = s.badDims q := by
  simp only [State.badDims, raise_width, raise_height, raise_imageLen]
@[simp] theorem raise_tooSmall (e : CommandError) (q : Buffer) : (s.raise e).tooSmall q = s.tooSmall q := by
  simp only [State.tooSmall, raise_width, raise_height]
@[simp] theorem raise_lengthDiffers (e : CommandError) (q : Buffer) : (s.raise e).lengthDiffers q = s.lengthDiffers q := by
  simp only [State.lengthDiffers, raise_chkLen, raise_imageLen, raise_origLen]
@[simp] theorem raise_blocksX (e : CommandError) (q : Buffer) : (s.raise e).blocksX q = s.blocksX q := by
  simp only [State.blocksX, raise_width]
@[simp] theorem raise_blockCount (e : CommandError) (q : Buffer) : (s.raise e).blockCount q = s.blockCount q := by
  simp only [State.blockCount, raise_blocksX, raise_height]
@[simp] theorem raise_builtTable (e : CommandError) (q : Buffer) : (s.raise e).builtTable q = s.builtTable q := by
  simp only [State.builtTable, raise_keyBytes, raise_blockCount, raise_iter]
@[simp] theorem complete_keyBytes : s.complete.keyBytes = s.keyBytes := by
  simp only [State.keyBytes, complete_key, complete_keyLen]
@[simp] theorem complete_ivBytes : s.complete.ivBytes = s.ivBytes := by
  simp only [State.ivBytes, complete_iv, complete_ivLen]
@[simp] theorem complete_keyTooLong : s.complete.keyTooLong = s.keyTooLong := by
  rw [State.keyTooLong, State.keyTooLong, complete_keyLen]
@[simp] theorem complete_ivTooLong : s.complete.ivTooLong = s.ivTooLong := by
  rw [State.ivTooLong, State.ivTooLong, complete_ivLen]
@[simp] theorem complete_keyMissing : s.complete.keyMissing = s.keyMissing := by
  simp only [State.keyMissing, complete_keyLen]
@[simp] theorem complete_width (q : Buffer) : s.complete.width q = s.width q := by
  cases q <;> simp only [State.width, complete_aW, complete_bW]
@[simp] theorem complete_height (q : Buffer) : s.complete.height q = s.height q := by
  cases q <;> simp only [State.height, complete_aH, complete_bH]
@[simp] theorem complete_pixelCount (q : Buffer) : s.complete.pixelCount q = s.pixelCount q := by
  simp only [State.pixelCount, complete_width, complete_height]
@[simp] theorem complete_imageLen (q : Buffer) : s.complete.imageLen q = s.imageLen q := by
  simp only [State.imageLen, complete_pixelCount]
@[simp] theorem complete_badDims (q : Buffer) : s.complete.badDims q = s.badDims q := by
  simp only [State.badDims, complete_width, complete_height, complete_imageLen]
@[simp] theorem complete_tooSmall (q : Buffer) : s.complete.tooSmall q = s.tooSmall q := by
  simp only [State.tooSmall, complete_width, complete_height]
@[simp] theorem complete_lengthDiffers (q : Buffer) : s.complete.lengthDiffers q = s.lengthDiffers q := by
  simp only [State.lengthDiffers, complete_chkLen, complete_imageLen, complete_origLen]
@[simp] theorem complete_blocksX (q : Buffer) : s.complete.blocksX q = s.blocksX q := by
  simp only [State.blocksX, complete_width]
@[simp] theorem complete_blockCount (q : Buffer) : s.complete.blockCount q = s.blockCount q := by
  simp only [State.blockCount, complete_blocksX, complete_height]
@[simp] theorem complete_builtTable (q : Buffer) : s.complete.builtTable q = s.builtTable q := by
  simp only [State.builtTable, complete_keyBytes, complete_blockCount, complete_iter]
@[simp] theorem runKeystream_keyBytes (n : Nat) : (s.runKeystream n).keyBytes = s.keyBytes := by
  simp only [State.keyBytes, runKeystream_key, runKeystream_keyLen]
@[simp] theorem runKeystream_ivBytes (n : Nat) : (s.runKeystream n).ivBytes = s.ivBytes := by
  simp only [State.ivBytes, runKeystream_iv, runKeystream_ivLen]
@[simp] theorem runKeystream_keyTooLong (n : Nat) : (s.runKeystream n).keyTooLong = s.keyTooLong := by
  rw [State.keyTooLong, State.keyTooLong, runKeystream_keyLen]
@[simp] theorem runKeystream_ivTooLong (n : Nat) : (s.runKeystream n).ivTooLong = s.ivTooLong := by
  rw [State.ivTooLong, State.ivTooLong, runKeystream_ivLen]
@[simp] theorem runKeystream_keyMissing (n : Nat) : (s.runKeystream n).keyMissing = s.keyMissing := by
  simp only [State.keyMissing, runKeystream_keyLen]
@[simp] theorem runKeystream_width (n : Nat) (q : Buffer) : (s.runKeystream n).width q = s.width q := by
  cases q <;> simp only [State.width, runKeystream_aW, runKeystream_bW]
@[simp] theorem runKeystream_height (n : Nat) (q : Buffer) : (s.runKeystream n).height q = s.height q := by
  cases q <;> simp only [State.height, runKeystream_aH, runKeystream_bH]
@[simp] theorem runKeystream_pixelCount (n : Nat) (q : Buffer) : (s.runKeystream n).pixelCount q = s.pixelCount q := by
  simp only [State.pixelCount, runKeystream_width, runKeystream_height]
@[simp] theorem runKeystream_imageLen (n : Nat) (q : Buffer) : (s.runKeystream n).imageLen q = s.imageLen q := by
  simp only [State.imageLen, runKeystream_pixelCount]
@[simp] theorem runKeystream_badDims (n : Nat) (q : Buffer) : (s.runKeystream n).badDims q = s.badDims q := by
  simp only [State.badDims, runKeystream_width, runKeystream_height, runKeystream_imageLen]
@[simp] theorem runKeystream_tooSmall (n : Nat) (q : Buffer) : (s.runKeystream n).tooSmall q = s.tooSmall q := by
  simp only [State.tooSmall, runKeystream_width, runKeystream_height]
@[simp] theorem runKeystream_lengthDiffers (n : Nat) (q : Buffer) : (s.runKeystream n).lengthDiffers q = s.lengthDiffers q := by
  simp only [State.lengthDiffers, runKeystream_chkLen, runKeystream_imageLen, runKeystream_origLen]
@[simp] theorem runKeystream_blocksX (n : Nat) (q : Buffer) : (s.runKeystream n).blocksX q = s.blocksX q := by
  simp only [State.blocksX, runKeystream_width]
@[simp] theorem runKeystream_blockCount (n : Nat) (q : Buffer) : (s.runKeystream n).blockCount q = s.blockCount q := by
  simp only [State.blockCount, runKeystream_blocksX, runKeystream_height]
@[simp] theorem runKeystream_builtTable (n : Nat) (q : Buffer) : (s.runKeystream n).builtTable q = s.builtTable q := by
  simp only [State.builtTable, runKeystream_keyBytes, runKeystream_blockCount, runKeystream_iter]
@[simp] theorem streamCipher_keyBytes (p : Buffer) : (s.streamCipher p).keyBytes = s.keyBytes := by
  simp only [State.keyBytes, streamCipher_key, streamCipher_keyLen]
@[simp] theorem streamCipher_ivBytes (p : Buffer) : (s.streamCipher p).ivBytes = s.ivBytes := by
  simp only [State.ivBytes, streamCipher_iv, streamCipher_ivLen]
@[simp] theorem streamCipher_keyTooLong (p : Buffer) : (s.streamCipher p).keyTooLong = s.keyTooLong := by
  rw [State.keyTooLong, State.keyTooLong, streamCipher_keyLen]
@[simp] theorem streamCipher_ivTooLong (p : Buffer) : (s.streamCipher p).ivTooLong = s.ivTooLong := by
  rw [State.ivTooLong, State.ivTooLong, streamCipher_ivLen]
@[simp] theorem streamCipher_keyMissing (p : Buffer) : (s.streamCipher p).keyMissing = s.keyMissing := by
  simp only [State.keyMissing, streamCipher_keyLen]
@[simp] theorem streamCipher_width (p : Buffer) (q : Buffer) : (s.streamCipher p).width q = s.width q := by
  cases q <;> simp only [State.width, streamCipher_aW, streamCipher_bW]
@[simp] theorem streamCipher_height (p : Buffer) (q : Buffer) : (s.streamCipher p).height q = s.height q := by
  cases q <;> simp only [State.height, streamCipher_aH, streamCipher_bH]
@[simp] theorem streamCipher_pixelCount (p : Buffer) (q : Buffer) : (s.streamCipher p).pixelCount q = s.pixelCount q := by
  simp only [State.pixelCount, streamCipher_width, streamCipher_height]
@[simp] theorem streamCipher_imageLen (p : Buffer) (q : Buffer) : (s.streamCipher p).imageLen q = s.imageLen q := by
  simp only [State.imageLen, streamCipher_pixelCount]
@[simp] theorem streamCipher_badDims (p : Buffer) (q : Buffer) : (s.streamCipher p).badDims q = s.badDims q := by
  simp only [State.badDims, streamCipher_width, streamCipher_height, streamCipher_imageLen]
@[simp] theorem streamCipher_tooSmall (p : Buffer) (q : Buffer) : (s.streamCipher p).tooSmall q = s.tooSmall q := by
  simp only [State.tooSmall, streamCipher_width, streamCipher_height]
@[simp] theorem streamCipher_lengthDiffers (p : Buffer) (q : Buffer) : (s.streamCipher p).lengthDiffers q = s.lengthDiffers q := by
  simp only [State.lengthDiffers, streamCipher_chkLen, streamCipher_imageLen, streamCipher_origLen]
@[simp] theorem streamCipher_blocksX (p : Buffer) (q : Buffer) : (s.streamCipher p).blocksX q = s.blocksX q := by
  simp only [State.blocksX, streamCipher_width]
@[simp] theorem streamCipher_blockCount (p : Buffer) (q : Buffer) : (s.streamCipher p).blockCount q = s.blockCount q := by
  simp only [State.blockCount, streamCipher_blocksX, streamCipher_height]
@[simp] theorem streamCipher_builtTable (p : Buffer) (q : Buffer) : (s.streamCipher p).builtTable q = s.builtTable q := by
  simp only [State.builtTable, streamCipher_keyBytes, streamCipher_blockCount, streamCipher_iter]
@[simp] theorem setDims_keyBytes (b : Buffer) (w h : Nat) : (s.setDims b w h).keyBytes = s.keyBytes := by
  simp only [State.keyBytes, setDims_key, setDims_keyLen]
@[simp] theorem setDims_ivBytes (b : Buffer) (w h : Nat) : (s.setDims b w h).ivBytes = s.ivBytes := by
  simp only [State.ivBytes, setDims_iv, setDims_ivLen]
@[simp] theorem setDims_keyTooLong (b : Buffer) (w h : Nat) : (s.setDims b w h).keyTooLong = s.keyTooLong := by
  rw [State.keyTooLong, State.keyTooLong, setDims_keyLen]
@[simp] theorem setDims_ivTooLong (b : Buffer) (w h : Nat) : (s.setDims b w h).ivTooLong = s.ivTooLong := by
  rw [State.ivTooLong, State.ivTooLong, setDims_ivLen]
@[simp] theorem setDims_keyMissing (b : Buffer) (w h : Nat) : (s.setDims b w h).keyMissing = s.keyMissing := by
  simp only [State.keyMissing, setDims_keyLen]
@[simp] theorem build_keyBytes (p : Buffer) : (s.build p).keyBytes = s.keyBytes := by
  simp only [State.keyBytes, build_key, build_keyLen]
@[simp] theorem build_ivBytes (p : Buffer) : (s.build p).ivBytes = s.ivBytes := by
  simp only [State.ivBytes, build_iv, build_ivLen]
@[simp] theorem build_keyTooLong (p : Buffer) : (s.build p).keyTooLong = s.keyTooLong := by
  rw [State.keyTooLong, State.keyTooLong, build_keyLen]
@[simp] theorem build_ivTooLong (p : Buffer) : (s.build p).ivTooLong = s.ivTooLong := by
  rw [State.ivTooLong, State.ivTooLong, build_ivLen]
@[simp] theorem build_keyMissing (p : Buffer) : (s.build p).keyMissing = s.keyMissing := by
  simp only [State.keyMissing, build_keyLen]
@[simp] theorem build_width (p : Buffer) (q : Buffer) : (s.build p).width q = s.width q := by
  cases q <;> simp only [State.width, build_aW, build_bW]
@[simp] theorem build_height (p : Buffer) (q : Buffer) : (s.build p).height q = s.height q := by
  cases q <;> simp only [State.height, build_aH, build_bH]
@[simp] theorem build_pixelCount (p : Buffer) (q : Buffer) : (s.build p).pixelCount q = s.pixelCount q := by
  simp only [State.pixelCount, build_width, build_height]
@[simp] theorem build_imageLen (p : Buffer) (q : Buffer) : (s.build p).imageLen q = s.imageLen q := by
  simp only [State.imageLen, build_pixelCount]
@[simp] theorem build_badDims (p : Buffer) (q : Buffer) : (s.build p).badDims q = s.badDims q := by
  simp only [State.badDims, build_width, build_height, build_imageLen]
@[simp] theorem build_tooSmall (p : Buffer) (q : Buffer) : (s.build p).tooSmall q = s.tooSmall q := by
  simp only [State.tooSmall, build_width, build_height]
@[simp] theorem build_lengthDiffers (p : Buffer) (q : Buffer) : (s.build p).lengthDiffers q = s.lengthDiffers q := by
  simp only [State.lengthDiffers, build_chkLen, build_imageLen, build_origLen]
@[simp] theorem build_blocksX (p : Buffer) (q : Buffer) : (s.build p).blocksX q = s.blocksX q := by
  simp only [State.blocksX, build_width]
@[simp] theorem build_blockCount (p : Buffer) (q : Buffer) : (s.build p).blockCount q = s.blockCount q := by
  simp only [State.blockCount, build_blocksX, build_height]
@[simp] theorem build_builtTable (p : Buffer) (q : Buffer) : (s.build p).builtTable q = s.builtTable q := by
  simp only [State.builtTable, build_keyBytes, build_blockCount, build_iter]
@[simp] theorem move_keyBytes (p : Buffer) (tab : List Nat) : (s.move p tab).keyBytes = s.keyBytes := by
  simp only [State.keyBytes, move_key, move_keyLen]
@[simp] theorem move_ivBytes (p : Buffer) (tab : List Nat) : (s.move p tab).ivBytes = s.ivBytes := by
  simp only [State.ivBytes, move_iv, move_ivLen]
@[simp] theorem move_keyTooLong (p : Buffer) (tab : List Nat) : (s.move p tab).keyTooLong = s.keyTooLong := by
  rw [State.keyTooLong, State.keyTooLong, move_keyLen]
@[simp] theorem move_ivTooLong (p : Buffer) (tab : List Nat) : (s.move p tab).ivTooLong = s.ivTooLong := by
  rw [State.ivTooLong, State.ivTooLong, move_ivLen]
@[simp] theorem move_keyMissing (p : Buffer) (tab : List Nat) : (s.move p tab).keyMissing = s.keyMissing := by
  simp only [State.keyMissing, move_keyLen]
@[simp] theorem countImage_keyBytes (img : List Pixel) : (s.countImage img).keyBytes = s.keyBytes := by
  simp only [State.keyBytes, countImage_key, countImage_keyLen]
@[simp] theorem countImage_ivBytes (img : List Pixel) : (s.countImage img).ivBytes = s.ivBytes := by
  simp only [State.ivBytes, countImage_iv, countImage_ivLen]
@[simp] theorem countImage_keyTooLong (img : List Pixel) : (s.countImage img).keyTooLong = s.keyTooLong := by
  rw [State.keyTooLong, State.keyTooLong, countImage_keyLen]
@[simp] theorem countImage_ivTooLong (img : List Pixel) : (s.countImage img).ivTooLong = s.ivTooLong := by
  rw [State.ivTooLong, State.ivTooLong, countImage_ivLen]
@[simp] theorem countImage_keyMissing (img : List Pixel) : (s.countImage img).keyMissing = s.keyMissing := by
  simp only [State.keyMissing, countImage_keyLen]
@[simp] theorem countImage_width (img : List Pixel) (q : Buffer) : (s.countImage img).width q = s.width q := by
  cases q <;> simp only [State.width, countImage_aW, countImage_bW]
@[simp] theorem countImage_height (img : List Pixel) (q : Buffer) : (s.countImage img).height q = s.height q := by
  cases q <;> simp only [State.height, countImage_aH, countImage_bH]
@[simp] theorem countImage_pixelCount (img : List Pixel) (q : Buffer) : (s.countImage img).pixelCount q = s.pixelCount q := by
  simp only [State.pixelCount, countImage_width, countImage_height]
@[simp] theorem countImage_imageLen (img : List Pixel) (q : Buffer) : (s.countImage img).imageLen q = s.imageLen q := by
  simp only [State.imageLen, countImage_pixelCount]
@[simp] theorem countImage_badDims (img : List Pixel) (q : Buffer) : (s.countImage img).badDims q = s.badDims q := by
  simp only [State.badDims, countImage_width, countImage_height, countImage_imageLen]
@[simp] theorem countImage_tooSmall (img : List Pixel) (q : Buffer) : (s.countImage img).tooSmall q = s.tooSmall q := by
  simp only [State.tooSmall, countImage_width, countImage_height]
@[simp] theorem countImage_lengthDiffers (img : List Pixel) (q : Buffer) : (s.countImage img).lengthDiffers q = s.lengthDiffers q := by
  simp only [State.lengthDiffers, countImage_chkLen, countImage_imageLen, countImage_origLen]
@[simp] theorem countImage_blocksX (img : List Pixel) (q : Buffer) : (s.countImage img).blocksX q = s.blocksX q := by
  simp only [State.blocksX, countImage_width]
@[simp] theorem countImage_blockCount (img : List Pixel) (q : Buffer) : (s.countImage img).blockCount q = s.blockCount q := by
  simp only [State.blockCount, countImage_blocksX, countImage_height]
@[simp] theorem countImage_builtTable (img : List Pixel) (q : Buffer) : (s.countImage img).builtTable q = s.builtTable q := by
  simp only [State.builtTable, countImage_keyBytes, countImage_blockCount, countImage_iter]
@[simp] theorem measureEntropy_keyBytes (img : List Pixel) : (s.measureEntropy img).keyBytes = s.keyBytes := by
  simp only [State.keyBytes, measureEntropy_key, measureEntropy_keyLen]
@[simp] theorem measureEntropy_ivBytes (img : List Pixel) : (s.measureEntropy img).ivBytes = s.ivBytes := by
  simp only [State.ivBytes, measureEntropy_iv, measureEntropy_ivLen]
@[simp] theorem measureEntropy_keyTooLong (img : List Pixel) : (s.measureEntropy img).keyTooLong = s.keyTooLong := by
  rw [State.keyTooLong, State.keyTooLong, measureEntropy_keyLen]
@[simp] theorem measureEntropy_ivTooLong (img : List Pixel) : (s.measureEntropy img).ivTooLong = s.ivTooLong := by
  rw [State.ivTooLong, State.ivTooLong, measureEntropy_ivLen]
@[simp] theorem measureEntropy_keyMissing (img : List Pixel) : (s.measureEntropy img).keyMissing = s.keyMissing := by
  simp only [State.keyMissing, measureEntropy_keyLen]
@[simp] theorem measureEntropy_width (img : List Pixel) (q : Buffer) : (s.measureEntropy img).width q = s.width q := by
  cases q <;> simp only [State.width, measureEntropy_aW, measureEntropy_bW]
@[simp] theorem measureEntropy_height (img : List Pixel) (q : Buffer) : (s.measureEntropy img).height q = s.height q := by
  cases q <;> simp only [State.height, measureEntropy_aH, measureEntropy_bH]
@[simp] theorem measureEntropy_pixelCount (img : List Pixel) (q : Buffer) : (s.measureEntropy img).pixelCount q = s.pixelCount q := by
  simp only [State.pixelCount, measureEntropy_width, measureEntropy_height]
@[simp] theorem measureEntropy_imageLen (img : List Pixel) (q : Buffer) : (s.measureEntropy img).imageLen q = s.imageLen q := by
  simp only [State.imageLen, measureEntropy_pixelCount]
@[simp] theorem measureEntropy_badDims (img : List Pixel) (q : Buffer) : (s.measureEntropy img).badDims q = s.badDims q := by
  simp only [State.badDims, measureEntropy_width, measureEntropy_height, measureEntropy_imageLen]
@[simp] theorem measureEntropy_tooSmall (img : List Pixel) (q : Buffer) : (s.measureEntropy img).tooSmall q = s.tooSmall q := by
  simp only [State.tooSmall, measureEntropy_width, measureEntropy_height]
@[simp] theorem measureEntropy_lengthDiffers (img : List Pixel) (q : Buffer) : (s.measureEntropy img).lengthDiffers q = s.lengthDiffers q := by
  simp only [State.lengthDiffers, measureEntropy_chkLen, measureEntropy_imageLen, measureEntropy_origLen]
@[simp] theorem measureEntropy_blocksX (img : List Pixel) (q : Buffer) : (s.measureEntropy img).blocksX q = s.blocksX q := by
  simp only [State.blocksX, measureEntropy_width]
@[simp] theorem measureEntropy_blockCount (img : List Pixel) (q : Buffer) : (s.measureEntropy img).blockCount q = s.blockCount q := by
  simp only [State.blockCount, measureEntropy_blocksX, measureEntropy_height]
@[simp] theorem measureEntropy_builtTable (img : List Pixel) (q : Buffer) : (s.measureEntropy img).builtTable q = s.builtTable q := by
  simp only [State.builtTable, measureEntropy_keyBytes, measureEntropy_blockCount, measureEntropy_iter]
@[simp] theorem correlate_keyBytes (img : List Pixel) (w h : Nat) : (s.correlate img w h).keyBytes = s.keyBytes := by
  simp only [State.keyBytes, correlate_key, correlate_keyLen]
@[simp] theorem correlate_ivBytes (img : List Pixel) (w h : Nat) : (s.correlate img w h).ivBytes = s.ivBytes := by
  simp only [State.ivBytes, correlate_iv, correlate_ivLen]
@[simp] theorem correlate_keyTooLong (img : List Pixel) (w h : Nat) : (s.correlate img w h).keyTooLong = s.keyTooLong := by
  rw [State.keyTooLong, State.keyTooLong, correlate_keyLen]
@[simp] theorem correlate_ivTooLong (img : List Pixel) (w h : Nat) : (s.correlate img w h).ivTooLong = s.ivTooLong := by
  rw [State.ivTooLong, State.ivTooLong, correlate_ivLen]
@[simp] theorem correlate_keyMissing (img : List Pixel) (w h : Nat) : (s.correlate img w h).keyMissing = s.keyMissing := by
  simp only [State.keyMissing, correlate_keyLen]
@[simp] theorem correlate_width (img : List Pixel) (w h : Nat) (q : Buffer) : (s.correlate img w h).width q = s.width q := by
  cases q <;> simp only [State.width, correlate_aW, correlate_bW]
@[simp] theorem correlate_height (img : List Pixel) (w h : Nat) (q : Buffer) : (s.correlate img w h).height q = s.height q := by
  cases q <;> simp only [State.height, correlate_aH, correlate_bH]
@[simp] theorem correlate_pixelCount (img : List Pixel) (w h : Nat) (q : Buffer) : (s.correlate img w h).pixelCount q = s.pixelCount q := by
  simp only [State.pixelCount, correlate_width, correlate_height]
@[simp] theorem correlate_imageLen (img : List Pixel) (w h : Nat) (q : Buffer) : (s.correlate img w h).imageLen q = s.imageLen q := by
  simp only [State.imageLen, correlate_pixelCount]
@[simp] theorem correlate_badDims (img : List Pixel) (w h : Nat) (q : Buffer) : (s.correlate img w h).badDims q = s.badDims q := by
  simp only [State.badDims, correlate_width, correlate_height, correlate_imageLen]
@[simp] theorem correlate_tooSmall (img : List Pixel) (w h : Nat) (q : Buffer) : (s.correlate img w h).tooSmall q = s.tooSmall q := by
  simp only [State.tooSmall, correlate_width, correlate_height]
@[simp] theorem correlate_lengthDiffers (img : List Pixel) (w h : Nat) (q : Buffer) : (s.correlate img w h).lengthDiffers q = s.lengthDiffers q := by
  simp only [State.lengthDiffers, correlate_chkLen, correlate_imageLen, correlate_origLen]
@[simp] theorem correlate_blocksX (img : List Pixel) (w h : Nat) (q : Buffer) : (s.correlate img w h).blocksX q = s.blocksX q := by
  simp only [State.blocksX, correlate_width]
@[simp] theorem correlate_blockCount (img : List Pixel) (w h : Nat) (q : Buffer) : (s.correlate img w h).blockCount q = s.blockCount q := by
  simp only [State.blockCount, correlate_blocksX, correlate_height]
@[simp] theorem correlate_builtTable (img : List Pixel) (w h : Nat) (q : Buffer) : (s.correlate img w h).builtTable q = s.builtTable q := by
  simp only [State.builtTable, correlate_keyBytes, correlate_blockCount, correlate_iter]
@[simp] theorem compareImages_keyBytes (a b : List Pixel) (n : Nat) : (s.compareImages a b n).keyBytes = s.keyBytes := by
  simp only [State.keyBytes, compareImages_key, compareImages_keyLen]
@[simp] theorem compareImages_ivBytes (a b : List Pixel) (n : Nat) : (s.compareImages a b n).ivBytes = s.ivBytes := by
  simp only [State.ivBytes, compareImages_iv, compareImages_ivLen]
@[simp] theorem compareImages_keyTooLong (a b : List Pixel) (n : Nat) : (s.compareImages a b n).keyTooLong = s.keyTooLong := by
  rw [State.keyTooLong, State.keyTooLong, compareImages_keyLen]
@[simp] theorem compareImages_ivTooLong (a b : List Pixel) (n : Nat) : (s.compareImages a b n).ivTooLong = s.ivTooLong := by
  rw [State.ivTooLong, State.ivTooLong, compareImages_ivLen]
@[simp] theorem compareImages_keyMissing (a b : List Pixel) (n : Nat) : (s.compareImages a b n).keyMissing = s.keyMissing := by
  simp only [State.keyMissing, compareImages_keyLen]
@[simp] theorem compareImages_width (a b : List Pixel) (n : Nat) (q : Buffer) : (s.compareImages a b n).width q = s.width q := by
  cases q <;> simp only [State.width, compareImages_aW, compareImages_bW]
@[simp] theorem compareImages_height (a b : List Pixel) (n : Nat) (q : Buffer) : (s.compareImages a b n).height q = s.height q := by
  cases q <;> simp only [State.height, compareImages_aH, compareImages_bH]
@[simp] theorem compareImages_pixelCount (a b : List Pixel) (n : Nat) (q : Buffer) : (s.compareImages a b n).pixelCount q = s.pixelCount q := by
  simp only [State.pixelCount, compareImages_width, compareImages_height]
@[simp] theorem compareImages_imageLen (a b : List Pixel) (n : Nat) (q : Buffer) : (s.compareImages a b n).imageLen q = s.imageLen q := by
  simp only [State.imageLen, compareImages_pixelCount]
@[simp] theorem compareImages_badDims (a b : List Pixel) (n : Nat) (q : Buffer) : (s.compareImages a b n).badDims q = s.badDims q := by
  simp only [State.badDims, compareImages_width, compareImages_height, compareImages_imageLen]
@[simp] theorem compareImages_tooSmall (a b : List Pixel) (n : Nat) (q : Buffer) : (s.compareImages a b n).tooSmall q = s.tooSmall q := by
  simp only [State.tooSmall, compareImages_width, compareImages_height]
@[simp] theorem compareImages_lengthDiffers (a b : List Pixel) (n : Nat) (q : Buffer) : (s.compareImages a b n).lengthDiffers q = s.lengthDiffers q := by
  simp only [State.lengthDiffers, compareImages_chkLen, compareImages_imageLen, compareImages_origLen]
@[simp] theorem compareImages_blocksX (a b : List Pixel) (n : Nat) (q : Buffer) : (s.compareImages a b n).blocksX q = s.blocksX q := by
  simp only [State.blocksX, compareImages_width]
@[simp] theorem compareImages_blockCount (a b : List Pixel) (n : Nat) (q : Buffer) : (s.compareImages a b n).blockCount q = s.blockCount q := by
  simp only [State.blockCount, compareImages_blocksX, compareImages_height]
@[simp] theorem compareImages_builtTable (a b : List Pixel) (n : Nat) (q : Buffer) : (s.compareImages a b n).builtTable q = s.builtTable q := by
  simp only [State.builtTable, compareImages_keyBytes, compareImages_blockCount, compareImages_iter]
@[simp] theorem answered_keyBytes (ans : Answer) : (s.answered ans).keyBytes = s.keyBytes := by
  simp only [State.keyBytes, answered_key, answered_keyLen]
@[simp] theorem answered_ivBytes (ans : Answer) : (s.answered ans).ivBytes = s.ivBytes := by
  simp only [State.ivBytes, answered_iv, answered_ivLen]
@[simp] theorem answered_keyTooLong (ans : Answer) : (s.answered ans).keyTooLong = s.keyTooLong := by
  rw [State.keyTooLong, State.keyTooLong, answered_keyLen]
@[simp] theorem answered_ivTooLong (ans : Answer) : (s.answered ans).ivTooLong = s.ivTooLong := by
  rw [State.ivTooLong, State.ivTooLong, answered_ivLen]
@[simp] theorem answered_keyMissing (ans : Answer) : (s.answered ans).keyMissing = s.keyMissing := by
  simp only [State.keyMissing, answered_keyLen]
@[simp] theorem answered_width (ans : Answer) (q : Buffer) : (s.answered ans).width q = s.width q := by
  cases q <;> simp only [State.width, answered_aW, answered_bW]
@[simp] theorem answered_height (ans : Answer) (q : Buffer) : (s.answered ans).height q = s.height q := by
  cases q <;> simp only [State.height, answered_aH, answered_bH]
@[simp] theorem answered_pixelCount (ans : Answer) (q : Buffer) : (s.answered ans).pixelCount q = s.pixelCount q := by
  simp only [State.pixelCount, answered_width, answered_height]
@[simp] theorem answered_imageLen (ans : Answer) (q : Buffer) : (s.answered ans).imageLen q = s.imageLen q := by
  simp only [State.imageLen, answered_pixelCount]
@[simp] theorem answered_badDims (ans : Answer) (q : Buffer) : (s.answered ans).badDims q = s.badDims q := by
  simp only [State.badDims, answered_width, answered_height, answered_imageLen]
@[simp] theorem answered_tooSmall (ans : Answer) (q : Buffer) : (s.answered ans).tooSmall q = s.tooSmall q := by
  simp only [State.tooSmall, answered_width, answered_height]
@[simp] theorem answered_lengthDiffers (ans : Answer) (q : Buffer) : (s.answered ans).lengthDiffers q = s.lengthDiffers q := by
  simp only [State.lengthDiffers, answered_chkLen, answered_imageLen, answered_origLen]
@[simp] theorem answered_blocksX (ans : Answer) (q : Buffer) : (s.answered ans).blocksX q = s.blocksX q := by
  simp only [State.blocksX, answered_width]
@[simp] theorem answered_blockCount (ans : Answer) (q : Buffer) : (s.answered ans).blockCount q = s.blockCount q := by
  simp only [State.blockCount, answered_blocksX, answered_height]
@[simp] theorem answered_builtTable (ans : Answer) (q : Buffer) : (s.answered ans).builtTable q = s.builtTable q := by
  simp only [State.builtTable, answered_keyBytes, answered_blockCount, answered_iter]

end Sys2Proof.Machine.State
end

