-- ==== Sys2Proof/Laws/Command.lean ====
section
/-! SUPPORT. What running a command can do: the checks in order, then the error report alone or the whole effect and
completion; and every command as an application of that one operation. -/

namespace Sys2Proof.Machine

/-! ## `firstError` and `runChecked` -/

@[simp] theorem firstError_nil : firstError [] = none := rfl

@[simp] theorem firstError_cons (b : Bool) (e : CommandError) (rest : List (Bool × CommandError)) :
    firstError ((b, e) :: rest) = if b then some e else firstError rest := rfl

theorem firstError_eq_none_iff (checks : List (Bool × CommandError)) :
    firstError checks = none ↔ ∀ c ∈ checks, c.1 = false := by
  induction checks with
  | nil => simp
  | cons c checks ih => cases hc : c.1 <;> simp [firstError, hc, ih]

/-- Everything `runChecked` can do: it always answers a next state, which is the error report of the first failed check,
or the completed effect if none failed. -/
theorem runChecked_cases {checks : List (Bool × CommandError)} {effect : State → State} {s t : State}
    (h : runChecked checks effect s = .next t) :
    (∃ e, firstError checks = some e ∧ t = s.raise e) ∨ (firstError checks = none ∧ t = (effect s).complete) := by
  unfold runChecked at h
  cases hc : firstError checks with
  | none => exact .inr ⟨rfl, by simpa [hc] using h.symm⟩
  | some e => exact .inl ⟨e, rfl, by simpa [hc] using h.symm⟩

theorem runChecked_of_none {checks : List (Bool × CommandError)} (h : firstError checks = none)
    (effect : State → State) (s : State) : runChecked checks effect s = .next (effect s).complete := by
  simp [runChecked, h]

theorem runChecked_of_some {checks : List (Bool × CommandError)} {e : CommandError} (h : firstError checks = some e)
    (effect : State → State) (s : State) : runChecked checks effect s = .next (s.raise e) := by
  simp [runChecked, h]

/-! ## Every command is a checked effect -/

/-- The checks a command makes at entry, in order. -/
def checksOf (s : State) : Instr → List (Bool × CommandError)
  | .nop => []
  | .xsSeed => [(s.keyTooLong || s.ivTooLong, .badParameter), (s.keyMissing, .invalidKey)]
  | .xsStep => []
  | .ksGen _ => [(s.keyTooLong || s.ivTooLong || Config.bufBytes < s.ksLen.toNat, .badParameter),
      (s.keyMissing, .invalidKey)]
  | .streamEnc p => [(s.keyTooLong || s.ivTooLong || s.badDims p, .badParameter), (s.keyMissing, .invalidKey)]
  | .streamDec p => [(s.keyTooLong || s.ivTooLong || s.badDims p, .badParameter), (s.keyMissing, .invalidKey),
      (s.lengthDiffers p, .bufferLengthMismatch)]
  | .lcgDerive => [(s.keyTooLong || s.ivTooLong, .badParameter), (s.keyMissing, .invalidKey)]
  | .lcgNext => []
  | .permBuild p => s.permChecks p
  | .permEnc p => s.permChecks p
  | .permDec p => s.permChecks p
  | .hist p => [(s.badDims p, .badParameter)]
  | .entropy p => [(s.badDims p, .badParameter)]
  | .corr p => [(s.badDims p, .badParameter)]
  | .npcrUaci => [(s.badDims .bufA || s.badDims .bufB, .badParameter),
      (s.pixelCount .bufA != s.pixelCount .bufB, .dimensionMismatch)]

/-- The effect of a command whose checks passed, before `STATUS` is written. -/
def effectOf (s : State) : Instr → State
  | .nop => s
  | .xsSeed => { s with xs := seedState s.keyBytes s.ivBytes }
  | .xsStep => { s with xs := xsStep s.xs, ksWord := (xsStep s.xs).x0 }
  | .ksGen p => (s.runKeystream s.ksLen.toNat).store p.base (keystream s.keyBytes s.ivBytes s.ksLen.toNat)
  | .streamEnc p => s.streamCipher p
  | .streamDec p => s.streamCipher p
  | .lcgDerive => { s with lcgSeed := deriveSeed s.keyBytes s.ivBytes }
  | .lcgNext => { s with lcgSeed := lcgNext s.lcgSeed }
  | .permBuild p => s.build p
  | .permEnc p => (s.build p).move p (s.builtTable p).1
  | .permDec p => (s.build p).move p (inverseTable (s.builtTable p).1)
  | .hist p => s.countImage (s.image p)
  | .entropy p => s.measureEntropy (s.image p)
  | .corr p => s.correlate (s.image p) (s.width p) (s.height p)
  | .npcrUaci => s.compareImages (s.image .bufA) (s.image .bufB) (s.pixelCount .bufA)

/-- Every command is its checks and its effect. -/
theorem exec_eq_runChecked (i : Instr) (s : State) :
    exec i s = runChecked (checksOf s i) (fun s => effectOf s i) s := by
  cases i <;> rfl

/-- Everything a command can do. -/
theorem exec_cases {i : Instr} {s t : State} (h : exec i s = .next t) :
    (∃ e, firstError (checksOf s i) = some e ∧ t = s.raise e) ∨
      (firstError (checksOf s i) = none ∧ t = (effectOf s i).complete) :=
  runChecked_cases (exec_eq_runChecked i s ▸ h)

/-- A command whose checks pass completes with its effect. -/
theorem exec_of_none {i : Instr} {s : State} (h : firstError (checksOf s i) = none) :
    exec i s = .next (effectOf s i).complete := by
  rw [exec_eq_runChecked]
  exact runChecked_of_none h _ _

/-- A command one of whose checks fails reports the first failure. -/
theorem exec_of_some {i : Instr} {s : State} {e : CommandError} (h : firstError (checksOf s i) = some e) :
    exec i s = .next (s.raise e) := by
  rw [exec_eq_runChecked]
  exact runChecked_of_some h _ _

/-- The report of an illegal command word. -/
theorem illegalCommand_eq (s : State) : illegalCommand s = .next (s.raise .illegalCommand) := rfl

/-! ## The conditions of the checks -/

theorem State.keyTooLong_eq_false_iff (s : State) : s.keyTooLong = false ↔ s.keyLen.toNat ≤ 32 := by
  simp [State.keyTooLong]

theorem State.ivTooLong_eq_false_iff (s : State) : s.ivTooLong = false ↔ s.ivLen.toNat ≤ 32 := by
  simp [State.ivTooLong]

theorem State.keyMissing_eq_false_iff (s : State) : s.keyMissing = false ↔ 1 ≤ s.keyLen.toNat := by
  simp only [State.keyMissing, beq_eq_false_iff_ne]
  omega

theorem State.badDims_eq_false_iff (s : State) (b : Buffer) :
    s.badDims b = false ↔ 1 ≤ s.width b ∧ 1 ≤ s.height b ∧ 4 * (s.width b * s.height b) ≤ 4194304 := by
  simp only [State.badDims, Bool.or_eq_false_iff, beq_eq_false_iff_ne, decide_eq_false_iff_not]
  simp only [State.imageLen, State.pixelCount, Config.bufBytes]
  omega

theorem State.tooSmall_eq_false_iff (s : State) (b : Buffer) :
    s.tooSmall b = false ↔ 8 ≤ s.width b ∧ 8 ≤ s.height b := by
  simp [State.tooSmall]

/-- A legal image has at most `MAX_BLOCKS` blocks. -/
theorem State.blockCount_le {s : State} {b : Buffer} (h : s.badDims b = false) :
    s.blockCount b ≤ Config.maxBlocks := by
  have h := ((s.badDims_eq_false_iff b).1 h).2.2
  have hw : 8 * (s.width b / 8) ≤ s.width b := Nat.mul_div_le _ _
  have hh : 8 * (s.height b / 8) ≤ s.height b := Nat.mul_div_le _ _
  have := Nat.mul_le_mul hw hh
  have e : 8 * (s.width b / 8) * (8 * (s.height b / 8)) = 64 * (s.width b / 8 * (s.height b / 8)) := by ring
  simp only [State.blockCount, State.blocksX, Config.block, Config.maxBlocks]
  omega

end Sys2Proof.Machine
end

