-- ==== Sys2Proof/Laws/Bus.lean ====
section
/-! SUPPORT. What a host event can do (R70 to R77, R85), and what a step can do. -/

namespace Sys2Proof.Machine

/-! ## The maps -/

/-- Every register is found at its offset: no two share one (R47). -/
@[simp] theorem regAt_offset (r : Reg) : regAt r.offset = some r := by cases r <;> decide

/-- A register found at an offset has that offset. -/
theorem offset_of_regAt {a : Nat} {r : Reg} (h : regAt a = some r) : r.offset = a := by
  simpa using List.find?_some h

theorem offset_lt (r : Reg) : r.offset < 0x1000 := by cases r <;> decide

theorem offset_mod (r : Reg) : r.offset % 4 = 0 := by cases r <;> decide

@[simp] theorem locate_offset (r : Reg) : locate r.offset = .register r := by
  simp [locate, offset_lt r]

/-- The offsets of the buffer windows (R73). -/
theorem locate_eq_buffer_iff (a : Nat) :
    locate a = .buffer ↔
      (0x1000000 ≤ a ∧ a < 0x1000000 + 4194304) ∨ (0x2000000 ≤ a ∧ a < 0x2000000 + 4194304) := by
  unfold locate
  simp only [Config.maxBlocks, Config.bufBytes, Bool.and_eq_true, decide_eq_true_eq]
  split_ifs <;> (cases regAt a <;> simp <;> omega)

/-- The unmapped offsets (R73). -/
theorem locate_eq_unmapped_iff (a : Nat) :
    locate a = .unmapped ↔
      0x2000 ≤ a ∧ ¬(0x40000 ≤ a ∧ a < 0x40000 + 65536) ∧ ¬(0x80000 ≤ a ∧ a < 0x80000 + 65536) ∧
        ¬(0x1000000 ≤ a ∧ a < 0x1000000 + 4194304) ∧ ¬(0x2000000 ≤ a ∧ a < 0x2000000 + 4194304) := by
  unfold locate
  simp only [Config.maxBlocks, Config.bufBytes, Bool.and_eq_true, decide_eq_true_eq]
  split_ifs <;> (cases regAt a <;> simp <;> omega)

/-! ## Writes of a register -/

/-- A register write stores no byte of memory and touches none of the model's own fields. -/
theorem State.writeReg_frame (s : State) (v : Word) (r : Reg) :
    (s.writeReg v r).mem = s.mem ∧ (s.writeReg v r).script = s.script ∧ (s.writeReg v r).answers = s.answers ∧
      (s.writeReg v r).resets = s.resets := by
  cases r <;> exact ⟨rfl, rfl, rfl, rfl⟩

/-! ## What a step can do -/

theorem step_of_nil {s : State} (h : s.script = []) : step s = .next s := by simp [step, h]

theorem step_of_cons {s : State} {e : HostEvent} {rest : List HostEvent} (h : s.script = e :: rest) :
    step s = finish (deliver e { s with script := rest }) := by
  simp only [step, h]

/-- A `CMD` write runs its word in the state that has stored it. -/
theorem step_of_command {s : State} {a : BusAddr} {w : AccessWidth} {v : Word} {rest : List HostEvent}
    (h : s.script = .wr a w v :: rest) (hc : startsCommand a w = true) :
    step s = runWord v { s with script := rest, cmd := v, answers := .written :: s.answers } := by
  simp only [step_of_cons h, deliver, hc, if_true]
  rfl

theorem runWord_of_ok {w : Word} {i : Instr} (h : decode w = .ok i) (s : State) : runWord w s = exec i s := by
  simp [runWord, h]

theorem runWord_of_error {w : Word} {e : DecodeError} (h : decode w = .error e) (s : State) :
    runWord w s = .next (s.raise .illegalCommand) := by
  simp [runWord, h, illegalCommand_eq]

/-- Everything a step can do that answers a next state: idle, an event that starts no command, a command, or the report
of an illegal word. -/
theorem step_cases {s t : State} (h : step s = .next t) :
    (s.script = [] ∧ t = s) ∨
      (∃ e rest, s.script = e :: rest ∧ deliver e { s with script := rest } = (t, none)) ∨
      (∃ a v rest i, s.script = .wr a .w32 v :: rest ∧ startsCommand a .w32 = true ∧ decode v = .ok i ∧
        exec i { s with script := rest, cmd := v, answers := .written :: s.answers } = .next t) ∨
      (∃ a v rest err, s.script = .wr a .w32 v :: rest ∧ startsCommand a .w32 = true ∧ decode v = .error err ∧
        t = State.raise .illegalCommand
          { s with script := rest, cmd := v, answers := .written :: s.answers }) := by
  cases hs : s.script with
  | nil =>
    rw [step_of_nil hs] at h
    exact .inl ⟨rfl, by simpa using h.symm⟩
  | cons e rest =>
    right
    by_cases hc : ∃ a w v, e = .wr a w v ∧ startsCommand a w = true
    · obtain ⟨a, w, v, rfl, hc⟩ := hc
      have hw : w = .w32 := by
        simp only [startsCommand, Bool.and_eq_true, beq_iff_eq] at hc
        exact hc.1
      subst hw
      rw [step_of_command hs hc] at h
      cases hd : decode v with
      | ok i => exact .inr (.inl ⟨a, v, rest, i, rfl, hc, hd, by rwa [runWord_of_ok hd] at h⟩)
      | error err =>
        rw [runWord_of_error hd] at h
        exact .inr (.inr ⟨a, v, rest, err, rfl, hc, hd, by simpa using h.symm⟩)
    · refine .inl ⟨e, rest, rfl, ?_⟩
      rw [step_of_cons hs] at h
      cases e with
      | rd a w => simpa [finish, deliver] using h
      | wr a w v =>
        have hf : startsCommand a w = false := by
          cases hx : startsCommand a w with
          | false => rfl
          | true => exact absurd ⟨a, w, v, rfl, hx⟩ hc
        simpa [finish, deliver, hf] using h
      | reset => simpa [finish, deliver] using h

end Sys2Proof.Machine
end

