-- ==== Sys2Proof/Laws/Keystream.lean ====
section
/-! SUPPORT. The laws of the keystream: lengths, and which byte of which output word a keystream byte is. -/

namespace Sys2Proof.Machine

@[simp] theorem xsWords_length (k : Nat) (st : XsState) : (xsWords k st).length = k := by
  induction k generalizing st with
  | zero => rfl
  | succ k ih => simp [xsWords, ih]

theorem xsSteps_eq_iterate (k : Nat) (st : XsState) : xsSteps k st = xsStep^[k] st := by
  induction k generalizing st with
  | zero => rfl
  | succ k ih => simp [xsSteps, ih]

/-- The output word number `i` is `x0` after `i + 1` steps. -/
theorem xsWords_getD (k i : Nat) (st : XsState) (h : i < k) :
    (xsWords k st).getD i 0 = (xsStep^[i + 1] st).x0 := by
  induction k generalizing st i with
  | zero => omega
  | succ k ih =>
    cases i with
    | zero => simp [xsWords]
    | succ i =>
      have := ih i (xsStep st) (by omega)
      simpa [xsWords, List.getD_cons_succ] using this

@[simp] theorem length_flatMap_keystreamBytes (ws : List Word) : (ws.flatMap keystreamBytes).length = 4 * ws.length := by
  induction ws with
  | nil => rfl
  | cons w ws ih => simp [List.flatMap_cons, ih]; omega

theorem getD_flatMap_keystreamBytes (ws : List Word) (i j : Nat) (hi : i < ws.length) (hj : j < 4) :
    (ws.flatMap keystreamBytes).getD (4 * i + j) 0 = (keystreamBytes (ws.getD i 0)).getD j 0 := by
  induction ws generalizing i with
  | nil => simp at hi
  | cons w ws ih =>
    rw [List.flatMap_cons]
    cases i with
    | zero =>
      have hlen : 4 * 0 + j < (keystreamBytes w).length := by simpa using hj
      simp only [List.getD_eq_getElem?_getD, List.getElem?_append_left hlen]
      simp
    | succ i =>
      have hlen : (keystreamBytes w).length ≤ 4 * (i + 1) + j := by simp; omega
      have hsub : 4 * (i + 1) + j - (keystreamBytes w).length = 4 * i + j := by simp; omega
      have := ih i (by simpa using hi)
      simp only [List.getD_eq_getElem?_getD, List.getElem?_append_right hlen, hsub] at this ⊢
      simpa using this

@[simp] theorem keystream_length (key iv : List Byte) (n : Nat) : (keystream key iv n).length = n := by
  simp [keystream, keystreamSteps]
  omega

/-- Keystream byte `i`: big-endian byte `i mod 4` of the output word after `i div 4 + 1` steps (R133). -/
theorem keystream_getD (key iv : List Byte) (n i : Nat) (h : i < n) :
    (keystream key iv n).getD i 0 =
      (keystreamBytes (xsStep^[i / 4 + 1] (seedState key iv)).x0).getD (i % 4) 0 := by
  have hk : i / 4 < keystreamSteps n := by simp only [keystreamSteps]; omega
  have e : 4 * (i / 4) + i % 4 = i := by omega
  have := getD_flatMap_keystreamBytes (xsWords (keystreamSteps n) (seedState key iv)) (i / 4) (i % 4)
    (by simpa using hk) (by omega)
  rw [e, xsWords_getD _ _ _ hk] at this
  rw [← this]
  simp [keystream, List.getD_eq_getElem?_getD, h]

/-- A step reads only `x0` and `x1`, and leaves `x2` and `x3` alone (R132). -/
theorem xsStep_frame (st : XsState) : (xsStep st).x2 = st.x2 ∧ (xsStep st).x3 = st.x3 := ⟨rfl, rfl⟩

end Sys2Proof.Machine
end

