-- ==== Sys2Proof/Laws/Metrics.lean ====
section
/-! SUPPORT. The laws of the metrics: lengths of images and tables, the counts, the sums over a grid, the bounds of the
fixed-point results. -/

namespace Sys2Proof.Machine

@[simp] theorem State.image_length (s : State) (b : Buffer) : (s.image b).length = s.pixelCount b := by
  simp [State.image]

theorem State.image_getD (s : State) (b : Buffer) (k : Nat) (h : k < s.pixelCount b) (d : Pixel) :
    (s.image b).getD k d = s.pixelAt b k := by
  simp [State.image, List.getD_eq_getElem?_getD, h]

@[simp] theorem histBins_length (channel : List Byte) : (histBins channel).length = 256 := by
  simp [histBins]

theorem histBins_getD (channel : List Byte) (v : Nat) (h : v < 256) :
    (histBins channel).getD v 0 = channel.countP fun b => b.toNat == v := by
  simp [histBins, List.getD_eq_getElem?_getD, h]

theorem absDiff_le {a b n : Nat} (ha : a ≤ n) (hb : b ≤ n) : absDiff a b ≤ n := by
  simp only [absDiff]
  omega

theorem Pixel.sum_le (p : Pixel) : p.sum ≤ 765 := by
  have := p.r.isLt
  have := p.g.isLt
  have := p.b.isLt
  simp only [Pixel.sum]
  omega

/-- A grid sum as a sum over index ranges. -/
theorem gridSum_eq_sum (w h : Nat) (f : Nat → Nat → Nat) :
    gridSum w h f = ∑ y ∈ Finset.range h, ∑ x ∈ Finset.range w, f x y := rfl

/-- A grid sum of terms at most `n` is at most `n` for each pair. -/
theorem gridSum_le {w h n : Nat} {f : Nat → Nat → Nat} (hf : ∀ x y, f x y ≤ n) : gridSum w h f ≤ n * (w * h) := by
  rw [gridSum_eq_sum]
  calc ∑ y ∈ Finset.range h, ∑ x ∈ Finset.range w, f x y
      ≤ ∑ _y ∈ Finset.range h, ∑ _x ∈ Finset.range w, n :=
        Finset.sum_le_sum fun y _ => Finset.sum_le_sum fun x _ => hf x y
    _ = n * (w * h) := by simp; ring

/-- A mean of terms at most 765 is at most 1.0 in UQ8.24 (R192). -/
theorem meanQ_le {acc cnt : Nat} (h : acc ≤ 765 * cnt) : meanQ acc cnt ≤ 0x01000000 := by
  unfold meanQ
  split
  · omega
  · refine Nat.div_le_of_le_mul ?_
    calc acc * 2 ^ Config.frac ≤ 765 * cnt * 2 ^ Config.frac := Nat.mul_le_mul_right _ h
      _ = 765 * cnt * 0x01000000 := by norm_num

/-- A percentage of a part at most the whole is at most 100.0 in UQ8.24 (R202). -/
theorem percentQ_le {part whole : Nat} (h : part ≤ whole) : percentQ part whole ≤ 0x64000000 := by
  unfold percentQ
  refine Nat.div_le_of_le_mul ?_
  have e : (2 : Nat) ^ Config.frac = 16777216 := by norm_num
  rw [e]
  omega

theorem diffCount_le (a b : List Pixel) : diffCount a b ≤ a.length := by
  refine Nat.le_trans List.countP_le_length ?_
  simp [List.length_zip]

theorem rgbDistance_le (p q : Pixel) : rgbDistance p q ≤ 765 := by
  have h (x y : Byte) : absDiff x.toNat y.toNat ≤ 255 :=
    absDiff_le (by have := x.isLt; omega) (by have := y.isLt; omega)
  have := h p.r q.r
  have := h p.g q.g
  have := h p.b q.b
  simp only [rgbDistance]
  omega

theorem sumAbsDiff_le (a b : List Pixel) : sumAbsDiff a b ≤ 765 * a.length := by
  have key : ∀ l : List (Pixel × Pixel), (l.map fun pq => rgbDistance pq.1 pq.2).sum ≤ 765 * l.length := by
    intro l
    induction l with
    | nil => simp
    | cons p l ih =>
      have := rgbDistance_le p.1 p.2
      simp only [List.map_cons, List.sum_cons, List.length_cons]
      omega
  have hlen : (List.zip a b).length ≤ a.length := by simp [List.length_zip]
  exact Nat.le_trans (key _) (by omega)

/-- The exact entropy of at most 256 equal bins is at most 8 bits (R178 (ii), (iii)). -/
theorem exactEntropy_le {c : List Nat} {k : Nat} (hc : c.length ≤ 256) (h : exactEntropy c = some k) : k ≤ 8 := by
  unfold exactEntropy at h
  split at h
  · simp at h
  · rename_i v rest hf
    split at h
    · rename_i hp
      simp only [Bool.and_eq_true, beq_iff_eq] at hp
      have hlen : rest.length + 1 ≤ 256 := by
        have := List.length_filter_le (fun v => v != 0) c
        rw [hf] at this
        simp only [List.length_cons] at this
        omega
      have hk : Nat.log2 (rest.length + 1) = k := by simpa using h
      rw [hk] at hp
      by_contra hgt
      have : 2 ^ 9 ≤ 2 ^ k := Nat.pow_le_pow_right (by omega) (by omega)
      omega
    · simp at h

/-- `entQ` is at most 8.0 in UQ8.24 (R178 (ii)). -/
theorem entQ_le {c : List Nat} (hc : c.length ≤ 256) (t : Nat) : entQ c t ≤ 0x08000000 := by
  unfold entQ
  split
  · rename_i k h
    have := exactEntropy_le hc h
    calc k * 2 ^ Config.frac ≤ 8 * 2 ^ Config.frac := Nat.mul_le_mul_right _ this
      _ = 0x08000000 := by norm_num
  · exact Nat.le_trans (Nat.min_le_right _ _) (Nat.min_le_right _ _)

end Sys2Proof.Machine
end

