-- ==== Sys2Proof/Laws/PerInstr.lean ====
section
/-! SUPPORT. A statement made instruction by instruction: the encoder's word lies in its row of the opcode table. -/

namespace Sys2Proof.Laws.EncodedRow

/-- The word of the instruction agrees with the `match` of its row under the `mask` of its row (R102), and its
reserved field is 0 (R100). -/
def Statement (i : Instr) : Prop := encode i &&& rowMask i = rowMatch i ∧ rsvField (encode i) = 0

theorem nop : Statement .nop := by constructor <;> decide
theorem xsSeed : Statement .xsSeed := by constructor <;> decide
theorem xsStep : Statement .xsStep := by constructor <;> decide
theorem ksGen (p : Buffer) : Statement (.ksGen p) := by cases p <;> constructor <;> decide
theorem streamEnc (p : Buffer) : Statement (.streamEnc p) := by cases p <;> constructor <;> decide
theorem streamDec (p : Buffer) : Statement (.streamDec p) := by cases p <;> constructor <;> decide
theorem lcgDerive : Statement .lcgDerive := by constructor <;> decide
theorem lcgNext : Statement .lcgNext := by constructor <;> decide
theorem permBuild (p : Buffer) : Statement (.permBuild p) := by cases p <;> constructor <;> decide
theorem permEnc (p : Buffer) : Statement (.permEnc p) := by cases p <;> constructor <;> decide
theorem permDec (p : Buffer) : Statement (.permDec p) := by cases p <;> constructor <;> decide
theorem hist (p : Buffer) : Statement (.hist p) := by cases p <;> constructor <;> decide
theorem entropy (p : Buffer) : Statement (.entropy p) := by cases p <;> constructor <;> decide
theorem corr (p : Buffer) : Statement (.corr p) := by cases p <;> constructor <;> decide
theorem npcrUaci : Statement .npcrUaci := by constructor <;> decide

end Sys2Proof.Laws.EncodedRow
end

