-- ==== Sys2Proof/Laws/Permutation.lean ====
section
/-! SUPPORT. The laws of the block permutation: the table is a permutation of the block indices and the inverse table
inverts it. -/

namespace Sys2Proof.Machine

@[simp] theorem swapEntries_length (t : List Nat) (i j : Nat) : (swapEntries t i j).length = t.length := by
  simp [swapEntries]

/-- A swap inside the list permutes its entries. -/
theorem swapEntries_perm (t : List Nat) (i j : Nat) (hi : i < t.length) (hj : j < t.length) :
    (swapEntries t i j).Perm t := by
  simp only [swapEntries, List.getD_eq_getElem?_getD, List.getElem?_eq_getElem hi, List.getElem?_eq_getElem hj,
    Option.getD_some]
  exact List.set_set_perm hi hj

theorem shuffleFrom_perm (i : Nat) (seed : Word) (t : List Nat) (h : i < t.length ∨ i = 0) :
    (shuffleFrom i seed t).1.Perm t := by
  induction i generalizing seed t with
  | zero => exact List.Perm.refl t
  | succ i ih =>
    have hi : i + 1 < t.length := by omega
    have hj : (lcgNext seed).toNat % (i + 2) < t.length :=
      Nat.lt_of_lt_of_le (Nat.mod_lt _ (by omega)) (by omega)
    exact (ih _ _ (.inl (by simp; omega))).trans (swapEntries_perm t _ _ hi hj)

theorem shuffle_perm (n : Nat) (seed : Word) (t : List Nat) (h : t.length = n) : (shuffle n seed t).1.Perm t :=
  shuffleFrom_perm _ _ _ (by omega)

theorem buildRounds_perm (key : List Byte) (n r : Nat) (acc : List Nat × Word) (h : acc.1.length = n) :
    (buildRounds key n r acc).1.Perm acc.1 := by
  induction r with
  | zero => exact List.Perm.refl _
  | succ r ih => exact (shuffle_perm _ _ _ (by rw [ih.length_eq, h])).trans ih

/-- The forward table is a permutation of the block indices (R159 (a)). -/
theorem buildTable_perm (key : List Byte) (n iter : Nat) : (buildTable key n iter).1.Perm (List.range n) :=
  buildRounds_perm _ _ _ _ (by simp)

@[simp] theorem buildTable_length (key : List Byte) (n iter : Nat) : (buildTable key n iter).1.length = n := by
  simpa using (buildTable_perm key n iter).length_eq

theorem foldl_set_length (f : Nat → Nat) (l inv : List Nat) :
    (l.foldl (fun inv i => inv.set (f i) i) inv).length = inv.length := by
  induction l generalizing inv with
  | nil => rfl
  | cons a l ih => simp [ih]

@[simp] theorem inverseTable_length (t : List Nat) : (inverseTable t).length = t.length := by
  simp [inverseTable, foldl_set_length]

/-- After writing `i` at `f i` for each `i` of a list, an entry written once holds what was written there. -/
theorem foldl_set_getD (f : Nat → Nat) (l inv : List Nat) (i : Nat) (hi : i ∈ l) (hlt : f i < inv.length)
    (hinj : ∀ j ∈ l, f j = f i → j = i) : (l.foldl (fun inv i => inv.set (f i) i) inv).getD (f i) 0 = i := by
  induction l using List.reverseRecOn with
  | nil => simp at hi
  | append_singleton l a ih =>
    simp only [List.foldl_append, List.foldl_cons, List.foldl_nil]
    have hlen := foldl_set_length f l inv
    by_cases ha : f a = f i
    · have hai := hinj a (by simp) ha
      subst hai
      rw [List.getD_eq_getElem?_getD, List.getElem?_set_self (by omega)]
      rfl
    · have hil : i ∈ l := by
        rcases List.mem_append.1 hi with h | h
        · exact h
        · exact absurd (congrArg f (List.mem_singleton.1 h).symm) ha
      have := ih hil fun j hj => hinj j (by simp [hj])
      rwa [List.getD_eq_getElem?_getD, List.getElem?_set_ne ha, ← List.getD_eq_getElem?_getD]

/-- The inverse table inverts a permutation of the indices: `INVTAB[PERMTAB[i]] = i` (R159 (b)). -/
theorem inverseTable_getD {t : List Nat} {n : Nat} (h : t.Perm (List.range n)) {i : Nat} (hi : i < n) :
    (inverseTable t).getD (t.getD i 0) 0 = i := by
  have hlen : t.length = n := by simpa using h.length_eq
  have hmem : ∀ j, j < n → t.getD j 0 < n := fun j hj => by
    have hj' : j < t.length := by omega
    have : t[j] ∈ List.range n := h.mem_iff.1 (List.getElem_mem hj')
    simpa [List.getD_eq_getElem?_getD, List.getElem?_eq_getElem hj'] using this
  refine foldl_set_getD (fun i => t.getD i 0) _ _ i (by simpa [hlen] using hi) (by simpa [hlen] using hmem i hi) ?_
  intro j hj e
  have hj : j < t.length := by simpa using hj
  have hi' : i < t.length := by omega
  have hnd : t.Nodup := h.nodup_iff.2 List.nodup_range
  simp only [List.getD_eq_getElem?_getD, List.getElem?_eq_getElem hj, List.getElem?_eq_getElem hi',
    Option.getD_some] at e
  exact (List.Nodup.getElem_inj_iff hnd).1 e

/-- Moving blocks keeps the number of pixels. -/
@[simp] theorem moveImage_length (key : List Byte) (tab : List Nat) (w bx : Nat) (img : List Pixel) :
    (moveImage key tab w bx img).length = img.length := by
  have : ∀ (ms : List (Nat × Nat)) (out : List Pixel),
      (ms.foldl (fun out m => out.set m.2 (substPixel key m.1 (img.getD m.1 ⟨0, 0, 0, 0⟩))) out).length = out.length := by
    intro ms
    induction ms with
    | nil => intro out; rfl
    | cons m ms ih => intro out; rw [List.foldl_cons, ih, List.length_set]
  exact this _ _

end Sys2Proof.Machine
end

