-- ==== Sys2Proof/Tests/Slice0.lean ====
section
/-! SUPPORT. The model's own tests: ill-formed terms, decoding of words written out bit by bit, vectors of
`spec/95_test_vectors.md`, and one witness for the hypotheses of every obligation that has some. -/

namespace Sys2Proof.Tests

open Sys2Proof.Machine Sys2Proof.Spec

/-! ## Well-formedness: each check refuses an ill-formed term -/

theorem test_narrow_read_illformed : (HostEvent.rd 0x0000004 .w8).wellFormed = false := by decide
theorem test_misaligned_read_illformed : (HostEvent.rd 0x0000006 .w32).wellFormed = false := by decide
theorem test_burst_write_illformed : (HostEvent.wr 0x0000004 .burst 0).wellFormed = false := by decide
theorem test_misaligned_write_illformed : (HostEvent.wr 0x0000001 .w32 0).wellFormed = false := by decide
theorem test_script_write_misaligned : (ScriptLine.wr 0x0000002 0).wellFormed = false := by decide
theorem test_script_read_misaligned : (ScriptLine.rd 0x0000003).wellFormed = false := by decide
theorem test_setkey_empty_illformed : (ScriptLine.setKey []).wellFormed = false := by decide
theorem test_setkey_long_illformed : (ScriptLine.setKey (List.replicate 33 0)).wellFormed = false := by decide
theorem test_setiv_long_illformed : (ScriptLine.setIv (List.replicate 33 0)).wellFormed = false := by decide
theorem test_fill_long_illformed : (ScriptLine.fill .bufB 0 0x3800001).wellFormed = false := by decide
theorem test_wellformed_terms : (HostEvent.rd 0x0000004 .w32).wellFormed = true ∧
    (ScriptLine.setKey [1]).wellFormed = true ∧ (ScriptLine.setIv []).wellFormed = true := by decide

/-! ## Decoding: `RSV` 31:9, `SEL` 8, `OPC` 7:0, written out (R100, R102) -/

theorem test_decode_nop : decode 0b00000000000000000000000_0_00000000 = .ok .nop := by decide
theorem test_decode_xs_seed : decode 0b00000000000000000000000_0_00000001 = .ok .xsSeed := by decide
theorem test_decode_xs_step : decode 0b00000000000000000000000_0_00000010 = .ok .xsStep := by decide
theorem test_decode_ks_gen : decode 0b00000000000000000000000_1_00000011 = .ok (.ksGen .bufB) := by decide
theorem test_decode_stream_enc : decode 0b00000000000000000000000_0_00000100 = .ok (.streamEnc .bufA) := by decide
theorem test_decode_stream_dec : decode 0b00000000000000000000000_1_00000101 = .ok (.streamDec .bufB) := by decide
theorem test_decode_lcg_derive : decode 0b00000000000000000000000_0_00010000 = .ok .lcgDerive := by decide
theorem test_decode_lcg_next : decode 0b00000000000000000000000_0_00010001 = .ok .lcgNext := by decide
theorem test_decode_perm_build : decode 0b00000000000000000000000_0_00010010 = .ok (.permBuild .bufA) := by decide
theorem test_decode_perm_enc : decode 0b00000000000000000000000_0_00010011 = .ok (.permEnc .bufA) := by decide
theorem test_decode_perm_dec : decode 0b00000000000000000000000_1_00010100 = .ok (.permDec .bufB) := by decide
theorem test_decode_hist : decode 0b00000000000000000000000_0_00100000 = .ok (.hist .bufA) := by decide
theorem test_decode_entropy : decode 0b00000000000000000000000_1_00100001 = .ok (.entropy .bufB) := by decide
theorem test_decode_corr : decode 0b00000000000000000000000_0_00100010 = .ok (.corr .bufA) := by decide
theorem test_decode_npcr_uaci : decode 0b00000000000000000000000_0_00100011 = .ok .npcrUaci := by decide
theorem test_decode_reserved_bit : decode 0b00000000000000000000001_0_00000000 = .error .reservedBits := by decide
theorem test_decode_unlisted : decode 0b00000000000000000000000_0_00010101 = .error .unlistedOpcode := by decide
theorem test_decode_sel_refused : decode 0b00000000000000000000000_1_00100011 = .error .selNotAllowed := by decide
theorem test_table_word : decodeTableWord 32 0x113 = some (.permEnc .bufB) ∧ decodeTableWord 32 0x06 = none := by decide

/-! ## Small states -/

/-- A field of the next state. -/
def got {α : Type} (o : Host.Outcome State Fault Refusal) (f : State → α) : Option α :=
  match o with
  | .next t => some (f t)
  | .fault _ => none
  | .refused _ => none

/-- The test key, 74 62 7D 61 68 46 59 45 4C 5A 35 39 20 3E 11 1D, loaded. -/
def keyed : State :=
  { State.reset with
    keyLen := 16
    key := ⟨0x617D6274, 0x45594668, 0x39355A4C, 0x1D113E20, 0, 0, 0, 0⟩ }

/-- Words written to a buffer from its first byte on. -/
def filled (s : State) (b : Buffer) (words : List Word) : State := s.store b.base (words.flatMap laneBytes)

/-- Dimensions of both buffers. -/
def sized (s : State) (w h : BitVec 16) : State := { s with aW := w, aH := h, bW := w, bH := h }

/-- The image M of V-HE-1, 2 x 2, in `BUFA` and its altered copy of V-NU-1 in `BUFB`. -/
def pair : State :=
  filled (filled (sized State.reset 2 2) .bufA [0xFF1E140A, 0xFF3C3228, 0x00000000, 0x07FFFFFF]) .bufB
    [0x001E140A, 0xFF3D3228, 0x09000000, 0x07FFFFFF]

/-- The 16 x 16 image of V-PERM-4 in `BUFA`, with the test key and `ITER = 1`. -/
def squares : State :=
  filled { sized keyed 16 16 with iter := 1 } .bufA ((List.range 256).map fun k =>
    word (k % 16 + 256 * (k / 16) + 65536 * ((k % 16) ^^^ (k / 16)) + 0xFF000000))

/-! ## Vectors -/

/-- P3: `NOP` after a failed command. -/
theorem test_nop : got (exec .nop { State.reset with status := ⟨false, true, false, true, 3⟩ })
    (fun t => t.readReg .status) = some 0x00000009 := by decide

/-- V-KS-1, row 4: a 10-byte key and a 3-byte IV. -/
theorem test_xs_seed : got (exec .xsSeed { State.reset with
    keyLen := 10, key := ⟨0x04030201, 0x08070605, 0x0A09, 0, 0, 0, 0, 0⟩,
    ivLen := 3, iv := ⟨0x00332211, 0, 0, 0, 0, 0, 0, 0⟩ }) (fun t => t.xs) =
    some ⟨0x00000602, 0x00000E02, 0x00002222, 0⟩ := by decide

/-- V-KS-1, row 10: `IVLEN = 33`. -/
theorem test_xs_seed_long_iv : got (exec .xsSeed { keyed with ivLen := 33 }) (fun t => t.readReg .status) =
    some 0x0000070A := by decide

/-- V-KS-2, fourth row: the logical right shift. -/
theorem test_xs_step : got (exec .xsStep { State.reset with xs := ⟨0xFFFFFFFF, 0xFFFFFFFF, 5, 6⟩ })
    (fun t => (t.xs, t.ksWord)) = some (⟨0xFF000000, 0xFF800000, 5, 6⟩, 0xFF000000) := by decide

/-- V-KS-3, `KS_LEN = 7`: the host's view of the bytes, and the byte left alone. -/
theorem test_ks_gen : got (exec (.ksGen .bufA) { filled keyed .bufA [0xAAAAAAAA, 0xAAAAAAAA] with ksLen := 7 })
    (fun t => (t.wordAt 0x1000000, t.wordAt 0x1000004, t.xs.x0, t.xs.x1)) =
    some (0xF0840009, 0xAAFC01EB, 0xEB01FC52, 0xF580FE29) := by decide +kernel

/-- V-KS-7, cut to the first two pixels. -/
theorem test_stream_enc : got (exec (.streamEnc .bufB)
    (filled { sized keyed 2 1 with aW := 0 } .bufB [0x11223344, 0x11223344]))
    (fun t => (t.wordAt 0x2000000, t.wordAt 0x2000004)) = some (0xE1A6334D, 0x43DE32AF) := by decide +kernel

/-- V-KS-8: the checked length differs. -/
theorem test_stream_dec_length : got (exec (.streamDec .bufA) { sized keyed 16 16 with chkLen := true, origLen := 1020 })
    (fun t => (t.readReg .status, t.xs)) = some (0x0000020A, ⟨0, 0, 0, 0⟩) := by decide

/-- V-SRC-1, cut to the first two pixels, decrypted. -/
theorem test_stream_dec : got (exec (.streamDec .bufA) (filled (sized keyed 2 1) .bufA [0x0F840009, 0xADFC01EB]))
    (fun t => (t.wordAt 0x1000000, t.wordAt 0x1000004)) = some (0xFF000000, 0xFF000000) := by decide +kernel

/-- V-LCG-1, second row. -/
theorem test_lcg_derive : got (exec .lcgDerive { State.reset with
    keyLen := 3, key := ⟨0x00030201, 0, 0, 0, 0, 0, 0, 0⟩, ivLen := 2, iv := ⟨0x00000504, 0, 0, 0, 0, 0, 0, 0⟩ })
    (fun t => t.lcgSeed) = some 0x0004868B := by decide

/-- V-LCG-2: the absolute value of the most negative number. -/
theorem test_lcg_next : got (exec .lcgNext { State.reset with lcgSeed := 0xA5D60FE5 }) (fun t => t.lcgSeed) =
    some 0x80000000 := by decide

/-- V-LCG-2, third row: a negative sum. -/
theorem test_lcg_next_negative : got (exec .lcgNext { State.reset with lcgSeed := 0x7FFFFFFF }) (fun t => t.lcgSeed) =
    some 0x43AA72AE := by decide

/-- V-PERM-1, `ITER = 3`. -/
theorem test_perm_build : got (exec (.permBuild .bufA) { sized keyed 16 16 with iter := 3 })
    (fun t => ((List.range 4).map t.permEntry, (List.range 4).map t.invEntry, t.nBlocks, t.lcgSeed)) =
    some ([2, 3, 1, 0], [3, 2, 0, 1], 4, 0x27BACF99) := by decide +kernel

/-- V-PERM-8: the first of several errors. -/
theorem test_perm_build_priority : got (exec (.permBuild .bufA) (sized keyed 4 4)) (fun t => t.readReg .status) =
    some 0x0000030A := by decide

/-- V-PERM-4: block 3 lands at block 1, block 1 at block 2. -/
theorem test_perm_enc : got (exec (.permEnc .bufA) { squares with bW := 0 })
    (fun t => (t.wordAt 0x2000024, t.wordAt 0x2000204, t.bW)) = some (0xFF584E61, 0xFF504661, 16) := by decide +kernel

/-- P2: the one-colour image through `PERM_DEC.B`. -/
theorem test_perm_dec : got (exec (.permDec .bufB)
    (filled { sized keyed 8 8 with iter := 1 } .bufB
      ((List.range 64).map fun k => [0xFF7D6274, 0xFF594668, 0xFF355A4C, 0xFF113E20].getD (k % 4) 0)))
    (fun t => (t.wordAt 0x1000000, t.wordAt 0x10000FC)) = some (0xFF000000, 0xFF000000) := by decide +kernel

/-- V-HE-1. -/
theorem test_hist : got (exec (.hist .bufA) pair)
    (fun t => (t.wordAt (0x1000 + 4 * 10), t.wordAt (0x1400 + 4 * 50), t.wordAt (0x1800 + 4 * 61), t.wordAt 0x1800)) =
    some (1, 1, 0, 1) := by decide +kernel

/-- V-SRC-4, cut to one pixel: one colour has entropy 0 exactly. -/
theorem test_entropy_one_colour : got (exec (.entropy .bufA) (filled (sized State.reset 1 1) .bufA [0x12070707]))
    (fun t => (t.ent.q, t.ent.t)) = some (0, 3) := by decide +kernel

/-- R178 (iii): two values, equally often. -/
theorem test_entropy_one_bit : got (exec (.entropy .bufA) (filled (sized State.reset 2 1) .bufA [0, 0x00070707]))
    (fun t => (t.ent.q, t.ent.t)) = some (0x01000000, 6) := by decide +kernel

/-- V-HE-1: the reference value of image M is within the limits put on the free value. -/
theorem test_entropy_limits : entMin (3 :: 3 :: List.replicate 6 1) 12 = 0x02CAE00D + 1 - 256 ∧
    entMax (3 :: 3 :: List.replicate 6 1) 12 = 0x02CAE00D + 256 := by decide +kernel

/-- R194. -/
theorem test_corr : got (exec (.corr .bufA) pair) (fun t => (t.corrH, t.corrV, t.corrD, t.status.empty)) =
    some (⟨855, 2, 0x008F0F0F⟩, ⟨675, 2, 0x0070F0F0⟩, ⟨705, 1, 0x00EBEBEB⟩, false) := by decide +kernel

/-- P5: one column, so two directions have no pair. -/
theorem test_corr_empty : got (exec (.corr .bufB) { pair with bW := 1, bH := 3 })
    (fun t => (t.corrH, t.corrV, t.status.empty)) = some (⟨0, 0, 0⟩, ⟨242, 2, 0x00287DD3⟩, true) := by decide +kernel

/-- R204 (a). -/
theorem test_npcr_uaci : got (exec .npcrUaci pair) (fun t => t.diff) = some ⟨1, 4, 0x19000000, 1, 0x00085DB3⟩ := by
  decide +kernel

/-- P5: 4 pixels against 3. -/
theorem test_npcr_uaci_mismatch : got (exec .npcrUaci { pair with bW := 1, bH := 3 }) (fun t => t.readReg .status) =
    some 0x0000050A := by decide

/-- R120: the key of the word `test`. -/
theorem test_derive_key : (deriveKey ['t', 'e', 's', 't']).toOption = some
    [0x74, 0x62, 0x7D, 0x61, 0x68, 0x46, 0x59, 0x45, 0x4C, 0x5A, 0x35, 0x39, 0x20, 0x3E, 0x11, 0x1D] := by
  decide +kernel

/-- R204 (a), R126: NPCR 25.0 and UACI as rationals. -/
theorem test_api_output : got (exec .npcrUaci pair) (apiOutput .computeNPCRUACI .bufA) =
    some (.ok (.values [25, 0x00085DB3 / 0x1000000])) := by decide +kernel

/-- P3, R220: a failed `permutationEncrypt` gives no output. -/
theorem test_api_failure : got (exec (.permEnc .bufA) (sized keyed 4 4)) (apiOutput .permutationEncrypt .bufA) =
    some (.error 3) := by decide

/-- P4: an illegal word is stored in `CMD` and reported, as the first step after reset. -/
theorem test_illegal_word_step : got (step (State.reset.withFetchWord 32 0x111))
    (fun t => (t.readReg .status, t.readReg .cmd, t.lcgSeed)) = some (0x0000060A, 0x00000111, 0) := by decide

/-- R251: `LCG_NEXT` as the first step after reset. -/
theorem test_first_step : got (step (State.reset.withFetchWord 32 0x11)) (fun t => t.lcgSeed) = some 0x3C6EF35F := by
  decide

/-- R262, R75: the expansion of `SETKEY 01 02 03 04 05`. -/
theorem test_setkey_lanes : (expandLine (.setKey [1, 2, 3, 4, 5])).take 3 =
    [.wr 0x0000010 .w32 5, .wr 0x0000040 .w32 0x04030201, .wr 0x0000044 .w32 0x00000005] := by decide

/-! ## Witnesses: states and operands that meet the hypotheses of each obligation, clause by clause -/

/-- Reset with one event pending. -/
def pending (e : HostEvent) : State := { State.reset with script := [e] }

/-- An answer before, and the test key, so that the witnesses are not about the reset state alone. -/
def busy : State := { sized keyed 8 8 with iter := 1, ivLen := 32, answers := [.written], xs := ⟨1, 2, 3, 4⟩ }

theorem witness_ResetEventRestoresRegisters : { busy with script := [.reset, .reset] }.script = .reset :: [HostEvent.reset] := rfl

theorem witness_ResetStateInert : Instr.corr .bufB ≠ .nop ∧ Instr.corr .bufB ≠ .xsStep ∧ Instr.corr .bufB ≠ .lcgNext := by
  decide +kernel

theorem witness_DecodeEncodeAgree : (Instr.permDec .bufB).wellFormed = true ∧ decode 0x114 = .ok (.permDec .bufB) := by
  decide +kernel

theorem witness_LegalWordsExactly : legalWord 0x122 ∧ ¬legalWord 0x123 ∧ ¬legalWord 0x24 ∧ ¬legalWord 0x200 := by
  refine ⟨⟨by decide, true, by decide, by decide⟩, ?_, ?_, ?_⟩
  · rintro ⟨-, sel, h1, h2⟩
    have : opcodeRow ((0x123 : Word).toNat % 256) = some false := by decide
    rw [this] at h1
    have := h2 (by decide)
    simp_all
  · rintro ⟨-, sel, h1, -⟩
    have : opcodeRow ((0x24 : Word).toNat % 256) = none := by decide
    rw [this] at h1
    exact absurd h1 (by simp)
  · rintro ⟨h, -⟩
    exact absurd h (by decide)

theorem witness_StepRunsDecodedCommand :
    (pending (cmdWrite 0x103)).script = cmdWrite 0x103 :: [] ∧ decode 0x103 = .ok (.ksGen .bufB) := by decide

theorem witness_IllegalWordReported : (pending (cmdWrite 0x123)).script = cmdWrite 0x123 :: [] ∧ ¬legalWord 0x123 :=
  ⟨rfl, witness_LegalWordsExactly.2.1⟩

theorem witness_CommandLineRunsCommand :
    (pending (cmdWrite 0x121)).script = expandLine (.command (.entropy .bufB)) ++ [] := by decide

theorem witness_IdleKeepsState : busy.script = [] := rfl

theorem witness_RegisterMapOffsets : (0x034 < 0x1000 ∧ 0x034 ∉ allRegs.map Reg.offset) ∧
    (0xFFC < 0x1000 ∧ 0xFFC ∉ allRegs.map Reg.offset) := by decide

theorem witness_ReadHasNoSideEffect : (pending (.rd 0x00000F4 .w32)).script = .rd 0x00000F4 .w32 :: [] ∧
    (0x00000F4 : BusAddr).toNat = Reg.offset .uaciQ := by decide

theorem witness_ReadIsLittleEndian : (∀ a, (pending (.rd a .w32)).script = .rd a .w32 :: []) ∧
    ((0x0001000 : BusAddr).toNat % 4 = 0 ∧ inTableOrBuffer (0x0001000 : BusAddr).toNat) ∧
    ((0x0001BFC : BusAddr).toNat % 4 = 0 ∧ inTableOrBuffer (0x0001BFC : BusAddr).toNat) ∧
    ((0x004FFFC : BusAddr).toNat % 4 = 0 ∧ inTableOrBuffer (0x004FFFC : BusAddr).toNat) ∧
    ((0x0080000 : BusAddr).toNat % 4 = 0 ∧ inTableOrBuffer (0x0080000 : BusAddr).toNat) ∧
    ((0x13FFFFC : BusAddr).toNat % 4 = 0 ∧ inTableOrBuffer (0x13FFFFC : BusAddr).toNat) ∧
    ((0x23FFFFC : BusAddr).toNat % 4 = 0 ∧ inTableOrBuffer (0x23FFFFC : BusAddr).toNat) := by
  refine ⟨fun _ => rfl, ?_⟩
  simp [inTableOrBuffer, Config.maxBlocks, Config.bufBytes]

theorem witness_BusErrorExactly_bad : (∀ a v, (pending (.wr a .w32 v)).script = .wr a .w32 v :: []) ∧
    badTransaction 0x0002000 .w32 ∧
    badTransaction 0x003FFFC .w32 ∧
    badTransaction 0x0050000 .w32 ∧
    badTransaction 0x007FFFC .w32 ∧
    badTransaction 0x0090000 .w32 ∧
    badTransaction 0x0FFFFFC .w32 ∧
    badTransaction 0x1400000 .w32 ∧
    badTransaction 0x1FFFFFC .w32 ∧
    badTransaction 0x2400000 .w32 ∧
    badTransaction 0xFFFFFFC .w32 := by
  refine ⟨fun _ _ => rfl, ?_⟩
  simp [badTransaction, unmapped]

theorem witness_BusErrorExactly_shape : badTransaction 0x0000004 .w64 ∧ badTransaction 0x1000001 .w32 := by
  simp only [badTransaction, unmapped]
  decide +kernel

theorem witness_BusErrorExactly_good :
    ¬badTransaction 0x0000000 .w32 ∧
    ¬badTransaction 0x0001FFC .w32 ∧
    ¬badTransaction 0x0040000 .w32 ∧
    ¬badTransaction 0x004FFFC .w32 ∧
    ¬badTransaction 0x0080000 .w32 ∧
    ¬badTransaction 0x008FFFC .w32 ∧
    ¬badTransaction 0x1000000 .w32 ∧
    ¬badTransaction 0x13FFFFC .w32 ∧
    ¬badTransaction 0x2000000 .w32 ∧
    ¬badTransaction 0x23FFFFC .w32 := by
  simp [badTransaction, unmapped]

theorem witness_HostWriteStoresWritableBits : Reg.keyLen ≠ .cmd ∧ Reg.keyLen ≠ .status ∧
    (pending (.wr 0x0000010 .w32 0xFFFFFFFF)).script = .wr (BitVec.ofNat 28 (Reg.offset .keyLen)) .w32 0xFFFFFFFF :: [] := by
  decide +kernel

theorem witness_UnmappedReadOnlyReserved : unmapped (0x0002000 : BusAddr).toNat ∧
    (readOnly .id ∧ (0x0000000 : BusAddr).toNat = Reg.offset .id) ∧ tableEntry (0x008FFFC : BusAddr).toNat ∧
    reservedWord (0x0001C00 : BusAddr).toNat ∧ reservedWord (0x0000FFC : BusAddr).toNat := by
  refine ⟨by unfold unmapped; decide, ⟨⟨by decide, by decide, rfl⟩, by decide⟩, by unfold tableEntry; decide,
    ⟨by decide, .inr (by decide)⟩, ⟨by decide, .inl ⟨by decide, ?_⟩⟩⟩
  intro r
  cases r <;> decide

theorem witness_UnmappedReadOnlyReserved_events :
    (pending (.rd 0x0002000 .w32)).script = .rd 0x0002000 .w32 :: [] ∧
      (pending (.wr 0x0002000 .w32 7)).script = .wr 0x0002000 .w32 7 :: [] := ⟨rfl, rfl⟩

theorem witness_StatusWriteClearsStickyOnly :
    (pending (.wr 0x0000008 .w32 8)).script = .wr 0x0000008 .w32 8 :: [] := rfl

theorem witness_BufferWriteThenRead :
    (∀ a, { busy with script := [.wr a .w32 7, .rd a .w32] }.script = .wr a .w32 7 :: .rd a .w32 :: []) ∧
    ((0x2000000 : BusAddr).toNat % 4 = 0 ∧ inBuffer .bufB 4194304 (0x2000000 : BusAddr).toNat) ∧
    ((0x23FFFFC : BusAddr).toNat % 4 = 0 ∧ inBuffer .bufB 4194304 (0x23FFFFC : BusAddr).toNat) := by
  refine ⟨fun _ => rfl, ?_⟩
  simp only [inBuffer]
  decide

theorem witness_FailureChangesOnlyStatus : exec .xsSeed State.reset = .next (failedState State.reset .invalidKey) ∧
    (failedState State.reset .invalidKey).status.err = true := ⟨rfl, rfl⟩

theorem witness_FailureRepeats : exec .npcrUaci State.reset = .next (failedState State.reset .badParameter) ∧
    (failedState State.reset .badParameter).status.err = true := ⟨rfl, rfl⟩

/-- The clause on illegal words has `witness_LegalWordsExactly`. This state gives each cause to some command. -/
theorem witness_FirstErrorReported_causes :
    cause State.reset (.ksGen .bufA) .invalidKey ∧ cause { keyed with ksLen := 4194305 } (.ksGen .bufA) .badParameter ∧
      cause { keyed with keyLen := 33 } .xsSeed .badParameter ∧ cause { keyed with ivLen := 33 } .lcgDerive .badParameter ∧
      cause (sized keyed 7 8) (.permEnc .bufB) .imageTooSmall ∧
      cause (sized keyed 8 8) (.permDec .bufA) .invalidIterationCount ∧
      cause { sized keyed 8 8 with bH := 7 } .npcrUaci .dimensionMismatch ∧
      cause { sized keyed 8 8 with chkLen := true, origLen := 255 } (.streamDec .bufA) .bufferLengthMismatch ∧
      cause (sized keyed 1025 1024) (.hist .bufA) .badParameter := by
  refine ⟨⟨trivial, by decide⟩, .inr (.inr (.inr ⟨_, rfl, by decide⟩)), .inl ⟨trivial, by decide⟩,
    .inr (.inl ⟨trivial, by decide⟩), ⟨.bufB, .inr (.inl rfl), by decide⟩, ⟨.bufA, .inr (.inr rfl), by decide⟩,
    ⟨rfl, by decide⟩, ⟨.bufA, rfl, by decide⟩, .inr (.inr (.inl ⟨.bufA, rfl, by unfold plen; decide⟩))⟩

/-- `ITER = 0` is the first cause for `PERM_BUILD` on a legal image with a legal key. -/
theorem witness_FirstErrorReported_first : cause (sized keyed 8 8) (.permBuild .bufA) .invalidIterationCount ∧
    ∀ e', priority e' < priority .invalidIterationCount → ¬cause (sized keyed 8 8) (.permBuild .bufA) e' := by
  refine ⟨⟨.bufA, .inl rfl, by decide⟩, ?_⟩
  intro e' he
  cases e' <;> simp [priority, cause, readsKey, readsIv, usesDims, permutes, plen, sized, keyed, State.width,
    State.height] at he ⊢

theorem witness_FirstErrorReported_none : ∀ e, ¬cause busy (.permEnc .bufA) e := by
  intro e
  cases e <;> simp [cause, readsKey, readsIv, usesDims, permutes, plen, busy, sized, keyed, State.width, State.height]

theorem witness_CommandsIgnoreStatusAndCmd : exec .xsStep busy =
    .next { busy with xs := xsStep busy.xs, ksWord := (xsStep busy.xs).x0, status := doneStatus busy.status } := rfl

theorem witness_CommandsKeepHostRegisters : ∃ t, exec (.permEnc .bufA) { busy with bW := 0 } = .next t ∧
    t.width .bufB ≠ State.width { busy with bW := 0 } .bufB :=
  ⟨_, exec_of_none (by decide), by decide +kernel⟩

theorem witness_CommandsWriteTheirBuffersOnly : ∃ t, exec (.streamEnc .bufA) (filled (sized keyed 1 1) .bufA [0]) = .next t ∧
    inBuffer .bufA 4194304 0x1000000 ∧ t.byteAt 0x1000000 ≠ (filled (sized keyed 1 1) .bufA [0]).byteAt 0x1000000 :=
  ⟨_, exec_of_none (by decide), by unfold inBuffer; decide, by decide +kernel⟩

theorem witness_StickyClearedOnlyByHost : ∃ t,
    step { pending (.wr 0x0000008 .w32 8) with status := ⟨true, false, false, true, 0⟩ } = .next t ∧
      t.status.sticky = false := ⟨_, rfl, by decide⟩

theorem witness_CommandEndsDoneOrErr : ∃ t, exec .nop busy = .next t := ⟨_, rfl⟩

/-- Legal lengths at both ends of their ranges. (The premises of the error clause, `errorsReported`, that this and the
following results share are those of `FirstErrorReported`.) -/
theorem witness_XsSeedResult : (keyLegal { State.reset with keyLen := 1 } ∧ ivLegal { State.reset with keyLen := 1 }) ∧
    keyLegal { State.reset with keyLen := 32, ivLen := 32 } ∧ ivLegal { State.reset with keyLen := 32, ivLen := 32 } := by
  simp only [keyLegal, ivLegal]
  decide +kernel

theorem witness_KsGenResult : keyLegal keyed ∧ ivLegal keyed ∧
    { keyed with ksLen := 0 }.ksLen.toNat ≤ 4194304 ∧ { keyed with ksLen := 4194304 }.ksLen.toNat ≤ 4194304 := by
  simp only [keyLegal, ivLegal]
  decide

/-- Legal images at the ends of the range. -/
theorem witness_StreamEncResult : keyLegal (sized keyed 1 1) ∧ ivLegal (sized keyed 1 1) ∧
    dimsLegal (sized keyed 1 1) .bufA ∧ dimsLegal (sized keyed 1024 1024) .bufB ∧
    dimsLegal (sized keyed 65535 16) .bufA ∧ dimsLegal (sized keyed 1 65535) .bufB := by
  simp only [keyLegal, ivLegal, dimsLegal]
  decide

theorem witness_StreamDecResult : lengthAgrees (sized keyed 2 1) .bufA ∧
    lengthAgrees { sized keyed 2 1 with chkLen := true, origLen := 8 } .bufA ∧
    ¬lengthAgrees { sized keyed 2 1 with chkLen := true, origLen := 7 } .bufA := by
  simp only [lengthAgrees]
  decide +kernel

theorem witness_StreamRoundTrip : keyLegal busy ∧ ivLegal busy ∧ dimsLegal busy .bufB ∧ lengthAgrees busy .bufB := by
  simp only [keyLegal, ivLegal, dimsLegal, lengthAgrees]
  decide +kernel

/-- The same first 8 key bytes, another tail, key length and IV. -/
theorem witness_KeystreamIgnoresIv :
    let key : WordFile := ⟨0x617D6274, 0x45594668, 7, 0, 0, 0, 0, 0⟩
    let iv : WordFile := ⟨1, 2, 3, 4, 5, 6, 7, 8⟩
    (keyLegal busy ∧ ivLegal busy ∧ dimsLegal busy .bufA) ∧
      keyLegal { busy with key := key, iv := iv, keyLen := 9, ivLen := 0 } ∧
      ivLegal { busy with key := key, iv := iv, keyLen := 9, ivLen := 0 } ∧
      ∀ i < 8, keyOr0 busy i = keyOr0 { busy with key := key, iv := iv, keyLen := 9, ivLen := 0 } i := by
  simp only [keyLegal, ivLegal, dimsLegal]
  decide +kernel

theorem witness_AlphaLowBitKept : (keyLegal busy ∧ ivLegal busy ∧ dimsLegal busy .bufA) ∧
    63 < busy.width .bufA * busy.height .bufA := by
  simp only [keyLegal, ivLegal, dimsLegal]
  decide +kernel

/-- R256: the one-byte key 00, and the pattern a b a b c d c d. -/
theorem witness_ZeroSeedEncryptsNothing :
    let s : State := { sized State.reset 1 1 with keyLen := 1 }
    let t : State := { sized State.reset 1 1 with key := ⟨0x0B0A0B0A, 0x0D0C0D0C, 0, 0, 0, 0, 0, 0⟩, keyLen := 8 }
    (keyLegal s ∧ ivLegal s ∧ dimsLegal s .bufA ∧ keyOr0 s 0 = keyOr0 s 2 ∧ keyOr0 s 1 = keyOr0 s 3 ∧
      keyOr0 s 4 = keyOr0 s 6 ∧ keyOr0 s 5 = keyOr0 s 7 ∧ s.xs.x0 = 0 ∧ s.xs.x1 = 0) ∧
    keyLegal t ∧ ivLegal t ∧ dimsLegal t .bufB ∧ keyOr0 t 0 = keyOr0 t 2 ∧ keyOr0 t 1 = keyOr0 t 3 ∧
      keyOr0 t 4 = keyOr0 t 6 ∧ keyOr0 t 5 = keyOr0 t 7 := by
  simp only [keyLegal, ivLegal, dimsLegal]
  decide

/-- One block, and the most blocks and rounds. -/
theorem witness_PermBuildResult : permLegal busy .bufA ∧ permLegal { sized busy 1024 1024 with iter := 0xFFFFFFFF } .bufB := by
  simp only [permLegal, keyLegal, dimsLegal]
  decide +kernel

theorem witness_PermEncResult : permLegal busy .bufA ∧ permLegal { sized busy 8 15 with keyLen := 1 } .bufB := by
  simp only [permLegal, keyLegal, dimsLegal]
  decide

theorem witness_PermDecResult : permLegal busy .bufB ∧ permLegal { sized busy 17 9 with keyLen := 32 } .bufA := by
  simp only [permLegal, keyLegal, dimsLegal]
  decide

theorem witness_PermRoundTrip : permLegal busy .bufB ∧ 32 % busy.keyLen.toNat = 0 ∧
    permLegal { busy with keyLen := 32 } .bufA ∧ 32 % (32 : BitVec 6).toNat = 0 := by
  simp only [permLegal, keyLegal, dimsLegal]
  decide +kernel

theorem witness_LcgDeriveResult : keyLegal busy ∧ ivLegal busy ∧ keyLegal { busy with keyLen := 1, ivLen := 0 } ∧
    ivLegal { busy with keyLen := 1, ivLen := 0 } := by
  simp only [keyLegal, ivLegal]
  decide

theorem witness_HistResult : dimsLegal pair .bufA ∧ dimsLegal (sized State.reset 1 1) .bufB := by
  simp only [dimsLegal]
  decide

theorem witness_EntropyResult : dimsLegal pair .bufB ∧ dimsLegal (sized State.reset 1024 1024) .bufA := by
  simp only [dimsLegal]
  decide

theorem witness_CorrResult : dimsLegal pair .bufA ∧ dimsLegal (sized State.reset 1 65535) .bufB := by
  simp only [dimsLegal]
  decide

/-- One value only: `E = 0`, and the values 0 and 256 are allowed. -/
theorem witness_EntropyFunction :
    let c : List Nat := 3 :: List.replicate 255 0
    c.length = 256 ∧ 0 < c.sum ∧ ((∀ x ∈ c, x = 0 ∨ x = 3) ∧ (c.filter fun x => x ≠ 0).length = 2 ^ 0) ∧
      (256 ≤ 0x08000000 ∧ |((256 : Nat) : ℝ) - entropyUnits (fun v => c.getD v 0) c.sum| ≤ 256) := by
  refine ⟨by decide +kernel, by decide +kernel, by decide +kernel, by decide, ?_⟩
  have hs : (3 :: List.replicate 255 0).sum = 3 := by decide +kernel
  have hl : ∀ v, (List.replicate 255 0).getD v 0 = 0 := by
    intro v
    rw [List.getD_eq_getElem?_getD, List.getElem?_replicate]
    split <;> rfl
  have key : entropyUnits (fun v => (3 :: List.replicate 255 0).getD v 0) 3 = 0 := by
    unfold entropyUnits
    rw [Finset.sum_eq_zero, zero_mul]
    intro v _
    cases v with
    | zero => norm_num
    | succ v =>
      exact if_pos (hl v)
  simp only [hs, key]
  norm_num

theorem witness_NpcrUaciResult : ∀ s ∈ [sized State.reset 1 1, { sized State.reset 4 2 with bW := 2, bH := 4 }],
    dimsLegal s .bufA ∧ dimsLegal s .bufB ∧ s.width .bufA * s.height .bufA = s.width .bufB * s.height .bufB := by
  simp only [dimsLegal]
  decide +kernel

/-- A state with memory, a command pending, and tables of two blocks: the premises of the invariants. -/
def tabled : State :=
  { State.reset with
    mem := Memory.cells 0x40000 [1, 0, 0, 0, 0, 0, 0, 0] ++ Memory.cells 0x80000 [1, 0, 0, 0, 0, 0, 0, 0]
    nBlocks := 2
    status := ⟨false, true, false, true, 1⟩
    script := [cmdWrite 0] }

theorem witness_StepKeepsMemory : Memory.wf tabled.mem ∧ memoryMapped tabled ∧ ∃ t, step tabled = .next t := by
  refine ⟨by decide, ?_, _, rfl⟩
  simp only [memoryMapped, inTableOrBuffer]
  decide +kernel

theorem witness_StepKeepsStatusCoherent : tabled.status.coherent ∧ ∃ t, step tabled = .next t := by
  refine ⟨?_, _, rfl⟩
  simp only [Status.coherent]
  decide +kernel

theorem witness_StepKeepsTablesInverse : tablesInverse tabled ∧ ∃ t, step tabled = .next t := by
  refine ⟨?_, _, rfl⟩
  simp only [tablesInverse]
  decide +kernel

theorem witness_StepKeepsResultsInRange :
    resultsInRange { tabled with ent := ⟨0x08000000, 3⟩, diff := ⟨4, 4, 0x64000000, 3060, 0x64000000⟩ } ∧
      ∃ t, step { tabled with ent := ⟨0x08000000, 3⟩, diff := ⟨4, 4, 0x64000000, 3060, 0x64000000⟩ } = .next t := by
  refine ⟨?_, _, rfl⟩
  simp only [resultsInRange]
  decide +kernel

theorem witness_SetKeyAndIvLoadBytes : ∀ bytes ∈ [[0xAB], List.replicate 32 (0x11 : Byte)],
    1 ≤ bytes.length ∧ bytes.length ≤ 32 ∧
      { busy with script := expandLine (.setKey bytes) ++ [HostEvent.reset] }.script = expandLine (.setKey bytes) ++ [HostEvent.reset] := by
  decide +kernel

theorem witness_SetKeyAndIvLoadBytes_iv : ∀ bytes ∈ [[], List.replicate 32 (0x11 : Byte)], bytes.length ≤ 32 ∧
    { busy with script := expandLine (.setIv bytes) ++ [] }.script = expandLine (.setIv bytes) ++ [] := by
  decide +kernel

theorem witness_DeriveKeyResult : (passphraseBytes []).length = 0 ∧ (passphraseBytes ['k', 'ü']).length ≠ 0 ∧ 39 < 40 := by
  decide +kernel

theorem witness_FlipSingleBitTogglesOne : 0 < 8 * [(0x74 : Byte)].length ∧ 7 < 8 * [(0x74 : Byte)].length := by decide

theorem witness_ApiMetricValues : pair.script = [] ∧ dimsLegal pair .bufA ∧ dimsLegal pair .bufB ∧
    pair.width .bufA * pair.height .bufA = 4 ∧ pair.width .bufB * pair.height .bufB = 4 ∧
    dimsLegal (sized State.reset 1 1) .bufB := by
  simp only [dimsLegal]
  decide

theorem witness_ApiImagesAndHistogram : busy.script = [] ∧ keyLegal busy ∧ ivLegal busy ∧ permLegal busy .bufA ∧
    lengthAgrees busy .bufB ∧ lengthAgrees { busy with chkLen := true, origLen := 256 } .bufA ∧ dimsLegal busy .bufA := by
  simp only [permLegal, keyLegal, ivLegal, dimsLegal, lengthAgrees]
  decide

theorem witness_ApiImagesAndHistogram_failure : (sized keyed 8 8).script = [] ∧
    apiScript .permutationEncrypt .bufA = [.command (.permEnc .bufA)] ∧
    cause (sized keyed 8 8) (.permEnc .bufA) .invalidIterationCount ∧
    ∀ e', priority e' < priority .invalidIterationCount → ¬cause (sized keyed 8 8) (.permEnc .bufA) e' := by
  refine ⟨rfl, rfl, ⟨.bufA, .inr (.inl rfl), by decide⟩, ?_⟩
  intro e' he
  cases e' <;> simp [priority, cause, readsKey, readsIv, usesDims, permutes, plen, sized, keyed, State.width,
    State.height] at he ⊢

theorem witness_MetadataHexRoundTrip : '0' ∈ hexOfBytes [0x0F] ∧ 'f' ∈ hexOfBytes [0x0F] := by decide

end Sys2Proof.Tests
end

section
/-! PROOF. No command depends on `STATUS` or on the old value of `CMD` (R23): replacing both commutes with the checks
and with the effect of every command. -/

namespace Sys2Proof.Machine

open Sys2Proof.Spec

/-- The state with `STATUS` and `CMD` replaced, and nothing else (R23). -/
def State.withReport (s : State) (st : Status) (c : Word) : State := { s with status := st, cmd := c }

/-- The `STATUS` in place before completion when a command starts from `st` instead: `EMPTY` is the value `v` where the
command writes it (R26). -/
def emptyWritten (i : Instr) (v : Bool) (st : Status) : Status := if writesEmpty i then st.withEmpty v else st

/-! ## What the replacement leaves unchanged -/

variable (s : State) (st : Status) (c : Word)

/-- Every check reads lengths, dimensions and counters only. -/
theorem checksOf_withReport (i : Instr) : checksOf (s.withReport st c) i = checksOf s i := by
  cases i <;> rfl

/-! ## The operations of the commands commute with the replacement -/

/-- Stated for an arbitrary value, so that no proof has to evaluate the seed a command computes. -/
theorem State.withReport_lcgSeed_update (v : Word) :
    { s.withReport st c with lcgSeed := v } = State.withReport { s with lcgSeed := v } st c := rfl

theorem State.withReport_storeEntries (base : Nat) (es : List Nat) :
    (s.withReport st c).storeEntries base es = (s.storeEntries base es).withReport st c := rfl

theorem State.withReport_countImage (img : List Pixel) :
    (s.withReport st c).countImage img = (s.countImage img).withReport st c := by
  rw [State.countImage, State.withReport_storeEntries, State.withReport_storeEntries, State.withReport_storeEntries,
    State.countImage]

theorem State.withReport_measureEntropy (img : List Pixel) :
    (s.withReport st c).measureEntropy img = (s.measureEntropy img).withReport st c := by
  rw [State.measureEntropy, State.withReport_countImage]
  rfl

theorem State.withReport_setDims (b : Buffer) (w h : Nat) :
    (s.withReport st c).setDims b w h = (s.setDims b w h).withReport st c := by
  cases b <;> rfl

/-- `MOVE` is a store and a write of dimensions, and reads neither register. -/
theorem State.withReport_move (p : Buffer) (tab : List Nat) :
    (s.withReport st c).move p tab = (s.move p tab).withReport st c :=
  State.withReport_setDims (s.store _ _) st c _ _ _

/-- The effect of every command commutes with the replacement, up to the `EMPTY` that `CORR` writes. -/
theorem effectOf_withReport (i : Instr) :
    effectOf (s.withReport st c) i =
      (effectOf s i).withReport (emptyWritten i (effectOf s i).status.empty st) c := by
  cases i with
  | lcgNext => exact State.withReport_lcgSeed_update s st c (lcgNext s.lcgSeed)
  | permEnc p => exact State.withReport_move (s.build p) st c p (s.builtTable p).1
  | permDec p => exact State.withReport_move (s.build p) st c p (inverseTable (s.builtTable p).1)
  | hist p => exact State.withReport_countImage s st c (s.image p)
  | entropy p => exact State.withReport_measureEntropy s st c (s.image p)
  | nop | xsSeed | xsStep | ksGen p | streamEnc p | streamDec p | lcgDerive | permBuild p | corr p | npcrUaci => rfl

/-! ## The report of a command started from another `STATUS` -/

/-- The `STATUS` a command leaves when it starts from `st`, in terms of the `STATUS` `r` it leaves otherwise (R23). -/
def reportFrom (i : Instr) (st r : Status) : Status :=
  { r with
    sticky := st.sticky || r.err
    empty := if writesEmpty i = true ∧ r.done = true then r.empty else st.empty }

/-- An error report writes every field but `EMPTY` (R222). -/
theorem reportFrom_failed (i : Instr) (e : CommandError) (old : Status) :
    reportFrom i st (old.failed e) = st.failed e := by
  simp [reportFrom, Status.failed]

/-- A completion writes every field but `STICKY` and `EMPTY` (R26, R210). -/
theorem reportFrom_completed (i : Instr) (old : Status) :
    reportFrom i st old.completed = (emptyWritten i old.empty st).completed := by
  cases hi : writesEmpty i <;> simp [reportFrom, emptyWritten, Status.completed, Status.withEmpty, hi]

/-- The command runs alike from both states: the same error or the same effect, and the report of the other `STATUS`. -/
theorem exec_withReport {i : Instr} {s t : State} (h : exec i s = .next t) :
    exec i (s.withReport st c) = .next (t.withReport (reportFrom i st t.status) c) := by
  obtain ⟨e, hfail, rfl⟩ | ⟨hpass, rfl⟩ := exec_cases h
  · rw [← checksOf_withReport s st c] at hfail
    rw [exec_of_some hfail, State.raise_status, reportFrom_failed]
    rfl
  · rw [← checksOf_withReport s st c] at hpass
    rw [exec_of_none hpass, effectOf_withReport, State.complete_status, reportFrom_completed]
    rfl

end Sys2Proof.Machine

/-- Settles O25: the replacement commutes with the checks, the effect and the report of every command. -/
theorem commandsIgnoreStatusAndCmd : Obligations.CommandsIgnoreStatusAndCmd :=
  fun _ _ _ st c h => Sys2Proof.Machine.exec_withReport st c h
end

section
/-! PROOF. What the bus answers at each address (R72 to R74, R85), and what the step that takes the transaction does. -/

namespace Sys2Proof.Machine

open Sys2Proof.Spec

/-! ## Where the address ranges of R73 lie in the map -/

theorem locate_eq_unmapped_iff_unmapped (a : Nat) : locate a = .unmapped ↔ unmapped a := by
  rw [locate_eq_unmapped_iff, unmapped]
  omega

/-- The offsets of the table entries (R73). -/
theorem locate_eq_table_iff (a : Nat) :
    locate a = .table ↔
      (0x1000 ≤ a ∧ a < 0x1C00) ∨ (0x40000 ≤ a ∧ a < 0x50000) ∨ (0x80000 ≤ a ∧ a < 0x90000) := by
  unfold locate
  simp only [Config.maxBlocks, Config.bufBytes, Bool.and_eq_true, decide_eq_true_eq]
  split_ifs <;> (cases regAt a <;> simp <;> omega)

theorem regAt_eq_none {a : Nat} (h : ∀ r, Reg.offset r ≠ a) : regAt a = none := by
  cases hr : regAt a with
  | none => rfl
  | some r => exact absurd (offset_of_regAt hr) (h r)

theorem locate_of_reservedWord {a : Nat} (h : reservedWord a) : locate a = .reserved := by
  obtain ⟨-, ⟨hlt, hreg⟩ | ⟨hlo, hhi⟩⟩ := h
  · simp [locate, hlt, regAt_eq_none hreg]
  · have h1 : ¬a < 0x1000 := by omega
    have h2 : ¬a < 0x1C00 := by omega
    simp [locate, h1, h2, hhi]

/-! ## Which transactions get a bus error (R85) -/

variable {s : State} {a : BusAddr} {w : AccessWidth} {v : Word} {rest : List HostEvent}

/-- The unit's two checks, of the shape and of the place, are the three causes of R85. -/
theorem badTransaction_iff : badTransaction a w ↔ badAccess a w = true ∨ locate a.toNat = .unmapped := by
  simp [badTransaction, badAccess, locate_eq_unmapped_iff_unmapped, or_assoc]

theorem busRead_eq_busError_iff : s.busRead a w = .busError ↔ badTransaction a w := by
  rw [badTransaction_iff, State.busRead]
  cases badAccess a w <;> cases locate a.toNat <;> simp

theorem busWrite_of_badTransaction (h : badTransaction a w) : s.busWrite a w v = (s, .busError) := by
  rw [badTransaction_iff] at h
  obtain h | h := h <;> simp [State.busWrite, h]

theorem busWrite_answer_of_not_badTransaction (h : ¬badTransaction a w) : (s.busWrite a w v).2 = .written := by
  simp only [badTransaction_iff, not_or, Bool.not_eq_true] at h
  obtain ⟨hacc, hloc⟩ := h
  cases hl : locate a.toNat with
  | unmapped => exact absurd hl hloc
  | _ => simp [State.busWrite, hacc, hl]

@[simp] theorem writeReg_answers (s : State) (v : Word) (r : Reg) : (s.writeReg v r).answers = s.answers := by
  obtain ⟨-, -, hans, -⟩ := s.writeReg_frame v r
  exact hans

@[simp] theorem busWrite_answers : (s.busWrite a w v).1.answers = s.answers := by
  cases hacc : badAccess a w <;> cases hl : locate a.toNat <;> simp [State.busWrite, hacc, hl]

theorem not_badTransaction_of_startsCommand (h : startsCommand a w = true) : ¬badTransaction a w := by
  simp only [startsCommand, Bool.and_eq_true, beq_iff_eq] at h
  obtain ⟨rfl, ha⟩ := h
  simp [badTransaction, unmapped, ha, Reg.offset]

/-! ## The step that takes a transaction -/

theorem step_of_read (h : s.script = .rd a w :: rest) :
    step s = .next { s with script := rest, answers := s.busRead a w :: s.answers } :=
  step_of_cons h

theorem step_of_write (h : s.script = .wr a w v :: rest) (hc : startsCommand a w = false) :
    step s = .next ((State.busWrite { s with script := rest } a w v).1.answered
      (State.busWrite { s with script := rest } a w v).2) := by
  simp [step_of_cons h, deliver, hc, finish]

@[simp] theorem effectOf_answers (s : State) (i : Instr) : (effectOf s i).answers = s.answers := by
  cases i with
  | nop | xsSeed | xsStep | lcgDerive => rfl
  | lcgNext => cases s; rfl
  | ksGen p => exact State.runKeystream_answers s s.ksLen.toNat
  | streamEnc p | streamDec p => exact State.streamCipher_answers s p
  | permBuild p => exact State.build_answers s p
  | permEnc p | permDec p => exact (State.move_answers _ p _).trans (State.build_answers s p)
  | hist p => exact State.countImage_answers s _
  | entropy p => exact State.measureEntropy_answers s _
  | corr p => exact State.correlate_answers s _ _ _
  | npcrUaci => exact State.compareImages_answers s _ _ _

/-- A command word always runs to a next state, and records no answer of its own (R76). -/
theorem runWord_answers (w : Word) (s : State) : ∃ t, runWord w s = .next t ∧ t.answers = s.answers := by
  cases hd : decode w with
  | error e => exact ⟨_, runWord_of_error hd s, rfl⟩
  | ok i =>
    rw [runWord_of_ok hd]
    cases hc : firstError (checksOf s i) with
    | some e => exact ⟨_, exec_of_some hc, rfl⟩
    | none => exact ⟨_, exec_of_none hc, effectOf_answers s i⟩

/-- The frame of a bus error (R85). -/
theorem step_of_badTransaction {e : HostEvent} (he : e = .rd a w ∨ e = .wr a w v) (hs : s.script = e :: rest)
    (h : badTransaction a w) : step s = .next { s with script := rest, answers := .busError :: s.answers } := by
  obtain rfl | rfl := he
  · rw [step_of_read hs, busRead_eq_busError_iff.2 h]
  · have hc : startsCommand a w = false := Bool.eq_false_iff.2 fun hc => not_badTransaction_of_startsCommand hc h
    rw [step_of_write hs hc, busWrite_of_badTransaction h]
    rfl

theorem step_of_not_badTransaction {e : HostEvent} (he : e = .rd a w ∨ e = .wr a w v) (hs : s.script = e :: rest)
    (h : ¬badTransaction a w) : ∃ t ans, step s = .next t ∧ t.answers = ans :: s.answers ∧ ans ≠ .busError := by
  obtain rfl | rfl := he
  · exact ⟨_, _, step_of_read hs, rfl, mt busRead_eq_busError_iff.1 h⟩
  · cases hc : startsCommand a w with
    | true =>
      rw [step_of_command hs hc]
      obtain ⟨t, ht, hans⟩ := runWord_answers v { s with script := rest, cmd := v, answers := .written :: s.answers }
      exact ⟨t, .written, ht, hans, by simp⟩
    | false =>
      refine ⟨_, .written, step_of_write hs hc, ?_, by simp⟩
      rw [State.answered_answers, busWrite_answers, busWrite_answer_of_not_badTransaction h]

/-! ## Writes that are accepted and ignored (R74) -/

theorem writeReg_of_readOnly {r : Reg} : readOnly r → s.writeReg v r = s := by
  cases r <;> simp [readOnly, writableBits, State.writeReg]

theorem startsCommand_eq_false (h : locate a.toNat ≠ .register .cmd) : startsCommand a w = false := by
  have ha : a.toNat ≠ Reg.offset .cmd := fun ha => h (ha ▸ locate_offset .cmd)
  simp [startsCommand, ha]

/-- The locations whose host write R74 has the unit ignore. -/
def ignoresWrites (l : Location) : Prop := (∃ r, readOnly r ∧ l = .register r) ∨ l = .table ∨ l = .reserved

theorem busWrite_of_ignoresWrites (halign : a.toNat % 4 = 0) (h : ignoresWrites (locate a.toNat)) :
    s.busWrite a .w32 v = (s, .written) := by
  obtain ⟨r, hro, hloc⟩ | hloc | hloc := h
  · simp [State.busWrite, badAccess, halign, hloc, writeReg_of_readOnly hro]
  · simp [State.busWrite, badAccess, halign, hloc]
  · simp [State.busWrite, badAccess, halign, hloc]

theorem ne_cmd_of_ignoresWrites {l : Location} (h : ignoresWrites l) : l ≠ .register .cmd := by
  rintro rfl
  obtain ⟨r, ⟨hcmd, -⟩, hr⟩ | hr | hr := h
  · exact hcmd (by simpa using hr.symm)
  · simp at hr
  · simp at hr

theorem step_of_ignoredWrite (hs : s.script = .wr a .w32 v :: rest) (halign : a.toNat % 4 = 0)
    (h : ignoresWrites (locate a.toNat)) :
    step s = .next { s with script := rest, answers := .written :: s.answers } := by
  rw [step_of_write hs (startsCommand_eq_false (ne_cmd_of_ignoresWrites h)), busWrite_of_ignoresWrites halign h]
  rfl

/-! ## What reads as 0 (R74) -/

theorem busRead_of_reservedWord (h : reservedWord a.toNat) : s.busRead a .w32 = .value 0 := by
  simp [State.busRead, badAccess, h.1, locate_of_reservedWord h]

/-- The bits of the word of a field above the field are 0. -/
theorem setWidth_and_above {n : Nat} (x : BitVec n) :
    x.setWidth 32 &&& ~~~(BitVec.allOnes n).setWidth 32 = 0 := by
  ext i hi
  simpa using fun h => BitVec.lt_of_getLsbD h

/-- Two fields of zeros, masked to those fields: the form of the `STATUS` word (R26). -/
theorem append_zeroFields_and (code : Byte) (b3 b2 b1 b0 : BitVec 1) :
    (0#16 ++ code ++ 0#4 ++ b3 ++ b2 ++ b1 ++ b0) &&&
      (0xFFFF#16 ++ 0#8 ++ 0xF#4 ++ 0#1 ++ 0#1 ++ 0#1 ++ 0#1) = 0 := by
  simp only [BitVec.and_append, BitVec.and_zero, BitVec.zero_and]
  decide

theorem Status.toWord_and_reservedBits (st : Status) : st.toWord &&& reservedBits .status = 0 := by
  have hmask : reservedBits .status = 0xFFFF#16 ++ 0#8 ++ 0xF#4 ++ 0#1 ++ 0#1 ++ 0#1 ++ 0#1 := by decide
  rw [hmask]
  exact append_zeroFields_and _ _ _ _ _

theorem readReg_and_reservedBits (s : State) (r : Reg) : s.readReg r &&& reservedBits r = 0 := by
  cases r with
  | status => exact s.status.toWord_and_reservedBits
  | ctrl => exact setWidth_and_above (BitVec.ofBool s.chkLen)
  | keyLen => exact setWidth_and_above s.keyLen
  | ivLen => exact setWidth_and_above s.ivLen
  | aW => exact setWidth_and_above s.aW
  | aH => exact setWidth_and_above s.aH
  | bW => exact setWidth_and_above s.bW
  | bH => exact setWidth_and_above s.bH
  | _ => exact BitVec.and_zero

end Sys2Proof.Machine

open Sys2Proof.Machine

/-- Settles O15: the unit's two checks are the three causes of R85, and a transaction that passes them is answered. -/
theorem busErrorExactly : Obligations.BusErrorExactly :=
  fun _ _ _ _ _ _ he hs => ⟨step_of_badTransaction he hs, step_of_not_badTransaction he hs⟩

/-- Settles O17: each kind of location of R74 is a value of `locate`, which decides the answer. -/
theorem unmappedReadOnlyReserved : Obligations.UnmappedReadOnlyReserved := by
  refine ⟨fun s a v rest hun hs => ?unmapped, fun s a v rest hloc hs => ?ignored, fun s a rest hres hs => ?reserved,
    readReg_and_reservedBits⟩
  case unmapped =>
    have hbad : Sys2Proof.Spec.badTransaction a .w32 := .inr (.inr hun)
    obtain hs | hs := hs
    · exact step_of_badTransaction (v := v) (.inl rfl) hs hbad
    · exact step_of_badTransaction (.inr rfl) hs hbad
  case ignored =>
    obtain ⟨r, hro, ha⟩ | htab | hres := hloc
    · exact step_of_ignoredWrite hs (ha ▸ offset_mod r) (.inl ⟨r, hro, ha ▸ locate_offset r⟩)
    · exact step_of_ignoredWrite hs htab.1 (.inr (.inl ((locate_eq_table_iff _).2 htab.2)))
    · exact step_of_ignoredWrite hs hres.1 (.inr (.inr (locate_of_reservedWord hres)))
  case reserved => rw [step_of_read hs, busRead_of_reservedWord hres]
end

section
/-! PROOF. The words the decoder takes are legal (R101, R102, R105), and what the step that writes any other word to
`CMD` does (R229). -/

namespace Sys2Proof.Machine

open Sys2Proof.Spec

/-! ## The rows of the opcode map, beside the list of R102 -/

theorem eq_false_of_rowNoSel {i j : Instr} {sel : Bool} (h : rowNoSel i sel = .ok j) : sel = false := by
  cases sel with
  | false => rfl
  | true => exact nomatch h

/-- An opcode the decoder takes is listed, and listed with `SEL` allowed if `SEL` is 1 (R102). -/
theorem opcodeRow_of_decodeRow {opc : Nat} {sel : Bool} {i : Instr} (h : decodeRow opc sel = .ok i) :
    ∃ allowed, opcodeRow opc = some allowed ∧ (sel = true → allowed = true) := by
  unfold decodeRow at h
  split at h
  case h_1 | h_2 | h_3 | h_7 | h_8 | h_15 =>
    exact ⟨false, rfl, fun hsel => by simp [eq_false_of_rowNoSel h] at hsel⟩
  case h_4 | h_5 | h_6 | h_9 | h_10 | h_11 | h_12 | h_13 | h_14 => exact ⟨true, rfl, fun _ => rfl⟩
  case h_16 => exact nomatch h

/-! ## The fields of the command word (R100) -/

theorem opcField_toNat (w : Word) : (opcField w).toNat = w.toNat % 256 := by
  simp [opcField]

theorem rsvField_toNat (w : Word) : (rsvField w).toNat = w.toNat / 2 ^ 9 := by
  have := w.isLt
  simp only [rsvField, BitVec.extractLsb'_toNat, Nat.shiftRight_eq_div_pow]
  omega

/-! ## Legal and illegal words -/

theorem legalWord_of_decode {w : Word} {i : Instr} (h : decode w = .ok i) : legalWord w := by
  unfold decode at h
  split at h
  case isTrue hrsv =>
    refine ⟨?_, ?_⟩
    · rw [← rsvField_toNat, hrsv]
      rfl
    · rw [← opcField_toNat]
      exact opcodeRow_of_decodeRow h
  case isFalse => exact nomatch h

theorem decode_of_not_legalWord {w : Word} (h : ¬legalWord w) : ∃ e, decode w = .error e := by
  cases hd : decode w with
  | ok i => exact absurd (legalWord_of_decode hd) h
  | error e => exact ⟨e, rfl⟩

theorem runWord_of_not_legalWord {w : Word} (h : ¬legalWord w) (s : State) :
    runWord w s = .next (failedState s .illegalCommand) := by
  obtain ⟨e, hd⟩ := decode_of_not_legalWord h
  exact runWord_of_error hd s

/-! ## The step on a write to `CMD` -/

theorem step_of_cmdWrite {s : State} {w : Word} {rest : List HostEvent} (h : s.script = cmdWrite w :: rest) :
    step s = runWord w (accepted s w rest) :=
  step_of_command h (by decide)

end Sys2Proof.Machine

open Sys2Proof.Machine

/-- Settles O8: the decoder rejects an illegal word, so the step is the report in the state that stored it. -/
theorem illegalWordReported : Obligations.IllegalWordReported := by
  intro s w rest hs hw
  rw [step_of_cmdWrite hs]
  exact runWord_of_not_legalWord hw _
end

section
/-! PROOF. The lines of a host script (R107): a command line runs its command; `SETKEY` and `SETIV` load their bytes. -/

namespace Sys2Proof.Machine

open Sys2Proof.Spec

/-- A host write of a value to a register. -/
structure RegWrite where
  reg : Reg
  value : Word

/-! ## A command line (R107, R126) -/

theorem encode_eq_word (i : Instr) :
    encode i = word ((opcodeOf i).toNat + if primaryOf i = some .bufB then 0x100 else 0) := by
  cases i with
  | nop | xsSeed | xsStep | lcgDerive | lcgNext | npcrUaci => decide
  | ksGen p | streamEnc p | streamDec p | permBuild p | permEnc p | permDec p | hist p | entropy p | corr p =>
    cases p <;> decide

/-- The decoder undoes the encoder (R101, R102). -/
theorem decode_encode (i : Instr) : decode (encode i) = .ok i := by
  cases i with
  | nop | xsSeed | xsStep | lcgDerive | lcgNext | npcrUaci => rfl
  | ksGen p | streamEnc p | streamDec p | permBuild p | permEnc p | permDec p | hist p | entropy p | corr p =>
    cases p <;> rfl

theorem step_of_commandLine {i : Instr} {s : State} {rest : List HostEvent}
    (h : s.script = expandLine (.command i) ++ rest) : step s = exec i (accepted s (encode i) rest) := by
  rw [step_of_cmdWrite (w := encode i) (rest := rest) h, runWord_of_ok (decode_encode i)]

/-! ## A run of register writes -/

/-- The host's writes of a list of registers, in order. -/
def regWrites (ws : List RegWrite) : List HostEvent := ws.map fun w => wrAt w.reg.offset w.value

/-- The state after these writes, but for the script and the answers. -/
def State.writeRegs (s : State) (ws : List RegWrite) : State := ws.foldl (fun s w => s.writeReg w.value w.reg) s

theorem wrAt_offset_toNat (r : Reg) : (BitVec.ofNat 28 r.offset).toNat = r.offset := by
  have := offset_lt r
  rw [BitVec.toNat_ofNat]
  omega

/-- A state with the host's side of the interface replaced. -/
def State.withHost (s : State) (es : List HostEvent) (as : List Answer) : State :=
  { s with script := es, answers := as }

theorem writeReg_withHost (s : State) (es : List HostEvent) (as : List Answer) (v : Word) (r : Reg) :
    (s.withHost es as).writeReg v r = (s.writeReg v r).withHost es as := by
  cases r <;> rfl

theorem writeRegs_withHost (s : State) (es : List HostEvent) (as : List Answer) (ws : List RegWrite) :
    (s.withHost es as).writeRegs ws = (s.writeRegs ws).withHost es as := by
  induction ws generalizing s with
  | nil => rfl
  | cons w ws ih =>
    rw [State.writeRegs, List.foldl_cons, writeReg_withHost]
    exact ih _

theorem busWrite_offset (s : State) (r : Reg) (v : Word) :
    s.busWrite (BitVec.ofNat 28 r.offset) .w32 v = (s.writeReg v r, .written) := by
  have hacc : badAccess (BitVec.ofNat 28 r.offset) .w32 = false := by
    simp only [badAccess, wrAt_offset_toNat, offset_mod]
    rfl
  simp only [State.busWrite, hacc, Bool.false_eq_true, if_false, wrAt_offset_toNat, locate_offset]

/-- A write of a register other than `CMD` does what `writeReg` says (R74). -/
theorem step_of_regWrite {s : State} {r : Reg} {v : Word} {rest : List HostEvent} (hr : r ≠ .cmd)
    (h : s.script = wrAt r.offset v :: rest) :
    step s = .next ((s.writeReg v r).withHost rest (.written :: s.answers)) := by
  have hcmd : locate (BitVec.ofNat 28 r.offset).toNat ≠ .register .cmd := by
    rwa [wrAt_offset_toNat, locate_offset, Ne, Location.register.injEq]
  rw [step_of_write h (startsCommand_eq_false hcmd), busWrite_offset]
  exact congrArg (fun t => Host.Outcome.next (State.answered t .written)) (writeReg_withHost s rest s.answers v r)

/-- A list of register writes takes one step each and leaves what `writeRegs` says, with the rest of the script. -/
theorem run_regWrites {ws : List RegWrite} (hws : ∀ w ∈ ws, w.reg ≠ .cmd) {s : State} {rest : List HostEvent}
    (h : s.script = regWrites ws ++ rest) :
    ∃ as, run ws.length s = .next ((s.writeRegs ws).withHost rest as) := by
  induction ws generalizing s with
  | nil => exact ⟨s.answers, by rw [← show s.script = rest from h]; rfl⟩
  | cons w ws ih =>
    obtain ⟨hw, hws⟩ := List.forall_mem_cons.1 hws
    obtain ⟨as, hrun⟩ := ih hws
      (s := (s.writeReg w.value w.reg).withHost (regWrites ws ++ rest) (.written :: s.answers)) rfl
    refine ⟨as, ?_⟩
    rw [writeRegs_withHost] at hrun
    rw [List.length_cons, run, step_of_regWrite hw h]
    exact hrun

/-! ## The bytes of a file (R34, R35) -/

/-- The bits `8 * k + 7 : 8 * k` of a word are its lane `k` (R75 (b)). -/
theorem ofNat_div_eq_lane (w : Word) {k : Nat} (hk : k < 4) :
    BitVec.ofNat 8 (w.toNat / 2 ^ (8 * k)) = (laneBytes w).getD k 0 := by
  rw [← Nat.shiftRight_eq_div_pow]
  interval_cases k <;> rfl

theorem laneBytes_laneWord (b0 b1 b2 b3 : Byte) : laneBytes (laneWord b0 b1 b2 b3) = [b0, b1, b2, b3] := by
  simp only [laneBytes, laneWord, List.cons.injEq, and_true]
  refine ⟨?_, ?_, ?_, ?_⟩ <;> ext i hi <;> simp [BitVec.getElem_extractLsb'] <;> grind

/-- The file whose words are laid out from a list of bytes (R107). -/
def fileOf (bytes : List Byte) : WordFile :=
  ⟨laneWordOf bytes 0, laneWordOf bytes 1, laneWordOf bytes 2, laneWordOf bytes 3, laneWordOf bytes 4,
    laneWordOf bytes 5, laneWordOf bytes 6, laneWordOf bytes 7⟩

theorem fileWord_fileOf (bytes : List Byte) {j : Nat} (hj : j < 8) :
    fileWord (fileOf bytes) j = laneWordOf bytes j := by
  interval_cases j <;> rfl

theorem fileByte_fileOf (bytes : List Byte) {i : Nat} (hi : i < 32) :
    fileByte (fileOf bytes) i = bytes.getD i 0 := by
  have hlane : i % 4 < 4 := Nat.mod_lt _ (by decide)
  have hi : i = 4 * (i / 4) + i % 4 := by omega
  rw [fileByte, fileWord_fileOf _ (by omega), ofNat_div_eq_lane _ hlane, laneWordOf, laneBytes_laneWord]
  conv_rhs => rw [hi]
  generalize i % 4 = k at hlane
  interval_cases k <;> rfl

/-! ## `SETKEY` and `SETIV` (R107) -/

/-- The writes a key line stands for. -/
def keyWrites (bytes : List Byte) : List RegWrite :=
  [⟨.keyLen, word bytes.length⟩, ⟨.key0, laneWordOf bytes 0⟩, ⟨.key1, laneWordOf bytes 1⟩,
    ⟨.key2, laneWordOf bytes 2⟩, ⟨.key3, laneWordOf bytes 3⟩, ⟨.key4, laneWordOf bytes 4⟩,
    ⟨.key5, laneWordOf bytes 5⟩, ⟨.key6, laneWordOf bytes 6⟩, ⟨.key7, laneWordOf bytes 7⟩]

/-- The writes an IV line stands for. -/
def ivWrites (bytes : List Byte) : List RegWrite :=
  [⟨.ivLen, word bytes.length⟩, ⟨.iv0, laneWordOf bytes 0⟩, ⟨.iv1, laneWordOf bytes 1⟩,
    ⟨.iv2, laneWordOf bytes 2⟩, ⟨.iv3, laneWordOf bytes 3⟩, ⟨.iv4, laneWordOf bytes 4⟩,
    ⟨.iv5, laneWordOf bytes 5⟩, ⟨.iv6, laneWordOf bytes 6⟩, ⟨.iv7, laneWordOf bytes 7⟩]

theorem expandLine_setKey (bytes : List Byte) : expandLine (.setKey bytes) = regWrites (keyWrites bytes) := rfl

theorem expandLine_setIv (bytes : List Byte) : expandLine (.setIv bytes) = regWrites (ivWrites bytes) := rfl

theorem writeRegs_keyWrites (s : State) (bytes : List Byte) :
    s.writeRegs (keyWrites bytes) =
      { s with keyLen := (word bytes.length).setWidth 6, key := fileOf bytes } := by
  simp only [State.writeRegs, keyWrites, List.foldl_cons, List.foldl_nil, State.writeReg, fileOf]

theorem writeRegs_ivWrites (s : State) (bytes : List Byte) :
    s.writeRegs (ivWrites bytes) =
      { s with ivLen := (word bytes.length).setWidth 6, iv := fileOf bytes } := by
  simp only [State.writeRegs, ivWrites, List.foldl_cons, List.foldl_nil, State.writeReg, fileOf]

/-- A length of at most 32 fits the length register (R28, R29). -/
theorem setWidth_length_toNat {n : Nat} (h : n ≤ 32) : ((word n).setWidth 6).toNat = n := by
  simp only [BitVec.toNat_setWidth, BitVec.toNat_ofNat]
  omega

end Sys2Proof.Machine

open Sys2Proof.Machine

/-- Settles O9: the line's word is the encoding, which decodes to the command. -/
theorem commandLineRunsCommand : Obligations.CommandLineRunsCommand :=
  fun i _ _ => ⟨encode_eq_word i ▸ rfl, step_of_commandLine⟩

/-- Settles O55: each line is nine register writes, whose words hold the bytes in their lanes. -/
theorem setKeyAndIvLoadBytes : Obligations.SetKeyAndIvLoadBytes := by
  refine ⟨fun s bytes rest _ hlen hs => ?key, fun s bytes rest hlen hs => ?iv⟩
  case key =>
    rw [expandLine_setKey] at hs
    obtain ⟨as, hrun⟩ := run_regWrites (by simp [keyWrites]) hs
    rw [writeRegs_keyWrites] at hrun
    exact ⟨_, hrun, setWidth_length_toNat hlen, fun i => fileByte_fileOf bytes, rfl⟩
  case iv =>
    rw [expandLine_setIv] at hs
    obtain ⟨as, hrun⟩ := run_regWrites (by simp [ivWrites]) hs
    rw [writeRegs_ivWrites] at hrun
    exact ⟨_, hrun, setWidth_length_toNat hlen, fun i => fileByte_fileOf bytes, rfl⟩
end

section
/-! PROOF. The host software: key derivation (R120, R121), the single-bit flip (R123) and the hex of the metadata
record (R125). -/

namespace Sys2Proof.Machine

/-! ## Key derivation (R120) -/

theorem deriveKey_of_no_bytes {passphrase : List Char} (h : (passphraseBytes passphrase).length = 0) (length : Nat) :
    deriveKey passphrase length = .error .emptyInput := by
  simp only [deriveKey, h, if_true]

theorem deriveKey_of_bytes {passphrase : List Char} (h : (passphraseBytes passphrase).length ≠ 0) (length : Nat) :
    deriveKey passphrase length = .ok ((List.range length).map fun i =>
      (passphraseBytes passphrase).getD (i % (passphraseBytes passphrase).length) 0 ^^^ BitVec.ofNat 8 (i * 7)) := by
  simp only [deriveKey, h, if_false, BitVec.ofNat_xor, BitVec.ofNat_toNat, BitVec.setWidth_eq]

/-! ## The single-bit flip (R123) -/

/-- The mask of the flip has one bit. -/
theorem getLsbD_one_shiftLeft {i j : Nat} (hj : j < 8) : (1#8 <<< i).getLsbD j = decide (j = i) := by
  simp only [BitVec.getLsbD_shiftLeft, BitVec.getLsbD_one, hj, decide_true, Bool.true_and]
  by_cases hlt : j < i
  · simp [hlt]; omega
  · simp [hlt]; omega

theorem getD_flipped {key : List Byte} {i : Nat} (bitIndex : Nat) (hi : i < key.length) :
    (key.modify (bitIndex / 8) fun b => b ^^^ (1#8 <<< (bitIndex % 8))).getD i 0 =
      if bitIndex / 8 = i then key.getD i 0 ^^^ (1#8 <<< (bitIndex % 8)) else key.getD i 0 := by
  simp only [List.getD_eq_getElem?_getD, List.getElem?_modify, List.getElem?_eq_getElem hi]
  split <;> rfl

/-! ## The hex digits of the metadata record (R125) -/

theorem hexValue_hexDigit {n : Nat} (h : n < 16) : hexValue (hexDigit n) = some n := by
  revert n
  decide

theorem hexDigit_lowercase {n : Nat} (h : n < 16) :
    ('0' ≤ hexDigit n ∧ hexDigit n ≤ '9') ∨ ('a' ≤ hexDigit n ∧ hexDigit n ≤ 'f') := by
  revert n
  decide

/-- Both digits of a byte are below 16, so the digit lemmas apply to them. -/
theorem hexDigits_lt (b : Byte) : b.toNat / 16 < 16 ∧ b.toNat % 16 < 16 := by
  have := b.isLt
  omega

theorem bytesOfHex_hexOfBytes (bytes : List Byte) : bytesOfHex (hexOfBytes bytes) = some bytes := by
  induction bytes with
  | nil => rfl
  | cons b bytes ih =>
    obtain ⟨hhi, hlo⟩ := hexDigits_lt b
    have hb : BitVec.ofNat 8 (16 * (b.toNat / 16) + b.toNat % 16) = b := by
      rw [Nat.div_add_mod, BitVec.ofNat_toNat, BitVec.setWidth_eq]
    have hcons : hexOfBytes (b :: bytes) =
        hexDigit (b.toNat / 16) :: hexDigit (b.toNat % 16) :: hexOfBytes bytes := rfl
    rw [hcons, bytesOfHex, hexValue_hexDigit hhi, hexValue_hexDigit hlo, ih]
    exact congrArg (fun c => some (c :: bytes)) hb

theorem length_hexOfBytes (bytes : List Byte) : (hexOfBytes bytes).length = 2 * bytes.length := by
  simp [hexOfBytes, List.length_flatMap, Nat.mul_comm]

theorem lowercase_of_mem_hexOfBytes {bytes : List Byte} {c : Char} (hc : c ∈ hexOfBytes bytes) :
    ('0' ≤ c ∧ c ≤ '9') ∨ ('a' ≤ c ∧ c ≤ 'f') := by
  obtain ⟨b, -, hc⟩ := List.mem_flatMap.1 hc
  obtain ⟨hhi, hlo⟩ := hexDigits_lt b
  simp only [List.mem_cons, List.not_mem_nil, or_false] at hc
  obtain rfl | rfl := hc
  · exact hexDigit_lowercase hhi
  · exact hexDigit_lowercase hlo

end Sys2Proof.Machine

open Sys2Proof.Machine

/-- Settles O56: the two branches of `deriveKey`. -/
theorem deriveKeyResult : Obligations.DeriveKeyResult := by
  refine fun passphrase length => ⟨fun h => deriveKey_of_no_bytes h length, fun h => ?_⟩
  refine ⟨_, deriveKey_of_bytes h length, by simp, fun i hi => ?_⟩
  simp [List.getD_eq_getElem?_getD, hi]

/-- Settles O57: the mask has one bit, and it is put into one byte. -/
theorem flipSingleBitTogglesOne : Obligations.FlipSingleBitTogglesOne := by
  intro key bitIndex hbit
  refine ⟨_, if_pos hbit, List.length_modify _ _ _, fun i hi j hj => ?_⟩
  rw [getD_flipped bitIndex hi]
  split
  case isTrue hbyte =>
    rw [BitVec.getLsbD_xor, getLsbD_one_shiftLeft hj]
    congr 2
    simp only [eq_iff_iff]
    omega
  case isFalse hbyte =>
    have hne : 8 * i + j ≠ bitIndex := by omega
    simp [hne]

/-- Settles O60: by induction on the bytes, each of which is two digits. -/
theorem metadataHexRoundTrip : Obligations.MetadataHexRoundTrip :=
  fun bytes => ⟨bytesOfHex_hexOfBytes bytes, length_hexOfBytes bytes, fun _ => lowercase_of_mem_hexOfBytes⟩
end

section
/-! PROOF. The checks of a command, in the order it makes them, are the causes of the errors in the order of R231. -/

namespace Sys2Proof.Machine

open Sys2Proof.Spec

variable {s : State} {i : Instr} {e : CommandError}

/-! ## Each condition is the cause the rules name (R224 to R230) -/

theorem keyTooLong_iff : s.keyTooLong = true ↔ 32 < s.keyLen.toNat := by simp [State.keyTooLong]

theorem ivTooLong_iff : s.ivTooLong = true ↔ 32 < s.ivLen.toNat := by simp [State.ivTooLong]

theorem keyMissing_iff : s.keyMissing = true ↔ s.keyLen.toNat = 0 := by simp [State.keyMissing]

theorem badDims_iff {b : Buffer} :
    s.badDims b = true ↔ s.width b = 0 ∨ s.height b = 0 ∨ 4194304 < plen s b := by
  simp only [State.badDims, Bool.or_eq_true, beq_iff_eq, decide_eq_true_eq, or_assoc]
  rfl

theorem tooSmall_iff {b : Buffer} : s.tooSmall b = true ↔ s.width b < 8 ∨ s.height b < 8 := by simp [State.tooSmall]

theorem lengthDiffers_iff {b : Buffer} :
    s.lengthDiffers b = true ↔ s.chkLen = true ∧ plen s b ≠ s.origLen.toNat := by
  simp [State.lengthDiffers, State.imageLen, State.pixelCount, plen]

theorem exists_buffer_iff {P : Buffer → Prop} : (∃ b, P b) ↔ P .bufA ∨ P .bufB := by
  refine ⟨fun ⟨b, hb⟩ => ?_, fun h => h.elim (⟨_, ·⟩) (⟨_, ·⟩)⟩
  cases b
  · exact .inl hb
  · exact .inr hb

/-! ## The list of checks -/

theorem checksOf_sorted : (checksOf s i).Pairwise fun c d => priority c.2 < priority d.2 := by
  cases i <;> simp [checksOf, State.permChecks, priority]

/-- The failed checks of a command are exactly the errors whose cause holds. -/
theorem mem_checksOf_iff_cause : (true, e) ∈ checksOf s i ↔ cause s i e := by
  cases i with
  | nop | xsStep | lcgNext => cases e <;> simp [checksOf, cause, readsKey, readsIv, usesDims, permutes]
  | xsSeed | lcgDerive =>
    cases e <;>
      simp [checksOf, cause, readsKey, readsIv, usesDims, permutes, keyTooLong_iff, ivTooLong_iff, keyMissing_iff]
  | ksGen p =>
    cases e <;>
      simp [checksOf, cause, readsKey, readsIv, usesDims, permutes, keyTooLong_iff, ivTooLong_iff, keyMissing_iff,
        or_assoc]
  | streamEnc p | streamDec p =>
    cases e <;>
      simp [checksOf, cause, readsKey, readsIv, usesDims, permutes, keyTooLong_iff, ivTooLong_iff, keyMissing_iff,
        badDims_iff, lengthDiffers_iff, or_assoc]
  | permBuild p | permEnc p | permDec p =>
    cases e <;>
      simp [checksOf, State.permChecks, cause, readsKey, readsIv, usesDims, permutes, keyTooLong_iff, keyMissing_iff,
        badDims_iff, tooSmall_iff]
  | hist p | entropy p | corr p =>
    cases e <;> simp [checksOf, cause, readsKey, readsIv, usesDims, permutes, badDims_iff]
  | npcrUaci =>
    cases e <;>
      simp [checksOf, cause, readsKey, readsIv, usesDims, permutes, badDims_iff, exists_buffer_iff, State.pixelCount,
        or_assoc]

/-- Of checks in the order of R231, the first that fails is the failed one of least priority number. -/
theorem firstError_eq_some {checks : List (Bool × CommandError)}
    (hsort : checks.Pairwise fun c d => priority c.2 < priority d.2) (hmem : (true, e) ∈ checks)
    (hfirst : ∀ e', priority e' < priority e → (true, e') ∉ checks) : firstError checks = some e := by
  induction checks with
  | nil => simp at hmem
  | cons c checks ih =>
    obtain ⟨failed, e'⟩ := c
    obtain ⟨hlt, hsort'⟩ := List.pairwise_cons.1 hsort
    rw [firstError_cons]
    obtain hhead | htail := List.mem_cons.1 hmem
    · cases hhead
      rfl
    · have hpass : failed ≠ true := by
        rintro rfl
        exact hfirst e' (hlt _ htail) List.mem_cons_self
      rw [if_neg hpass]
      exact ih hsort' htail fun d hd hin => hfirst d hd (List.mem_cons_of_mem _ hin)

/-- A command finds the first error of R231 whose cause holds (R231, R232). -/
theorem firstError_of_cause (hcause : cause s i e) (hfirst : ∀ e', priority e' < priority e → ¬cause s i e') :
    firstError (checksOf s i) = some e :=
  firstError_eq_some checksOf_sorted (mem_checksOf_iff_cause.2 hcause) fun e' he' =>
    mt mem_checksOf_iff_cause.1 (hfirst e' he')

end Sys2Proof.Machine
end

section
/-! PROOF. The enclosure of the entropy (log 5): the bounds of the logarithms hold, the two roundings of `E * 2^24` are
exact, and so `entQ` is within the tolerance of R178 (i). -/

namespace Sys2Proof.Machine

open Real (logb)

/-- The rounded-up quotient is the least that, times the divisor, reaches the dividend. -/
theorem ceilDiv_le_iff {a b q : Nat} (hb : 0 < b) : ceilDiv a b ≤ q ↔ a ≤ b * q := by
  rw [ceilDiv, ← Nat.add_sub_assoc hb, ← Nat.ceilDiv_eq_add_pred_div, ceilDiv_le_iff_le_mul hb]

theorem le_mul_ceilDiv {a b : Nat} (hb : 0 < b) : a ≤ b * ceilDiv a b := (ceilDiv_le_iff hb).1 le_rfl

/-! ## The bounds of the logarithms -/

/-- The binary logarithm of `m * 2^e`. -/
noncomputable def mantissaLog (p : Nat × Nat) : ℝ := logb 2 p.1 + p.2

theorem logb_two_pow_mul {m k : Nat} (hm : 0 < m) : logb 2 ((2 ^ k * m : Nat) : ℝ) = k + logb 2 m := by
  push_cast
  rw [Real.logb_mul (by positivity) (by positivity), Real.logb_pow, Real.logb_self_eq_one one_lt_two, mul_one]

theorem logb_self_mul {m : Nat} (hm : 0 < m) : logb 2 ((m * m : Nat) : ℝ) = 2 * logb 2 m := by
  push_cast
  rw [Real.logb_mul (by positivity) (by positivity), two_mul]

theorem logb_le_logb_of_nat_le {m n : Nat} (hm : 0 < m) (h : m ≤ n) : logb 2 (m : ℝ) ≤ logb 2 (n : ℝ) :=
  Real.logb_le_logb_of_le one_lt_two (by exact_mod_cast hm) (by exact_mod_cast h)

/-- Bits are dropped only above the 96 kept, so a positive mantissa stays positive. -/
theorem two_pow_dropped_le {m : Nat} (hm : 0 < m) : 2 ^ (Nat.log2 (m * m) - 95) ≤ m * m :=
  (Nat.pow_le_pow_right (by decide) (Nat.sub_le _ _)).trans (Nat.log2_self_le (Nat.mul_pos hm hm).ne')

theorem squareRounded_false_le {p : Nat × Nat} (hp : 0 < p.1) :
    0 < (squareRounded false p).1 ∧ mantissaLog (squareRounded false p) ≤ 2 * mantissaLog p := by
  have hpos : 0 < p.1 * p.1 / 2 ^ (Nat.log2 (p.1 * p.1) - 95) := Nat.div_pos (two_pow_dropped_le hp) (by positivity)
  refine ⟨hpos, ?_⟩
  have hle := logb_le_logb_of_nat_le (by positivity)
    (Nat.mul_div_le (p.1 * p.1) (2 ^ (Nat.log2 (p.1 * p.1) - 95)))
  rw [logb_two_pow_mul hpos, logb_self_mul hp] at hle
  simp only [mantissaLog, squareRounded, Bool.false_eq_true, if_false]
  push_cast
  linarith

theorem le_squareRounded_true {p : Nat × Nat} (hp : 0 < p.1) :
    0 < (squareRounded true p).1 ∧ 2 * mantissaLog p ≤ mantissaLog (squareRounded true p) := by
  have hle := le_mul_ceilDiv (a := p.1 * p.1) (Nat.two_pow_pos (Nat.log2 (p.1 * p.1) - 95))
  have hpos : 0 < ceilDiv (p.1 * p.1) (2 ^ (Nat.log2 (p.1 * p.1) - 95)) :=
    Nat.pos_of_mul_pos_left ((Nat.mul_pos hp hp).trans_le hle)
  refine ⟨hpos, ?_⟩
  have hlog := logb_le_logb_of_nat_le (Nat.mul_pos hp hp) hle
  rw [logb_two_pow_mul hpos, logb_self_mul hp, ceilDiv] at hlog
  simp only [mantissaLog, squareRounded, if_true]
  push_cast
  linarith

theorem logb_le_clog {m : Nat} (hm : 0 < m) : logb 2 (m : ℝ) ≤ (Nat.clog 2 m : ℝ) := by
  have h := logb_le_logb_of_nat_le hm (Nat.le_pow_clog one_lt_two m)
  rwa [← Nat.mul_one (2 ^ _), logb_two_pow_mul one_pos, Nat.cast_one, Real.logb_one, add_zero] at h

theorem powerBound_false_le {x : Nat} (hx : 0 < x) (k : Nat) :
    0 < (powerBound false x k).1 ∧ mantissaLog (powerBound false x k) ≤ 2 ^ k * logb 2 x := by
  induction k with
  | zero => exact ⟨hx, by simp [powerBound, mantissaLog]⟩
  | succ k ih =>
    obtain ⟨hpos, hle⟩ := ih
    obtain ⟨hpos', hle'⟩ := squareRounded_false_le hpos
    refine ⟨hpos', hle'.trans ?_⟩
    rw [pow_succ]
    linarith

theorem le_powerBound_true {x : Nat} (hx : 0 < x) (k : Nat) :
    0 < (powerBound true x k).1 ∧ 2 ^ k * logb 2 x ≤ mantissaLog (powerBound true x k) := by
  induction k with
  | zero => exact ⟨hx, by simp [powerBound, mantissaLog]⟩
  | succ k ih =>
    obtain ⟨hpos, hle⟩ := ih
    obtain ⟨hpos', hle'⟩ := le_squareRounded_true hpos
    refine ⟨hpos', le_trans ?_ hle'⟩
    rw [pow_succ]
    linarith

theorem log2Lower_le {x : Nat} (hx : 0 < x) : (log2Lower x : ℝ) ≤ 2 ^ logFrac * logb 2 x := by
  refine le_trans ?_ (powerBound_false_le hx logFrac).2
  rw [log2Lower, mantissaLog, Nat.log2_eq_log_two, Nat.cast_add]
  gcongr
  exact Real.natLog_le_logb _ 2

theorem le_log2Upper {x : Nat} (hx : 0 < x) : 2 ^ logFrac * logb 2 x ≤ (log2Upper x : ℝ) := by
  obtain ⟨hpos, hle⟩ := le_powerBound_true hx logFrac
  refine hle.trans ?_
  rw [log2Upper, mantissaLog, Nat.cast_add]
  gcongr
  exact logb_le_clog hpos

/-! ## The entropy of a list of counts (R177) -/

/-- `T * E` for a list of counts with total `T`: `T * log2 T - Σ c[v] * log2 c[v]`. -/
noncomputable def totalBits (c : List Nat) : ℝ :=
  c.sum * logb 2 c.sum - (c.map fun v : Nat => (v : ℝ) * logb 2 v).sum

/-- `E * 2^24`. -/
noncomputable def entropyValue (c : List Nat) : ℝ := totalBits c * 2 ^ Config.frac / c.sum

/-- `T * E` as a sum over the counts, with `t` for the total. -/
theorem sum_mul_sub_sum (x : ℝ) (c : List Nat) :
    c.sum * x - (c.map fun v : Nat => (v : ℝ) * logb 2 v).sum =
      (c.map fun v : Nat => (v : ℝ) * (x - logb 2 v)).sum := by
  induction c with
  | nil => simp
  | cons v c ih =>
    simp only [List.sum_cons, List.map_cons, Nat.cast_add, ← ih]
    ring

theorem totalBits_eq_sum (c : List Nat) :
    totalBits c = (c.map fun v : Nat => (v : ℝ) * (logb 2 c.sum - logb 2 v)).sum := sum_mul_sub_sum _ c

theorem totalBits_nonneg (c : List Nat) : 0 ≤ totalBits c := by
  rw [totalBits_eq_sum]
  refine List.sum_nonneg fun x hx => ?_
  obtain ⟨v, hv, rfl⟩ := List.mem_map.1 hx
  obtain rfl | hpos := Nat.eq_zero_or_pos v
  · simp
  · have := logb_le_logb_of_nat_le hpos (List.le_sum_of_mem hv)
    exact mul_nonneg (Nat.cast_nonneg v) (by linarith)

/-- The inequality behind the bound of 8 bits: `ln x ≤ x - 1` at `x = t / (256 * v)`. -/
theorem count_mul_log_le {t v : Nat} (ht : 0 < t) :
    (v : ℝ) * (logb 2 t - logb 2 v - 8) ≤ (t / 256 - v) / Real.log 2 := by
  have hlog2 : 0 < Real.log 2 := Real.log_pos one_lt_two
  obtain rfl | hv := Nat.eq_zero_or_pos v
  · simp only [Nat.cast_zero, zero_mul, sub_zero]
    positivity
  · have hv' : (0 : ℝ) < v := by exact_mod_cast hv
    have ht' : (0 : ℝ) < t := by exact_mod_cast ht
    have hlog := Real.log_le_sub_one_of_pos (show 0 < (t : ℝ) / (256 * v) by positivity)
    rw [Real.log_div ht'.ne' (by positivity), Real.log_mul (by norm_num) hv'.ne',
      show (256 : ℝ) = 2 ^ 8 by norm_num, Real.log_pow] at hlog
    have hmul := mul_le_mul_of_nonneg_left hlog hv'.le
    rw [le_div_iff₀ hlog2, logb, logb]
    have e : (v : ℝ) * (Real.log t / Real.log 2 - Real.log v / Real.log 2 - 8) * Real.log 2 =
        v * (Real.log t - (8 * Real.log 2 + Real.log v)) := by field_simp; ring
    rw [e]
    refine hmul.trans_eq ?_
    field_simp
    ring

theorem sum_mul_log_le {t : Nat} (ht : 0 < t) (c : List Nat) :
    (c.map fun v : Nat => (v : ℝ) * (logb 2 t - logb 2 v)).sum ≤
      8 * c.sum + (c.length * (t / 256) - c.sum) / Real.log 2 := by
  induction c with
  | nil => simp
  | cons v c ih =>
    have hv := count_mul_log_le (v := v) ht
    simp only [List.map_cons, List.sum_cons, List.length_cons, Nat.cast_add, Nat.cast_one]
    have e : ((c.length + 1 : ℝ) * (t / 256) - (v + c.sum)) / Real.log 2 =
        (t / 256 - v) / Real.log 2 + (c.length * (t / 256) - c.sum) / Real.log 2 := by ring
    rw [e]
    linarith

/-- 256 counts have at most 8 bits of entropy (R178 (ii)). -/
theorem totalBits_le {c : List Nat} (hlen : c.length ≤ 256) (ht : 0 < c.sum) : totalBits c ≤ 8 * c.sum := by
  rw [totalBits_eq_sum]
  refine (sum_mul_log_le ht c).trans (add_le_of_nonpos_right ?_)
  refine div_nonpos_of_nonpos_of_nonneg ?_ (Real.log_pos one_lt_two).le
  have hlen : (c.length : ℝ) ≤ 256 := by exact_mod_cast hlen
  have := mul_le_mul_of_nonneg_right hlen (show (0 : ℝ) ≤ c.sum / 256 by positivity)
  linarith

/-! ## The bounds of `T * E` -/

/-- The error of a sum of weighted bounds is the weighted sum of their errors. -/
theorem weightedSum_sub (f : Nat → Nat) (x : ℝ) (c : List Nat) :
    ((c.map fun v => v * f v).sum : Nat) - x * (c.map fun v : Nat => (v : ℝ) * logb 2 v).sum =
      (c.map fun v : Nat => (v : ℝ) * (f v - x * logb 2 v)).sum := by
  induction c with
  | nil => simp
  | cons v c ih =>
    simp only [List.map_cons, List.sum_cons, Nat.cast_add, Nat.cast_mul, ← ih]
    ring

theorem le_weightedSum_log2Upper (c : List Nat) :
    2 ^ logFrac * (c.map fun v : Nat => (v : ℝ) * logb 2 v).sum ≤ ((c.map fun v => v * log2Upper v).sum : Nat) := by
  rw [← sub_nonneg, weightedSum_sub]
  refine List.sum_nonneg fun x hx => ?_
  obtain ⟨v, -, rfl⟩ := List.mem_map.1 hx
  obtain rfl | hpos := Nat.eq_zero_or_pos v
  · rw [Nat.cast_zero, zero_mul]
  · exact mul_nonneg (Nat.cast_nonneg v) (sub_nonneg.2 (le_log2Upper hpos))

theorem weightedSum_log2Lower_le (c : List Nat) :
    ((c.map fun v => v * log2Lower v).sum : Nat) ≤ 2 ^ logFrac * (c.map fun v : Nat => (v : ℝ) * logb 2 v).sum := by
  rw [← sub_nonpos, weightedSum_sub]
  refine (List.sum_le_card_nsmul _ 0 fun x hx => ?_).trans_eq (smul_zero _)
  obtain ⟨v, -, rfl⟩ := List.mem_map.1 hx
  obtain rfl | hpos := Nat.eq_zero_or_pos v
  · rw [Nat.cast_zero, zero_mul]
  · exact mul_nonpos_of_nonneg_of_nonpos (Nat.cast_nonneg v) (sub_nonpos.2 (log2Lower_le hpos))

theorem entropyLower_le {c : List Nat} (ht : 0 < c.sum) :
    (entropyLower c c.sum : ℝ) ≤ 2 ^ logFrac * totalBits c := by
  have hlow := mul_le_mul_of_nonneg_left (log2Lower_le ht) (Nat.cast_nonneg (α := ℝ) c.sum)
  have hsum := le_weightedSum_log2Upper c
  rw [entropyLower]
  obtain hle | hge := Nat.le_total (c.sum * log2Lower c.sum) (c.map fun v => v * log2Upper v).sum
  · rw [Nat.sub_eq_zero_of_le hle, Nat.cast_zero]
    exact mul_nonneg (by positivity) (totalBits_nonneg c)
  · rw [Nat.cast_sub hge, totalBits, Nat.cast_mul]
    linarith

theorem le_entropyUpper {c : List Nat} (ht : 0 < c.sum) :
    2 ^ logFrac * totalBits c ≤ (entropyUpper c c.sum : ℝ) := by
  have hup := mul_le_mul_of_nonneg_left (le_log2Upper ht) (Nat.cast_nonneg (α := ℝ) c.sum)
  have hsum := weightedSum_log2Lower_le c
  have hsub := Nat.cast_le (α := ℝ).2
    (Nat.sub_le_iff_le_add.1 (le_refl (c.sum * log2Upper c.sum - (c.map fun v => v * log2Lower v).sum)))
  rw [Nat.cast_add, Nat.cast_mul] at hsub
  rw [entropyUpper, totalBits]
  linarith

/-! ## The two roundings of `E * 2^24` -/

/-- The unit in which the bounds are read: `T * 2^24` of their `2^-48`. -/
theorem entropyValue_eq_div (c : List Nat) :
    entropyValue c = 2 ^ logFrac * totalBits c / ((c.sum * 2 ^ (logFrac - Config.frac) : Nat) : ℝ) := by
  have e : (2 : ℝ) ^ logFrac = 2 ^ Config.frac * 2 ^ (logFrac - Config.frac) :=
    pow_add 2 Config.frac (logFrac - Config.frac)
  rw [entropyValue, e, Nat.cast_mul, Nat.cast_pow, Nat.cast_ofNat,
    mul_comm (totalBits c), mul_right_comm, mul_div_mul_right _ _ (by positivity)]

theorem entropyValue_nonneg (c : List Nat) : 0 ≤ entropyValue c :=
  div_nonneg (mul_nonneg (totalBits_nonneg c) (by positivity)) (Nat.cast_nonneg _)

/-- The rounded-up quotient of two naturals is the quotient rounded up. -/
theorem ceilDiv_eq_ceil (a : Nat) {b : Nat} (hb : 0 < b) : ceilDiv a b = ⌈(a : ℝ) / b⌉₊ := by
  refine eq_of_forall_ge_iff fun q => ?_
  rw [ceilDiv_le_iff hb, Nat.ceil_le, div_le_iff₀ (by exact_mod_cast hb), mul_comm b q]
  exact_mod_cast Iff.rfl

theorem selfPowers_pos (c : List Nat) : 0 < selfPowers c := by
  refine List.prod_pos fun x hx => ?_
  obtain ⟨v, -, rfl⟩ := List.mem_map.1 hx
  exact Nat.pow_self_pos

theorem logb_selfPowers (c : List Nat) :
    logb 2 (selfPowers c) = (c.map fun v : Nat => (v : ℝ) * logb 2 v).sum := by
  induction c with
  | nil => simp [selfPowers]
  | cons v c ih =>
    have hcons : selfPowers (v :: c) = v ^ v * selfPowers c := rfl
    have hv : ((v ^ v : Nat) : ℝ) ≠ 0 := by exact_mod_cast Nat.pow_self_pos.ne'
    rw [hcons, Nat.cast_mul, Real.logb_mul hv (by exact_mod_cast (selfPowers_pos c).ne'), ih, Nat.cast_pow,
      Real.logb_pow, List.map_cons, List.sum_cons]

/-- `2^(T * E) = T^T / Π c[v]^c[v]`. -/
theorem totalBits_eq_logb_sub (c : List Nat) :
    totalBits c = logb 2 ((c.sum ^ c.sum : Nat) : ℝ) - logb 2 (selfPowers c) := by
  rw [logb_selfPowers, Nat.cast_pow, Real.logb_pow, totalBits]

theorem selfPowers_le (c : List Nat) : selfPowers c ≤ c.sum ^ c.sum := by
  have hnonneg := totalBits_nonneg c
  rw [totalBits_eq_logb_sub, sub_nonneg] at hnonneg
  exact_mod_cast (Real.logb_le_logb one_lt_two (by exact_mod_cast selfPowers_pos c)
    (by exact_mod_cast Nat.pow_self_pos)).1 hnonneg

theorem two_pow_mul_pow_le_iff {x y n k : Nat} (hx : 0 < x) (hy : 0 < y) :
    2 ^ k * y ^ n ≤ x ^ n ↔ (k : ℝ) ≤ n * (logb 2 x - logb 2 y) := by
  have hx' : (0 : ℝ) < (x ^ n : Nat) := by exact_mod_cast Nat.pow_pos hx
  have hy' : (0 : ℝ) < (2 ^ k * y ^ n : Nat) := by exact_mod_cast Nat.mul_pos (Nat.two_pow_pos k) (Nat.pow_pos hy)
  rw [← Nat.cast_le (α := ℝ), ← Real.logb_le_logb one_lt_two hy' hx', logb_two_pow_mul (Nat.pow_pos hy),
    Nat.cast_pow, Nat.cast_pow, Real.logb_pow, Real.logb_pow, mul_sub, le_sub_iff_add_le]

theorem pow_le_pow_mul_two_pow_iff {x y n k : Nat} (hx : 0 < x) (hy : 0 < y) :
    x ^ n ≤ y ^ n * 2 ^ k ↔ n * (logb 2 x - logb 2 y) ≤ (k : ℝ) := by
  have hx' : (0 : ℝ) < (x ^ n : Nat) := by exact_mod_cast Nat.pow_pos hx
  have hy' : (0 : ℝ) < (2 ^ k * y ^ n : Nat) := by exact_mod_cast Nat.mul_pos (Nat.two_pow_pos k) (Nat.pow_pos hy)
  rw [mul_comm (y ^ n), ← Nat.cast_le (α := ℝ), ← Real.logb_le_logb one_lt_two hx' hy',
    logb_two_pow_mul (Nat.pow_pos hy), Nat.cast_pow, Nat.cast_pow, Real.logb_pow, Real.logb_pow, mul_sub,
    sub_le_iff_le_add]

/-- The quotient of the powers, its bit length and the division by the total lose nothing of the floor. -/
theorem log2_div_div_eq_floor {x y t : Nat} (n : Nat) (hy : 0 < y) (hxy : y ≤ x) (ht : 0 < t) :
    Nat.log2 (x ^ n / y ^ n) / t = ⌊n * (logb 2 x - logb 2 y) / t⌋₊ := by
  have hpow : 0 < y ^ n := Nat.pow_pos hy
  have hne : x ^ n / y ^ n ≠ 0 := (Nat.div_pos (Nat.pow_le_pow_left hxy n) hpow).ne'
  have hnonneg : 0 ≤ n * (logb 2 x - logb 2 y) / t :=
    div_nonneg (mul_nonneg (Nat.cast_nonneg n) (sub_nonneg.2 (logb_le_logb_of_nat_le hy hxy))) (Nat.cast_nonneg t)
  refine eq_of_forall_le_iff fun q => ?_
  rw [Nat.le_div_iff_mul_le ht, Nat.le_log2 hne, Nat.le_div_iff_mul_le hpow,
    two_pow_mul_pow_le_iff (hy.trans_le hxy) hy, Nat.le_floor_iff hnonneg, le_div_iff₀ (by exact_mod_cast ht),
    Nat.cast_mul]

/-- The same for the ceiling. -/
theorem ceilDiv_clog_eq_ceil {x y t : Nat} (n : Nat) (hx : 0 < x) (hy : 0 < y) (ht : 0 < t) :
    ceilDiv (Nat.clog 2 (ceilDiv (x ^ n) (y ^ n))) t = ⌈n * (logb 2 x - logb 2 y) / t⌉₊ := by
  refine eq_of_forall_ge_iff fun q => ?_
  rw [ceilDiv_le_iff ht, Nat.clog_le_iff_le_pow one_lt_two, ceilDiv_le_iff (Nat.pow_pos hy),
    pow_le_pow_mul_two_pow_iff hx hy, Nat.ceil_le, div_le_iff₀ (by exact_mod_cast ht), Nat.cast_mul, mul_comm (t : ℝ)]

theorem totalBits_of_wholeEntropy {c : List Nat} {m : Nat} (h : wholeEntropy c c.sum = some m) : totalBits c = m := by
  unfold wholeEntropy at h
  split at h
  case isTrue hpow =>
    rw [Option.some.inj h] at hpow
    rw [totalBits_eq_logb_sub, hpow, logb_two_pow_mul (selfPowers_pos c), add_sub_cancel_right]
  case isFalse => exact nomatch h

theorem entropyValue_of_wholeEntropy {c : List Nat} {m : Nat} (h : wholeEntropy c c.sum = some m) :
    entropyValue c = ((m * 2 ^ Config.frac : Nat) : ℝ) / c.sum := by
  rw [entropyValue, totalBits_of_wholeEntropy h, Nat.cast_mul, Nat.cast_pow, Nat.cast_ofNat]

theorem entropyValue_eq_mul_div (c : List Nat) :
    entropyValue c = ((2 ^ Config.frac : Nat) : ℝ) *
      (logb 2 ((c.sum ^ c.sum : Nat) : ℝ) - logb 2 (selfPowers c)) / c.sum := by
  rw [entropyValue, totalBits_eq_logb_sub, mul_comm, Nat.cast_pow 2, Nat.cast_ofNat]

theorem entropyFloorExact_eq {c : List Nat} (ht : 0 < c.sum) : entropyFloorExact c c.sum = ⌊entropyValue c⌋₊ := by
  unfold entropyFloorExact
  cases hw : wholeEntropy c c.sum with
  | some m =>
    rw [entropyValue_of_wholeEntropy hw]
    exact (Nat.floor_div_eq_div _ _).symm
  | none => rw [entropyValue_eq_mul_div, log2_div_div_eq_floor _ (selfPowers_pos c) (selfPowers_le c) ht]

theorem entropyCeilExact_eq {c : List Nat} (ht : 0 < c.sum) : entropyCeilExact c c.sum = ⌈entropyValue c⌉₊ := by
  unfold entropyCeilExact
  cases hw : wholeEntropy c c.sum with
  | some m =>
    rw [entropyValue_of_wholeEntropy hw]
    exact ceilDiv_eq_ceil _ ht
  | none => rw [entropyValue_eq_mul_div, ceilDiv_clog_eq_ceil _ Nat.pow_self_pos (selfPowers_pos c) ht]

/-- Where the two bounds round down alike, so does the value between them. -/
theorem entropyFloor_eq {c : List Nat} (ht : 0 < c.sum) : entropyFloor c c.sum = ⌊entropyValue c⌋₊ := by
  rw [entropyFloor]
  split
  case isTrue heq =>
    have hlow : entropyLower c c.sum / (c.sum * 2 ^ (logFrac - Config.frac)) ≤ ⌊entropyValue c⌋₊ := by
      rw [← Nat.floor_div_eq_div (K := ℝ), entropyValue_eq_div]
      exact Nat.floor_le_floor (div_le_div_of_nonneg_right (entropyLower_le ht) (Nat.cast_nonneg _))
    have hup : ⌊entropyValue c⌋₊ ≤ entropyUpper c c.sum / (c.sum * 2 ^ (logFrac - Config.frac)) := by
      rw [← Nat.floor_div_eq_div (K := ℝ), entropyValue_eq_div]
      exact Nat.floor_le_floor (div_le_div_of_nonneg_right (le_entropyUpper ht) (Nat.cast_nonneg _))
    exact hlow.antisymm (heq ▸ hup)
  case isFalse => exact entropyFloorExact_eq ht

theorem entropyCeil_eq {c : List Nat} (ht : 0 < c.sum) : entropyCeil c c.sum = ⌈entropyValue c⌉₊ := by
  have hunit : 0 < c.sum * 2 ^ (logFrac - Config.frac) := Nat.mul_pos ht (Nat.two_pow_pos _)
  rw [entropyCeil]
  split
  case isTrue heq =>
    have hlow : ceilDiv (entropyLower c c.sum) (c.sum * 2 ^ (logFrac - Config.frac)) ≤ ⌈entropyValue c⌉₊ := by
      rw [ceilDiv_eq_ceil _ hunit, entropyValue_eq_div]
      exact Nat.ceil_le_ceil (div_le_div_of_nonneg_right (entropyLower_le ht) (Nat.cast_nonneg _))
    have hup : ⌈entropyValue c⌉₊ ≤ ceilDiv (entropyUpper c c.sum) (c.sum * 2 ^ (logFrac - Config.frac)) := by
      rw [ceilDiv_eq_ceil _ hunit, entropyValue_eq_div]
      exact Nat.ceil_le_ceil (div_le_div_of_nonneg_right (le_entropyUpper ht) (Nat.cast_nonneg _))
    exact (heq ▸ hlow).antisymm hup
  case isFalse => exact entropyCeilExact_eq ht

/-! ## `entQ` (R178) -/

theorem entropyValue_le {c : List Nat} (hlen : c.length ≤ 256) (ht : 0 < c.sum) :
    entropyValue c ≤ ((8 * 2 ^ Config.frac : Nat) : ℝ) := by
  rw [entropyValue, div_le_iff₀ (by exact_mod_cast ht), Nat.cast_mul, Nat.cast_pow, Nat.cast_ofNat, Nat.cast_ofNat,
    mul_right_comm]
  exact mul_le_mul_of_nonneg_right (totalBits_le hlen ht) (by positivity)

/-- Counts that are 0 or `m`: their total is `m` times the number of the nonzero ones. -/
theorem sum_eq_length_filter_mul {c : List Nat} {m : Nat} (h : ∀ x ∈ c, x = 0 ∨ x = m) :
    c.sum = (c.filter fun v => v != 0).length * m := by
  induction c with
  | nil => simp
  | cons v c ih =>
    obtain ⟨hv, hc⟩ := List.forall_mem_cons.1 h
    rw [List.sum_cons, ih hc]
    obtain rfl | hpos := Nat.eq_zero_or_pos v
    · simp
    · obtain rfl : v = m := hv.resolve_left hpos.ne'
      simp [hpos.ne', Nat.add_mul, Nat.add_comm]

/-- What property (iii) of R178 asks of the counts. -/
theorem equal_counts_of_exactEntropy {c : List Nat} {k : Nat} (h : exactEntropy c = some k) :
    ∃ m, 0 < m ∧ (∀ x ∈ c, x = 0 ∨ x = m) ∧ c.sum = 2 ^ k * m := by
  unfold exactEntropy at h
  split at h
  case h_1 => exact nomatch h
  case h_2 v rest hf =>
    split at h
    case isFalse => exact nomatch h
    case isTrue hall =>
      obtain rfl := Option.some.inj h
      simp only [Bool.and_eq_true, List.all_eq_true, beq_iff_eq] at hall
      obtain ⟨hrest, hpow⟩ := hall
      have hmem : ∀ x, x ∈ v :: rest ↔ x ∈ c ∧ x ≠ 0 := fun x => by rw [← hf]; simp
      have hcounts : ∀ x ∈ c, x = 0 ∨ x = v := fun x hx => or_iff_not_imp_left.2 fun h0 =>
        (List.mem_cons.1 ((hmem x).2 ⟨hx, h0⟩)).elim id (hrest x)
      refine ⟨v, Nat.pos_of_ne_zero ((hmem v).1 List.mem_cons_self).2, hcounts, ?_⟩
      rw [sum_eq_length_filter_mul hcounts, hf, hpow, List.length_cons]

theorem weightedSum_of_equal_counts {c : List Nat} {m : Nat} (x : ℝ) (h : ∀ v ∈ c, v = 0 ∨ v = m) :
    (c.map fun v : Nat => (v : ℝ) * (x - logb 2 v)).sum = c.sum * (x - logb 2 m) := by
  induction c with
  | nil => simp
  | cons v c ih =>
    obtain ⟨hv, hc⟩ := List.forall_mem_cons.1 h
    rw [List.map_cons, List.sum_cons, List.sum_cons, ih hc, Nat.cast_add, add_mul]
    obtain rfl | rfl := hv
    · rw [Nat.cast_zero, zero_mul, zero_mul]
    · rfl

/-- Property (iii): equal counts, `2^k` in number, have exactly `k` bits. -/
theorem entropyValue_of_exactEntropy {c : List Nat} {k : Nat} (ht : 0 < c.sum) (h : exactEntropy c = some k) :
    entropyValue c = k * 2 ^ Config.frac := by
  obtain ⟨m, hm, hcounts, hsum⟩ := equal_counts_of_exactEntropy h
  have hbits : totalBits c = c.sum * k := by
    rw [totalBits_eq_sum, weightedSum_of_equal_counts _ hcounts]
    conv_lhs => rw [hsum, logb_two_pow_mul hm, add_sub_cancel_right, ← hsum]
  rw [entropyValue, hbits, mul_assoc, mul_div_cancel_left₀ _ (by exact_mod_cast ht.ne')]

/-- A value put between the ceiling less the tolerance and the floor plus the tolerance, or at the 8.0 the entropy does
not exceed, is within the tolerance. -/
theorem clamp_within {e : ℝ} {tol top lo hi : Nat} (free : Nat) (hlo : lo = ⌈e⌉₊ - tol)
    (hhi : hi = min (⌊e⌋₊ + tol) top) (he : 0 ≤ e) (htop : e ≤ top) (htol : 0 < tol) :
    |((min (max free lo) hi : Nat) : ℝ) - e| ≤ tol := by
  subst hlo hhi
  have hfloor := Nat.floor_le he
  have hlt := Nat.lt_floor_add_one e
  have hceil := Nat.le_ceil e
  have htol' : (1 : ℝ) ≤ tol := by exact_mod_cast htol
  have hsub : (⌈e⌉₊ : ℝ) ≤ ((⌈e⌉₊ - tol : Nat) : ℝ) + tol := by
    exact_mod_cast Nat.sub_le_iff_le_add.1 (le_refl (⌈e⌉₊ - tol))
  rw [abs_le, Nat.cast_min, Nat.cast_max, Nat.cast_min, Nat.cast_add]
  constructor
  · rw [neg_le_sub_iff_le_add, ← sub_le_iff_le_add]
    refine le_min (le_max_of_le_right ?_) (le_min ?_ ?_) <;> linarith
  · rw [sub_le_iff_le_add]
    refine (min_le_right _ _).trans ((min_le_left _ _).trans ?_)
    linarith

theorem entQ_of_some {c : List Nat} {k : Nat} (h : exactEntropy c = some k) (t : Nat) :
    entQ c t = k * 2 ^ Config.frac := by
  simp only [entQ, h]

theorem entQ_of_none {c : List Nat} (h : exactEntropy c = none) (t : Nat) :
    entQ c t = min (max (Config.entFree c t) (entMin c t)) (entMax c t) := by
  simp only [entQ, h]

theorem entMin_eq {c : List Nat} (ht : 0 < c.sum) : entMin c c.sum = ⌈entropyValue c⌉₊ - Config.entTol :=
  congrArg (· - Config.entTol) (entropyCeil_eq ht)

theorem entMax_eq {c : List Nat} (ht : 0 < c.sum) :
    entMax c c.sum = min (⌊entropyValue c⌋₊ + Config.entTol) (8 * 2 ^ Config.frac) :=
  congrArg (fun x => min (x + Config.entTol) (8 * 2 ^ Config.frac)) (entropyFloor_eq ht)

/-- `entQ` is within the tolerance of the entropy of the counts (R178 (i)). -/
theorem entQ_within_entTol {c : List Nat} (hlen : c.length ≤ 256) (ht : 0 < c.sum) :
    |(entQ c c.sum : ℝ) - entropyValue c| ≤ Config.entTol := by
  cases hk : exactEntropy c with
  | some k =>
    rw [entQ_of_some hk, entropyValue_of_exactEntropy ht hk, Nat.cast_mul, Nat.cast_pow, Nat.cast_ofNat, sub_self,
      abs_zero]
    exact Nat.cast_nonneg _
  | none =>
    rw [entQ_of_none hk]
    exact clamp_within _ (entMin_eq ht) (entMax_eq ht) (entropyValue_nonneg c) (entropyValue_le hlen ht) (by decide)

/-! ## The entropy in the words of R177 -/

/-- The sum of R177 over the 256 values is the entropy of the list of counts. -/
theorem entropyUnits_eq_entropyValue {f : Nat → Nat} {t : Nat} (h : ((List.range 256).map f).sum = t) (ht : 0 < t) :
    Spec.entropyUnits f t = entropyValue ((List.range 256).map f) := by
  have ht' : (0 : ℝ) < t := by exact_mod_cast ht
  have hbits : totalBits ((List.range 256).map f) =
      ∑ v ∈ Finset.range 256, (f v : ℝ) * (logb 2 t - logb 2 (f v)) := by
    rw [totalBits_eq_sum, h, List.map_map]
    rfl
  rw [Spec.entropyUnits, entropyValue, hbits, h, mul_div_right_comm, Finset.sum_div]
  refine congrArg (· * (2 : ℝ) ^ 24) (Finset.sum_congr rfl fun v _ => ?_)
  split
  case isTrue hzero => rw [hzero, Nat.cast_zero, zero_mul, zero_div]
  case isFalse hne =>
    have hf : (f v : ℝ) ≠ 0 := by exact_mod_cast hne
    rw [Real.logb_div ht'.ne' hf, div_mul_eq_mul_div]

end Sys2Proof.Machine
end

section
/-! PROOF. The metrics in the words of the rules: the counts of an image (R175, R176), its entropy (R177, R178), the sums
of the correlation (R191) and of the comparison (R201), and the rounded quotients (R192, R202, R213). -/

namespace Sys2Proof.Machine

open Sys2Proof.Spec

variable (s : State) (p : Buffer)

/-! ## Counts -/

/-- Counting in the index list and in the index set is the same. -/
theorem countP_range_eq_card (n : Nat) (P : Nat → Prop) [DecidablePred P] :
    (List.range n).countP (fun k => decide (P k)) = ((Finset.range n).filter P).card := by
  rw [List.countP_eq_length_filter]
  rfl

theorem histBins_image (f : Pixel → Byte) : histBins ((s.image p).map f) = (List.range 256).map (count s p f) := by
  refine List.map_congr_left fun v _ => ?_
  rw [count, ← countP_range_eq_card, State.image, List.map_map, List.countP_map]
  rfl

theorem combinedCounts_image : combinedCounts (s.image p) = (List.range 256).map (combined s p) := by
  simp only [combinedCounts, histBins_image, List.zipWith_map, List.zipWith_self]
  rfl

theorem count_le (f : Pixel → Byte) (v : Nat) : count s p f v ≤ s.width p * s.height p :=
  (Finset.card_filter_le _ _).trans_eq (Finset.card_range _)

/-- Every pixel is counted once. -/
theorem sum_count (f : Pixel → Byte) : ((List.range 256).map (count s p f)).sum = s.width p * s.height p := by
  have hfib := Finset.card_eq_sum_card_fiberwise (s := Finset.range (s.width p * s.height p)) (t := Finset.range 256)
    (f := fun k => (f (s.pixelAt p k)).toNat) fun k _ => by simpa using (f (s.pixelAt p k)).isLt
  rw [Finset.card_range] at hfib
  exact hfib.symm

theorem sum_combined : ((List.range 256).map (combined s p)).sum = 3 * (s.width p * s.height p) := by
  have hsum : ((List.range 256).map (combined s p)).sum = ((List.range 256).map (count s p Pixel.r)).sum +
      ((List.range 256).map (count s p Pixel.g)).sum + ((List.range 256).map (count s p Pixel.b)).sum := by
    simp only [← List.sum_map_add]
    rfl
  rw [hsum, sum_count, sum_count, sum_count]
  ring

/-! ## The tables -/

/-- A word outside a stored table reads as before. -/
theorem wordAt_storeEntries_of_disjoint {base x : Nat} {es : List Nat}
    (h : x + 4 ≤ base ∨ base + 4 * es.length ≤ x) :
    (s.storeEntries base es).wordAt x = s.wordAt x := by
  have hbyte : ∀ j < 4, (s.storeEntries base es).byteAt (x + j) = s.byteAt (x + j) := fun j hj =>
    s.byteAt_storeEntries_of_not_mem (by omega)
  rw [State.wordAt, State.wordAt, hbyte 1 (by decide), hbyte 2 (by decide), hbyte 3 (by decide),
    show (s.storeEntries base es).byteAt x = s.byteAt x from hbyte 0 (by decide)]

theorem histTable_storeEntries_of_disjoint {base tab : Nat} {es : List Nat} (hes : es.length = 256)
    (h : tab + 1024 ≤ base ∨ base + 1024 ≤ tab) : (s.storeEntries base es).histTable tab = s.histTable tab := by
  refine List.map_congr_left fun v hv => ?_
  have hv := List.mem_range.1 hv
  rw [wordAt_storeEntries_of_disjoint]
  omega

/-- A stored table of 256 words reads back, where its entries fit a word. -/
theorem histTable_storeEntries (base : Nat) {f : Nat → Nat} (hf : ∀ v, f v < 2 ^ 32) :
    (s.storeEntries base ((List.range 256).map f)).histTable base = (List.range 256).map f := by
  refine List.map_congr_left fun v hv => ?_
  have hv := List.mem_range.1 hv
  rw [State.wordAt_storeEntries_of_lt _ _ _ _ (by simpa using hv), BitVec.toNat_ofNat]
  simpa [List.getD_eq_getElem?_getD, hv] using Nat.mod_eq_of_lt (hf v)

@[simp] theorem histTable_complete (base : Nat) : s.complete.histTable base = s.histTable base := by
  simp only [State.histTable, State.complete_wordAt]

variable {s p}

theorem count_lt_of_dimsLegal (h : dimsLegal s p) (f : Pixel → Byte) (v : Nat) : count s p f v < 2 ^ 32 := by
  have hle := count_le s p f v
  obtain ⟨-, -, hlen⟩ := h
  omega

/-- The three tables after `COUNT` hold the counts of the image (R175). -/
theorem resultAt_countImage (h : dimsLegal s p) :
    (s.countImage (s.image p)).complete.resultAt .histogram = .histogram ((List.range 256).map (count s p Pixel.r))
      ((List.range 256).map (count s p Pixel.g)) ((List.range 256).map (count s p Pixel.b)) := by
  have hcount := count_lt_of_dimsLegal h
  simp only [State.resultAt, histTable_complete, State.countImage, histBins_image]
  rw [histTable_storeEntries_of_disjoint _ (by simp) (by decide),
    histTable_storeEntries_of_disjoint _ (by simp) (by decide),
    histTable_storeEntries _ _ (hcount _), histTable_storeEntries_of_disjoint _ (by simp) (by decide),
    histTable_storeEntries _ _ (hcount _), histTable_storeEntries _ _ (hcount _)]

/-! ## The entropy (R177, R178) -/

theorem entQ_image_within (h : dimsLegal s p) :
    |((entQ (combinedCounts (s.image p)) (3 * (s.image p).length) : Nat) : ℝ) -
      entropyUnits (combined s p) (3 * (s.width p * s.height p))| ≤ 256 := by
  obtain ⟨hw, hh, -⟩ := h
  have hsum := sum_combined s p
  have hpos : 0 < 3 * (s.width p * s.height p) := Nat.mul_pos (by decide) (Nat.mul_pos hw hh)
  rw [entropyUnits_eq_entropyValue hsum hpos, combinedCounts_image, State.image_length, State.pixelCount, ← hsum]
  exact entQ_within_entTol (by simp) (hsum ▸ hpos)

/-! ## Rounded quotients (R192, R202, R213) -/

/-- A register that holds a quotient rounded down to 24 fraction bits. -/
theorem roundedDown_fixedValue {q num den : Nat} (hq : q = num * 2 ^ Config.frac / den) (hlt : q < 2 ^ 32) :
    roundedDown (fixedValue (word q)) num den := by
  have hval : fixedValue (word q) = (q : ℚ) / 2 ^ 24 := by
    rw [fixedValue, BitVec.toNat_ofNat, Nat.mod_eq_of_lt hlt]
  have hfloor : q = ⌊((num * 2 ^ 24 : Nat) : ℚ) / den⌋₊ := hq.trans (Nat.floor_div_eq_div _ _).symm
  have hexact : ((num * 2 ^ 24 : Nat) : ℚ) / den = num / den * 2 ^ 24 := by
    rw [Nat.cast_mul, Nat.cast_pow, Nat.cast_ofNat, mul_div_right_comm]
  have hle := Nat.floor_le (a := ((num * 2 ^ 24 : Nat) : ℚ) / den) (by positivity)
  have hup := Nat.lt_floor_add_one (((num * 2 ^ 24 : Nat) : ℚ) / den)
  rw [← hfloor, hexact] at hle hup
  refine ⟨⟨q, hval⟩, ?_, ?_⟩
  · rw [hval, div_le_iff₀ (by positivity)]
    exact hle
  · rw [hval, ← add_div, lt_div_iff₀ (by positivity)]
    exact hup

theorem meanQ_eq_div (acc cnt : Nat) : meanQ acc cnt = acc * 2 ^ Config.frac / (765 * cnt) := by
  rw [meanQ]
  split
  case isTrue h => rw [h, Nat.mul_zero, Nat.div_zero]
  case isFalse => rfl

theorem roundedDown_meanQ {acc cnt : Nat} (h : acc ≤ 765 * cnt) :
    roundedDown (fixedValue (word (meanQ acc cnt))) acc (765 * cnt) :=
  roundedDown_fixedValue (meanQ_eq_div acc cnt) ((meanQ_le h).trans_lt (by norm_num))

theorem roundedDown_percentQ {part whole : Nat} (h : part ≤ whole) :
    roundedDown (fixedValue (word (percentQ part whole))) (100 * part : Nat) whole :=
  roundedDown_fixedValue rfl ((percentQ_le h).trans_lt (by norm_num))

/-! ## The sums of `CORR` (R191) -/

theorem chanSum_eq_channelSum {x y : Nat} (hx : x < s.width p) (hy : y < s.height p) :
    chanSum s p x y = channelSum (s.image p) (s.width p) x y := by
  have hk : y * s.width p + x < s.pixelCount p := by
    have := Nat.mul_le_mul_right (s.width p) hy
    rw [State.pixelCount, Nat.mul_comm (s.width p)]
    linarith
  rw [channelSum, State.image_getD _ _ _ hk]
  rfl

/-- The sum over the pairs that lie `dx` and `dy` apart. -/
theorem gridSum_absDiff_eq_pairSum {dx dy w h : Nat} (hw : w + dx ≤ s.width p) (hh : h + dy ≤ s.height p) :
    (gridSum w h fun x y => absDiff (channelSum (s.image p) (s.width p) x y)
      (channelSum (s.image p) (s.width p) (x + dx) (y + dy))) = pairSum s p dx dy w h := by
  rw [gridSum_eq_sum]
  refine Finset.sum_congr rfl fun y hy => Finset.sum_congr rfl fun x hx => ?_
  have hx := Finset.mem_range.1 hx
  have hy := Finset.mem_range.1 hy
  rw [absDiff, chanSum_eq_channelSum (by omega) (by omega), chanSum_eq_channelSum (by omega) (by omega)]

theorem pairSum_le {dx dy w h : Nat} (hw : w + dx ≤ s.width p) (hh : h + dy ≤ s.height p) :
    pairSum s p dx dy w h ≤ 765 * (w * h) := by
  rw [← gridSum_absDiff_eq_pairSum hw hh]
  exact gridSum_le fun x y => absDiff_le (Pixel.sum_le _) (Pixel.sum_le _)

/-! ## The sums of `NPCR_UACI` (R201) -/

variable {n : Nat}

theorem zip_images (ha : s.width .bufA * s.height .bufA = n) (hb : s.width .bufB * s.height .bufB = n) :
    (s.image .bufA).zip (s.image .bufB) = (List.range n).map fun k => (s.pixelAt .bufA k, s.pixelAt .bufB k) := by
  rw [State.image, State.image, State.pixelCount, State.pixelCount, ha, hb]
  exact List.zip_map'

theorem diffCount_images (ha : s.width .bufA * s.height .bufA = n) (hb : s.width .bufB * s.height .bufB = n) :
    diffCount (s.image .bufA) (s.image .bufB) = differing s n := by
  rw [diffCount, zip_images ha hb, List.countP_map, differing, ← countP_range_eq_card]
  refine List.countP_congr fun k _ => ?_
  simp [rgbDiffers, State.pixelAt, Buffer.base, Finset.range_add_one, or_assoc, or_comm]

theorem sumAbsDiff_images (ha : s.width .bufA * s.height .bufA = n) (hb : s.width .bufB * s.height .bufB = n) :
    sumAbsDiff (s.image .bufA) (s.image .bufB) = ∑ k ∈ Finset.range n, pixelSad s k := by
  rw [sumAbsDiff, zip_images ha hb, List.map_map]
  refine Finset.sum_congr (s₁ := Finset.range n) rfl fun k _ => ?_
  simp only [pixelSad, Finset.sum_range_succ, Finset.sum_range_zero, Nat.zero_add]
  rfl

end Sys2Proof.Machine
end

section
/-! PROOF. The keystream in the words of the rules: the closed form of the seed (R131), the step with the shifts as
arithmetic (R132), the bytes of the output words (R133), and the image the stream cipher leaves (R135). -/

namespace Sys2Proof.Machine

open Sys2Proof.Spec

/-! ## Key and IV bytes (R34, R35) -/

theorem wordFile_bytes_length (f : WordFile) : f.bytes.length = 32 := rfl

theorem wordFile_bytes_getD (f : WordFile) {i : Nat} (hi : i < 32) : f.bytes.getD i 0 = fileByte f i := by
  have hlane : i % 4 < 4 := Nat.mod_lt _ (by decide)
  have hword : i / 4 < 8 := by omega
  rw [fileByte, ofNat_div_eq_lane _ hlane]
  have hi : i = 4 * (i / 4) + i % 4 := by omega
  conv_lhs => rw [hi]
  generalize i / 4 = j at hword
  generalize i % 4 = k at hlane
  interval_cases j <;> interval_cases k <;> rfl

theorem take_bytes_getD (f : WordFile) {n : Nat} (hn : n ≤ 32) (i : Nat) :
    (f.bytes.take n).getD i 0 = if i < n then fileByte f i else 0 := by
  split
  case isTrue hi =>
    rw [← wordFile_bytes_getD f (by omega), List.getD_eq_getElem?_getD, List.getElem?_take_of_lt hi,
      List.getD_eq_getElem?_getD]
  case isFalse hi => rw [List.getD_eq_default _ _ (by simp [wordFile_bytes_length]; omega)]

/-! ## The seed (R131) -/

/-- A byte of 0 changes nothing, so a short key may be read as padded with 0. -/
theorem xorIntoPair_zero (pair : Word × Word) (i : Nat) : xorIntoPair pair i 0 = pair := by
  simp [xorIntoPair]

theorem foldl_zipIdx_eq_foldl_range (n : Nat) (l : List Byte) (h : l.length ≤ n) (acc : Word × Word) :
    l.zipIdx.foldl (fun pair bi => xorIntoPair pair bi.2 bi.1) acc =
      (List.range n).foldl (fun pair i => xorIntoPair pair i (l.getD i 0)) acc := by
  induction n generalizing l with
  | zero => rw [List.eq_nil_of_length_eq_zero (Nat.le_zero.1 h)]; rfl
  | succ n ih =>
    rw [List.range_succ, List.foldl_append, List.foldl_cons, List.foldl_nil]
    obtain hlt | heq := Nat.lt_or_eq_of_le h
    · rw [← ih l (Nat.le_of_lt_succ hlt), List.getD_eq_default _ _ (Nat.le_of_lt_succ hlt), xorIntoPair_zero]
    · obtain rfl | ⟨init, b, rfl⟩ := l.eq_nil_or_concat'
      · simp at heq
      · have hlen : init.length = n := by simpa using heq
        have hlast : (init ++ [b]).getD n 0 = b := by simp [List.getD_eq_getElem?_getD, ← hlen]
        have hinit : (List.range n).foldl (fun pair i => xorIntoPair pair i ((init ++ [b]).getD i 0)) acc =
            (List.range n).foldl (fun pair i => xorIntoPair pair i (init.getD i 0)) acc :=
          List.foldl_ext _ _ _ fun pair i hi => by
            rw [List.getD_eq_getElem?_getD, List.getElem?_append_left (by simpa [hlen] using hi),
              List.getD_eq_getElem?_getD]
        rw [List.zipIdx_append, List.foldl_append, ih init hlen.le, hlast, hinit, hlen, Nat.zero_add]
        rfl

/-- The word of a pair of bytes, as a sum and as an exclusive or of shifted bytes. -/
theorem seedWord_eq_xor (f : Nat → Byte) (b : Nat) :
    seedWord f b = (f b).setWidth 32 ^^^ ((f (b + 1)).setWidth 32 <<< 8) ^^^ (f (b + 2)).setWidth 32 ^^^
      ((f (b + 3)).setWidth 32 <<< 8) := by
  have happ : seedWord f b = ((f (b + 1) ^^^ f (b + 3)) ++ (f b ^^^ f (b + 2))).setWidth 32 := by
    apply BitVec.eq_of_toNat_eq
    rw [seedWord, BitVec.toNat_setWidth, BitVec.toNat_append, ← Nat.shiftLeft_add_eq_or_of_lt (BitVec.isLt _),
      Nat.shiftLeft_eq, BitVec.toNat_ofNat, Nat.add_comm, Nat.mul_comm]
  rw [happ]
  ext i hi
  simp only [BitVec.getElem_setWidth, BitVec.getLsbD_append, BitVec.getElem_xor, BitVec.getElem_shiftLeft,
    BitVec.getLsbD_xor]
  by_cases hlow : i < 8
  · simp [hlow]
  · have hbyte : ∀ x : Byte, x.getLsbD i = false := fun x => BitVec.getLsbD_of_ge x i (by omega)
    simp [hlow, hbyte]

theorem foldPair_eq_seedWord {bytes : List Byte} {f : Nat → Byte} (h : ∀ i < 8, bytes.getD i 0 = f i) :
    foldPair bytes = (seedWord f 0, seedWord f 4) := by
  have htake : ∀ i < 8, (bytes.take 8).getD i 0 = f i := fun i hi => by
    rw [← h i hi, List.getD_eq_getElem?_getD, List.getElem?_take_of_lt hi, List.getD_eq_getElem?_getD]
  rw [foldPair, foldl_zipIdx_eq_foldl_range 8 _ (by simp)]
  simp only [List.range_succ, List.range_zero, List.nil_append, List.cons_append, List.foldl_cons, List.foldl_nil]
  simp only [htake 0 (by decide), htake 1 (by decide), htake 2 (by decide), htake 3 (by decide), htake 4 (by decide),
    htake 5 (by decide), htake 6 (by decide), htake 7 (by decide), seedWord_eq_xor]
  simp [xorIntoPair]

theorem seedState_eq_seed {s : State} (hkey : keyLegal s) (hiv : ivLegal s) :
    seedState s.keyBytes s.ivBytes = seed s := by
  have hk := foldPair_eq_seedWord (bytes := s.keyBytes) (f := keyOr0 s) fun i _ => take_bytes_getD _ hkey.2 i
  have hv := foldPair_eq_seedWord (bytes := s.ivBytes) (f := ivOr0 s) fun i _ => take_bytes_getD _ hiv i
  rw [seedState, hk, hv, seed]

/-! ## The step (R132) -/

theorem shiftLeft_eq_word (x : Word) (k : Nat) : x <<< k = word (x.toNat * 2 ^ k) := by
  rw [← Nat.shiftLeft_eq]
  rfl

theorem ushiftRight_eq_word (x : Word) (k : Nat) : x >>> k = word (x.toNat / 2 ^ k) := by
  rw [← Nat.shiftRight_eq_div_pow]
  have hlt := (x >>> k).isLt
  rw [BitVec.toNat_ushiftRight] at hlt
  apply BitVec.eq_of_toNat_eq
  rw [BitVec.toNat_ofNat, BitVec.toNat_ushiftRight, Nat.mod_eq_of_lt hlt]

theorem add_eq_word (x y : Word) : x + y = word (x.toNat + y.toNat) := by
  rw [word, BitVec.ofNat_add, BitVec.ofNat_toNat, BitVec.ofNat_toNat, BitVec.setWidth_eq, BitVec.setWidth_eq]

theorem xsStep_eq_xorshift (st : XsState) : xsStep st = xorshift st := by
  simp only [xsStep, xorshift, shiftLeft_eq_word, ushiftRight_eq_word, add_eq_word]

/-! ## The keystream (R133) and the cipher (R135) -/

variable {s : State} {p : Buffer}

/-- The bits `31 - 8 * k : 24 - 8 * k` of an output word are its keystream byte `k` (R133). -/
theorem ofNat_div_eq_keystreamBytes (w : Word) {k : Nat} (hk : k < 4) :
    BitVec.ofNat 8 (w.toNat / 2 ^ (24 - 8 * k)) = (keystreamBytes w).getD k 0 := by
  rw [← Nat.shiftRight_eq_div_pow]
  interval_cases k <;> rfl

theorem keystream_eq_keystreamByte (hkey : keyLegal s) (hiv : ivLegal s) {n i : Nat} (hi : i < n) :
    (keystream s.keyBytes s.ivBytes n).getD i 0 = keystreamByte s i := by
  rw [keystream_getD _ _ _ _ hi, seedState_eq_seed hkey hiv, keystreamByte, funext xsStep_eq_xorshift,
    ofNat_div_eq_keystreamBytes _ (Nat.mod_lt _ (by decide))]

/-- A byte of the image after the stream cipher (R135). -/
theorem byteAt_streamCipher (hkey : keyLegal s) (hiv : ivLegal s) {i : Nat} (hi : i < s.imageLen p) :
    (s.streamCipher p).byteAt (p.base + i) = s.byteAt (p.base + i) ^^^ keystreamByte s i := by
  rw [State.streamCipher, State.byteAt_store_of_mem _ (by simp; omega), Nat.add_sub_cancel_left,
    ← keystream_eq_keystreamByte hkey hiv hi]
  simp [List.getD_eq_getElem?_getD, State.bytesAt, hi]

end Sys2Proof.Machine
end

section
/-! PROOF. The function-level API (R126): the script of a function is one command, and what its caller receives is read
from the state that command leaves (R213, R220). -/

namespace Sys2Proof.Machine

open Sys2Proof.Spec

/-! ## The one step of a function's script -/

theorem run_one (s : State) : run 1 s = step s := by
  rw [run]
  cases step s <;> rfl

/-- The checks read neither `CMD` nor the host's side. -/
theorem checksOf_accepted (s : State) (w : Word) (rest : List HostEvent) (i : Instr) :
    checksOf (accepted s w rest) i = checksOf s i := by
  cases i <;> rfl

variable {s : State} {f : ApiCall} {p : Buffer} {i : Instr}

/-- The script of a function runs its command in the state that holds the word in `CMD`. -/
theorem run_apiScript (hs : s.script = []) (hf : apiScript f p = [.command i]) :
    run 1 (s.loadScript (apiScript f p)) = exec i (accepted s (encode i) []) := by
  have hscript : (s.loadScript (apiScript f p)).script = expandLine (.command i) ++ [] := by
    rw [hf, State.loadScript, hs]
    rfl
  rw [run_one, step_of_commandLine hscript]
  rfl

/-- A function whose command fails gives the error code and nothing else (R220; log 19). -/
theorem run_api_of_some {e : CommandError} (hs : s.script = []) (hf : apiScript f p = [.command i])
    (he : firstError (checksOf s i) = some e) :
    ∃ t, run 1 (s.loadScript (apiScript f p)) = .next t ∧ apiOutput f p t = .error e.code := by
  rw [← checksOf_accepted s (encode i) []] at he
  exact ⟨_, (run_apiScript hs hf).trans (exec_of_some he), rfl⟩

/-- A function whose command completes gives the result that stands where R126 says. -/
theorem run_api_of_none (hs : s.script = []) (hf : apiScript f p = [.command i])
    (hpass : firstError (checksOf s i) = none) :
    ∃ t, run 1 (s.loadScript (apiScript f p)) = .next t ∧ apiOutput f p t = .ok (t.resultAt (apiResult f p)) ∧
      t = (effectOf (accepted s (encode i) []) i).complete := by
  rw [← checksOf_accepted s (encode i) []] at hpass
  exact ⟨_, (run_apiScript hs hf).trans (exec_of_none hpass), rfl, rfl⟩

theorem code_eq_codeNumber (e : CommandError) : e.code = codeNumber e := by
  cases e <;> rfl

/-! ## The checks pass on legal operands -/

theorem firstError_dims (h : dimsLegal s p) : firstError [(s.badDims p, .badParameter)] = none := by
  simp [(s.badDims_eq_false_iff p).2 h]

theorem firstError_npcrUaci (ha : dimsLegal s .bufA) (hb : dimsLegal s .bufB)
    (hn : s.width .bufA * s.height .bufA = s.width .bufB * s.height .bufB) :
    firstError (checksOf s .npcrUaci) = none := by
  simp [checksOf, (s.badDims_eq_false_iff _).2 ha, (s.badDims_eq_false_iff _).2 hb, State.pixelCount, hn]

theorem firstError_streamEnc (hkey : keyLegal s) (hiv : ivLegal s) (h : dimsLegal s p) :
    firstError (checksOf s (.streamEnc p)) = none := by
  simp [checksOf, s.keyTooLong_eq_false_iff.2 hkey.2, s.ivTooLong_eq_false_iff.2 hiv,
    s.keyMissing_eq_false_iff.2 hkey.1, (s.badDims_eq_false_iff p).2 h]

theorem firstError_streamDec (hkey : keyLegal s) (hiv : ivLegal s) (h : dimsLegal s p) (hlen : lengthAgrees s p) :
    firstError (checksOf s (.streamDec p)) = none := by
  have hsame : s.lengthDiffers p = false := by
    rw [← Bool.not_eq_true, lengthDiffers_iff]
    exact fun ⟨hchk, hne⟩ => hne (hlen hchk)
  simp [checksOf, s.keyTooLong_eq_false_iff.2 hkey.2, s.ivTooLong_eq_false_iff.2 hiv,
    s.keyMissing_eq_false_iff.2 hkey.1, (s.badDims_eq_false_iff p).2 h, hsame]

theorem firstError_permChecks (h : permLegal s p) : firstError (s.permChecks p) = none := by
  obtain ⟨hkey, hdims, hw, hh, hiter⟩ := h
  have hiter : (s.iter.toNat == 0) = false := by simpa using Nat.ne_of_gt hiter
  simp [State.permChecks, s.keyTooLong_eq_false_iff.2 hkey.2, s.keyMissing_eq_false_iff.2 hkey.1,
    (s.badDims_eq_false_iff p).2 hdims, (s.tooSmall_eq_false_iff p).2 ⟨hw, hh⟩, hiter]

/-! ## The metric functions (R213) -/

theorem fixedValue_within {q : Nat} {e : ℝ} (hlt : q < 2 ^ 32) (h : |(q : ℝ) - e| ≤ 256) :
    |((fixedValue (word q) : ℚ) : ℝ) - e / 2 ^ 24| ≤ 1 / 2 ^ 16 := by
  have hval : ((fixedValue (word q) : ℚ) : ℝ) = q / 2 ^ 24 := by
    rw [fixedValue, BitVec.toNat_ofNat, Nat.mod_eq_of_lt hlt, Rat.cast_div, Rat.cast_natCast, Rat.cast_pow,
      Rat.cast_ofNat]
  rw [hval, ← sub_div, abs_div, abs_of_pos (by positivity : (0 : ℝ) < 2 ^ 24), div_le_iff₀ (by positivity)]
  refine h.trans_eq ?_
  norm_num

theorem computeEntropy_value (hs : s.script = []) (h : dimsLegal s p) :
    ∃ t v, run 1 (s.loadScript (apiScript .computeEntropy p)) = .next t ∧
      apiOutput .computeEntropy p t = .ok (.values [v]) ∧
      |((v : ℚ) : ℝ) - entropyUnits (combined s p) (3 * (s.width p * s.height p)) / 2 ^ 24| ≤ 1 / 2 ^ 16 := by
  obtain ⟨t, hrun, hout, rfl⟩ := run_api_of_none (f := .computeEntropy) (i := .entropy p) hs rfl (firstError_dims h)
  refine ⟨_, _, hrun, hout, fixedValue_within ?_ (entQ_image_within h)⟩
  refine (entQ_le ?_ _).trans_lt (by norm_num)
  simp [combinedCounts_image]

theorem computeCorrelation_values (hs : s.script = []) (h : dimsLegal s p) :
    ∃ t x y d, run 1 (s.loadScript (apiScript .computeCorrelation p)) = .next t ∧
      apiOutput .computeCorrelation p t = .ok (.values [x, y, d]) ∧
      roundedDown x (pairSum s p 1 0 (s.width p - 1) (s.height p)) (765 * ((s.width p - 1) * s.height p)) ∧
      roundedDown y (pairSum s p 0 1 (s.width p) (s.height p - 1)) (765 * (s.width p * (s.height p - 1))) ∧
      roundedDown d (pairSum s p 1 1 (s.width p - 1) (s.height p - 1))
        (765 * ((s.width p - 1) * (s.height p - 1))) := by
  obtain ⟨t, hrun, hout, rfl⟩ := run_api_of_none (f := .computeCorrelation) (i := .corr p) hs rfl (firstError_dims h)
  obtain ⟨hw, hh, -⟩ := h
  have hw : s.width p - 1 + 1 ≤ s.width p := by omega
  have hh : s.height p - 1 + 1 ≤ s.height p := by omega
  have hx : corrHAcc (s.image p) (s.width p) (s.height p) = _ := gridSum_absDiff_eq_pairSum (dy := 0) hw le_rfl
  have hy : corrVAcc (s.image p) (s.width p) (s.height p) = _ := gridSum_absDiff_eq_pairSum (dx := 0) le_rfl hh
  have hd : corrDAcc (s.image p) (s.width p) (s.height p) = _ := gridSum_absDiff_eq_pairSum hw hh
  refine ⟨_, _, _, _, hrun, hout, ?_, ?_, ?_⟩
  · exact hx ▸ roundedDown_meanQ (hx ▸ pairSum_le hw le_rfl)
  · exact hy ▸ roundedDown_meanQ (hy ▸ pairSum_le le_rfl hh)
  · exact hd ▸ roundedDown_meanQ (hd ▸ pairSum_le hw hh)

theorem computeNpcrUaci_values {n : Nat} (hs : s.script = []) (ha : dimsLegal s .bufA) (hb : dimsLegal s .bufB)
    (hna : s.width .bufA * s.height .bufA = n) (hnb : s.width .bufB * s.height .bufB = n) :
    ∃ t npcr uaci, run 1 (s.loadScript (apiScript .computeNPCRUACI p)) = .next t ∧
      apiOutput .computeNPCRUACI p t = .ok (.values [npcr, uaci]) ∧ roundedDown npcr (100 * differing s n) n ∧
      roundedDown uaci (100 * ∑ k ∈ Finset.range n, pixelSad s k) (765 * n) := by
  obtain ⟨t, hrun, hout, rfl⟩ := run_api_of_none (f := .computeNPCRUACI) (p := p) (i := .npcrUaci) hs rfl
    (firstError_npcrUaci ha hb (hna.trans hnb.symm))
  have hlen : (s.image .bufA).length = n := (s.image_length .bufA).trans hna
  have hpixels : s.pixelCount .bufA = n := hna
  have hdiff := diffCount_le (s.image .bufA) (s.image .bufB)
  have hsad := sumAbsDiff_le (s.image .bufA) (s.image .bufB)
  rw [hlen, diffCount_images hna hnb] at hdiff
  rw [hlen, sumAbsDiff_images hna hnb] at hsad
  have hnpcr : roundedDown (fixedValue (word (percentQ (diffCount (s.image .bufA) (s.image .bufB))
      (s.pixelCount .bufA)))) (100 * differing s n) n := by
    rw [diffCount_images hna hnb, hpixels]
    exact roundedDown_percentQ hdiff
  have huaci : roundedDown (fixedValue (word (percentQ (sumAbsDiff (s.image .bufA) (s.image .bufB))
      (765 * s.pixelCount .bufA)))) (100 * ∑ k ∈ Finset.range n, pixelSad s k) (765 * n) := by
    rw [sumAbsDiff_images hna hnb, hpixels]
    exact roundedDown_percentQ hsad
  exact ⟨_, _, _, hrun, hout, hnpcr, huaci⟩

/-! ## The images (R126) -/

theorem getElem?_image (s : State) (b : Buffer) {k : Nat} (hk : k < s.pixelCount b) :
    (s.image b)[k]? = some (s.pixelAt b k) := by
  simp [State.image, hk]

/-- The pixel with index `k`, every byte XORed with its keystream byte (R135). -/
def cipheredPixel (s : State) (p : Buffer) (k : Nat) : Pixel :=
  ⟨(s.pixelAt p k).r ^^^ keystreamByte s (4 * k), (s.pixelAt p k).g ^^^ keystreamByte s (4 * k + 1),
    (s.pixelAt p k).b ^^^ keystreamByte s (4 * k + 2), (s.pixelAt p k).a ^^^ keystreamByte s (4 * k + 3)⟩

theorem pixelAt_streamCipher (hkey : keyLegal s) (hiv : ivLegal s) {k : Nat} (hk : k < s.pixelCount p) :
    (s.streamCipher p).pixelAt p k = cipheredPixel s p k := by
  have hbyte : ∀ c < 4, (s.streamCipher p).byteAt (p.base + (4 * k + c)) =
      s.byteAt (p.base + (4 * k + c)) ^^^ keystreamByte s (4 * k + c) := fun c hc =>
    byteAt_streamCipher hkey hiv (by rw [State.imageLen]; omega)
  rw [State.pixelAt, cipheredPixel, Pixel.mk.injEq]
  exact ⟨hbyte 0 (by decide), hbyte 1 (by decide), hbyte 2 (by decide), hbyte 3 (by decide)⟩

/-- What the caller of a stream function receives once the command's checks have passed. -/
theorem streamFunction_image (hs : s.script = []) (hf : apiScript f p = [.command i]) (hr : apiResult f p = .buffer p)
    (heff : ∀ u, effectOf u i = u.streamCipher p) (hpass : firstError (checksOf s i) = none) (hkey : keyLegal s)
    (hiv : ivLegal s) : ∃ t px, run 1 (s.loadScript (apiScript f p)) = .next t ∧
      apiOutput f p t = .ok (.image (s.width p) (s.height p) px) ∧ px.length = s.width p * s.height p ∧
      ∀ k < px.length, px[k]? = some (t.pixelAt p k) ∧ t.pixelAt p k = cipheredPixel s p k := by
  obtain ⟨t, hrun, hout, rfl⟩ := run_api_of_none hs hf hpass
  rw [heff] at hrun hout
  rw [hr, State.resultAt, State.complete_width, State.complete_height, State.streamCipher_width,
    State.streamCipher_height] at hout
  refine ⟨_, _, hrun, hout, ?_, fun k hk => ?_⟩
  · rw [State.image_length, State.complete_pixelCount, State.streamCipher_pixelCount]
    rfl
  · rw [State.image_length] at hk
    refine ⟨getElem?_image _ _ hk, ?_⟩
    rw [State.complete_pixelCount, State.streamCipher_pixelCount] at hk
    rw [State.complete_pixelAt]
    exact pixelAt_streamCipher (s := accepted s (encode i) []) hkey hiv hk

/-- The dimension registers hold any dimension of an image (R30). -/
theorem move_otherBuffer_dims (s : State) (p : Buffer) (tab : List Nat) :
    (s.move p tab).width (otherBuffer p) = s.width p ∧ (s.move p tab).height (otherBuffer p) = s.height p := by
  cases p <;> simp [otherBuffer, State.width, State.height]

/-- What the caller of a permutation function receives once the command's checks have passed (R156). -/
theorem permFunction_image (hs : s.script = []) (hf : apiScript f p = [.command i])
    (hr : apiResult f p = .buffer (otherBuffer p)) (heff : ∀ u, ∃ tab, effectOf u i = (u.build p).move p tab)
    (hpass : firstError (checksOf s i) = none) : ∃ t px, run 1 (s.loadScript (apiScript f p)) = .next t ∧
      apiOutput f p t = .ok (.image (s.width p) (s.height p) px) ∧ px.length = s.width p * s.height p ∧
      ∀ k < px.length, px[k]? = some (t.pixelAt (otherBuffer p) k) := by
  obtain ⟨t, hrun, hout, rfl⟩ := run_api_of_none hs hf hpass
  obtain ⟨tab, htab⟩ := heff (accepted s (encode i) [])
  obtain ⟨hw, hh⟩ := move_otherBuffer_dims (State.build (accepted s (encode i) []) p) p tab
  rw [State.build_width, ← State.complete_width, ← htab] at hw
  rw [State.build_height, ← State.complete_height, ← htab] at hh
  rw [hr, State.resultAt, hw, hh] at hout
  refine ⟨_, _, hrun, hout, ?_, fun k hk => ?_⟩
  · rw [State.image_length, State.pixelCount, hw, hh]
    rfl
  · rw [State.image_length] at hk
    exact getElem?_image _ _ hk

/-! ## The other functions -/

theorem computeHistogram_tables (hs : s.script = []) (h : dimsLegal s p) :
    ∃ t, run 1 (s.loadScript (apiScript .computeHistogram p)) = .next t ∧
      apiOutput .computeHistogram p t = .ok (.histogram ((List.range 256).map (count s p Pixel.r))
        ((List.range 256).map (count s p Pixel.g)) ((List.range 256).map (count s p Pixel.b))) := by
  obtain ⟨t, hrun, hout, rfl⟩ := run_api_of_none (f := .computeHistogram) (i := .hist p) hs rfl (firstError_dims h)
  have hres := resultAt_countImage (s := accepted s (encode (.hist p)) []) (p := p) h
  exact ⟨_, hrun, hout.trans (congrArg Except.ok hres)⟩

end Sys2Proof.Machine

open Sys2Proof.Machine Sys2Proof.Spec

/-- Settles O58: each value is the register of the completed command, which holds the exact quotient rounded down, or the
entropy within the tolerance. -/
theorem apiMetricValues : Obligations.ApiMetricValues :=
  ⟨fun _ _ => computeEntropy_value, fun _ _ => computeCorrelation_values, fun _ _ _ => computeNpcrUaci_values⟩

/-- Settles O59: each function is one command, whose checks pass or give the first error, and whose effect leaves the
image or the tables where the result is read. -/
theorem apiImagesAndHistogram : Obligations.ApiImagesAndHistogram := by
  refine ⟨fun _ _ => computeHistogram_tables, ?stream, ?perm, ?failure⟩
  case stream =>
    intro f s p hf hs hkey hiv hdims
    have himage : ∃ t px, run 1 (s.loadScript (apiScript f p)) = .next t ∧
        apiOutput f p t = .ok (.image (s.width p) (s.height p) px) ∧ px.length = s.width p * s.height p ∧
        ∀ k < px.length, px[k]? = some (t.pixelAt p k) ∧ t.pixelAt p k = cipheredPixel s p k := by
      obtain rfl | ⟨rfl, hlen⟩ := hf
      · exact streamFunction_image hs rfl rfl (fun _ => rfl) (firstError_streamEnc hkey hiv hdims) hkey hiv
      · exact streamFunction_image hs rfl rfl (fun _ => rfl) (firstError_streamDec hkey hiv hdims hlen) hkey hiv
    obtain ⟨t, px, hrun, hout, hlen, hpx⟩ := himage
    refine ⟨t, px, hrun, hout, hlen, fun k hk => ?_⟩
    obtain ⟨hget, hval⟩ := hpx k hk
    exact ⟨_, hget, rfl, congrArg Pixel.r hval, congrArg Pixel.g hval, congrArg Pixel.b hval, congrArg Pixel.a hval⟩
  case perm =>
    intro f s p hf hs h
    obtain rfl | rfl := hf
    · exact permFunction_image (i := .permEnc p) hs rfl rfl (fun _ => ⟨_, rfl⟩) (firstError_permChecks h)
    · exact permFunction_image (i := .permDec p) hs rfl rfl (fun _ => ⟨_, rfl⟩) (firstError_permChecks h)
  case failure =>
    intro f s p i e hs hf hcause hfirst
    obtain ⟨t, hrun, hout⟩ := run_api_of_some hs hf (firstError_of_cause hcause hfirst)
    exact ⟨t, hrun, hout.trans (congrArg Except.error (code_eq_codeNumber e))⟩
end

section
/-! PROOF. The commands of the keystream family (R131 to R136): the errors each reports, the state the keystream procedure
leaves, and the bytes each command writes. -/

namespace Sys2Proof.Machine

open Sys2Proof.Spec

variable {s : State} {p : Buffer}

/-! ## The error report (R222, R231) -/

theorem raise_eq_failedState (s : State) (e : CommandError) : s.raise e = failedState s e := by
  rw [failedState, ← code_eq_codeNumber]
  rfl

/-- Every command reports the first error whose cause holds (R231, R232). -/
theorem errorsReported_all (i : Instr) : errorsReported i := fun s e hcause hfirst => by
  rw [exec_of_some (firstError_of_cause hcause hfirst), raise_eq_failedState]

/-! ## The checks on legal operands -/

theorem firstError_xsSeed (hkey : keyLegal s) (hiv : ivLegal s) : firstError (checksOf s .xsSeed) = none := by
  simp [checksOf, s.keyTooLong_eq_false_iff.2 hkey.2, s.ivTooLong_eq_false_iff.2 hiv,
    s.keyMissing_eq_false_iff.2 hkey.1]

theorem firstError_ksGen (hkey : keyLegal s) (hiv : ivLegal s) (hlen : s.ksLen.toNat ≤ 4194304) :
    firstError (checksOf s (.ksGen p)) = none := by
  simp [checksOf, s.keyTooLong_eq_false_iff.2 hkey.2, s.ivTooLong_eq_false_iff.2 hiv,
    s.keyMissing_eq_false_iff.2 hkey.1, hlen]

theorem lengthDiffers_iff_not_lengthAgrees : s.lengthDiffers p = true ↔ ¬lengthAgrees s p := by
  rw [lengthDiffers_iff, lengthAgrees, Classical.not_imp, plen]

/-- The length check is the last: it is reached where the other operands are legal (R136). -/
theorem firstError_streamDec_of_not_lengthAgrees (hkey : keyLegal s) (hiv : ivLegal s) (hdims : dimsLegal s p)
    (hlen : ¬lengthAgrees s p) : firstError (checksOf s (.streamDec p)) = some .bufferLengthMismatch := by
  simp [checksOf, s.keyTooLong_eq_false_iff.2 hkey.2, s.ivTooLong_eq_false_iff.2 hiv,
    s.keyMissing_eq_false_iff.2 hkey.1, (s.badDims_eq_false_iff p).2 hdims, lengthDiffers_iff_not_lengthAgrees.2 hlen]

/-! ## The step (R132) -/

/-- The sum adds the new word to itself, so the output word is even. -/
theorem xorshift_x0_getLsbD_zero (st : XsState) : (xorshift st).x0.getLsbD 0 = false := by
  have hsum : (xorshift st).x0 = word ((xorshift st).x1.toNat + (xorshift st).x1.toNat) := rfl
  rw [hsum, BitVec.getLsbD_ofNat, Nat.testBit_zero]
  simp [← two_mul]

/-- The zero pair is a fixed point (R132, R256). -/
theorem xorshift_zero {st : XsState} (h0 : st.x0 = 0) (h1 : st.x1 = 0) :
    (xorshift st).x0 = 0 ∧ (xorshift st).x1 = 0 := by
  simp [xorshift, h0, h1]

/-! ## The keystream procedure (R133) -/

/-- What `KS(n)` leaves in the registers. -/
theorem runKeystream_eq (hkey : keyLegal s) (hiv : ivLegal s) (n : Nat) :
    s.runKeystream n =
      { s with xs := keystreamEnd s n, ksWord := if n = 0 then s.ksWord else (keystreamEnd s n).x0 } := by
  have hfinal : xsSteps (keystreamSteps n) (seedState s.keyBytes s.ivBytes) = keystreamEnd s n := by
    rw [xsSteps_eq_iterate, seedState_eq_seed hkey hiv, funext xsStep_eq_xorshift]
    rfl
  rw [State.runKeystream, hfinal]

/-! ## `KS_GEN` (R134) -/

theorem byteAt_ksGen (hkey : keyLegal s) (hiv : ivLegal s) {a : Nat} (ha : inBuffer p s.ksLen.toNat a) :
    (effectOf s (.ksGen p)).byteAt a = keystreamByte s (a - p.base) := by
  obtain ⟨hlo, hhi⟩ := ha
  rw [effectOf, State.byteAt_store_of_mem _ (by rw [keystream_length]; exact ⟨hlo, hhi⟩)]
  exact keystream_eq_keystreamByte hkey hiv (by omega)

theorem byteAt_ksGen_of_not_inBuffer {a : Nat} (ha : ¬inBuffer p s.ksLen.toNat a) :
    (effectOf s (.ksGen p)).byteAt a = s.byteAt a := by
  rw [effectOf, State.byteAt_store_of_not_mem _ (by rw [keystream_length]; exact ha), State.runKeystream_byteAt]

/-! ## The stream cipher (R135) -/

theorem imageLen_eq_plen : s.imageLen p = plen s p := rfl

theorem byteAt_streamCipher_of_inBuffer (hkey : keyLegal s) (hiv : ivLegal s) {a : Nat}
    (ha : inBuffer p (plen s p) a) :
    (s.streamCipher p).byteAt a = s.byteAt a ^^^ keystreamByte s (a - p.base) := by
  obtain ⟨i, rfl⟩ := Nat.exists_eq_add_of_le ha.1
  rw [Nat.add_sub_cancel_left]
  exact byteAt_streamCipher hkey hiv (Nat.lt_of_add_lt_add_left ha.2)

theorem byteAt_streamCipher_of_not_inBuffer {a : Nat} (ha : ¬inBuffer p (plen s p) a) :
    (s.streamCipher p).byteAt a = s.byteAt a := by
  have hlen : (List.zipWith (fun d k => d ^^^ k) (s.bytesAt p.base (s.imageLen p))
      (keystream s.keyBytes s.ivBytes (s.imageLen p))).length = plen s p := by
    rw [List.length_zipWith, State.length_bytesAt, keystream_length, Nat.min_self, imageLen_eq_plen]
  rw [State.streamCipher, State.byteAt_store_of_not_mem _ (by rw [hlen]; exact ha), State.runKeystream_byteAt]

theorem plen_ne_zero (h : dimsLegal s p) : plen s p ≠ 0 := by
  obtain ⟨hw, hh, -⟩ := h
  have := Nat.mul_pos hw hh
  rw [plen]
  omega

/-- The registers after a stream command that completed. -/
theorem complete_streamCipher (hkey : keyLegal s) (hiv : ivLegal s) (hdims : dimsLegal s p) :
    (s.streamCipher p).complete = { s with
      mem := (s.streamCipher p).complete.mem
      xs := keystreamEnd s (plen s p)
      ksWord := (keystreamEnd s (plen s p)).x0
      status := doneStatus s.status } := by
  rw [State.streamCipher, imageLen_eq_plen, runKeystream_eq hkey hiv, if_neg (plen_ne_zero hdims)]
  rfl

end Sys2Proof.Machine

open Sys2Proof.Machine Sys2Proof.Spec

/-- Settles O30: the two folds are the closed form of the four words. -/
theorem xsSeedResult : Obligations.XsSeedResult := by
  refine ⟨⟨rfl, rfl⟩, errorsReported_all _, fun s hkey hiv => ?_⟩
  rw [exec_of_none (firstError_xsSeed hkey hiv), effectOf, seedState_eq_seed hkey hiv]
  rfl

/-- Settles O31: there is no check, and the step is the one with the shifts as arithmetic, whose sum is even. -/
theorem xsStepResult : Obligations.XsStepResult := by
  refine ⟨⟨rfl, rfl⟩, fun s => ⟨?_, rfl, rfl, xorshift_x0_getLsbD_zero _, xorshift_zero⟩⟩
  rw [exec_of_none rfl, effectOf, xsStep_eq_xorshift]
  rfl

/-- Settles O32: the store of the keystream follows the state that `KS(KS_LEN)` leaves. -/
theorem ksGenResult : Obligations.KsGenResult := by
  refine ⟨⟨rfl, rfl⟩, fun _ => errorsReported_all _, fun s p hkey hiv hlen =>
    ⟨_, exec_of_none (firstError_ksGen hkey hiv hlen), ?registers,
      fun a ha => (State.complete_byteAt _ a).trans (byteAt_ksGen hkey hiv ha),
      fun a ha => (State.complete_byteAt _ a).trans (byteAt_ksGen_of_not_inBuffer ha)⟩⟩
  case registers =>
    rw [effectOf, runKeystream_eq hkey hiv]
    rfl

/-- Settles O33: the effect is the stream cipher on the primary image. -/
theorem streamEncResult : Obligations.StreamEncResult :=
  ⟨⟨rfl, rfl⟩, fun _ => errorsReported_all _, fun _ _ hkey hiv hdims =>
    ⟨_, exec_of_none (firstError_streamEnc hkey hiv hdims), complete_streamCipher hkey hiv hdims,
      fun a ha => (State.complete_byteAt _ a).trans (byteAt_streamCipher_of_inBuffer hkey hiv ha),
      fun a ha => (State.complete_byteAt _ a).trans (byteAt_streamCipher_of_not_inBuffer ha)⟩⟩

/-- Settles O34: once the length check passes, the effect is that of `STREAM_ENC`; it is the last check, so a mismatch of
legal operands is the error reported. -/
theorem streamDecResult : Obligations.StreamDecResult := by
  refine ⟨⟨rfl, rfl⟩, fun _ => errorsReported_all _, fun s p hkey hiv hdims =>
    ⟨fun hlen => ?agrees, fun hlen => ?differs⟩⟩
  case agrees =>
    obtain ⟨-, -, henc⟩ := streamEncResult
    obtain ⟨t, hexec, hregs, hbytes⟩ := henc s p hkey hiv hdims
    have hsame : exec (.streamDec p) s = exec (.streamEnc p) s := by
      rw [exec_of_none (firstError_streamDec hkey hiv hdims hlen),
        exec_of_none (firstError_streamEnc hkey hiv hdims)]
      rfl
    exact ⟨t, hsame.trans hexec, hexec, congrArg State.status hregs, hbytes⟩
  case differs =>
    rw [exec_of_some (firstError_streamDec_of_not_lengthAgrees hkey hiv hdims hlen), raise_eq_failedState]
end

section
/-! PROOF. The LCG in the words of the rules: the folds of key and IV as arithmetic modulo 2^32 (R151) and the next value
as the absolute value of a signed number (R152, R153). -/

namespace Sys2Proof.Machine

open Sys2Proof.Spec

variable {s : State}

/-! ## The seed derivation (R151) -/

theorem keyBytes_length (hkey : keyLegal s) : s.keyBytes.length = s.keyLen.toNat := by
  rw [State.keyBytes, List.length_take, wordFile_bytes_length, Nat.min_eq_left hkey.2]

theorem ivBytes_length (hiv : ivLegal s) : s.ivBytes.length = s.ivLen.toNat := by
  rw [State.ivBytes, List.length_take, wordFile_bytes_length, Nat.min_eq_left hiv]

/-- One step of a fold, on words and on the numbers they hold. -/
theorem mul_add_setWidth_eq_word (mul x : Nat) (b : Byte) :
    word x * word mul + b.setWidth 32 = word ((x * mul + b.toNat) % 2 ^ 32) := by
  apply BitVec.eq_of_toNat_eq
  simp

theorem foldBytes_eq_word_fold {f : Nat → Byte} (mul seed : Nat) (bytes : List Byte)
    (h : ∀ i < bytes.length, bytes.getD i 0 = f i) :
    foldBytes (word mul) (word seed) bytes = word (fold mul f seed bytes.length) := by
  induction bytes using List.reverseRecOn with
  | nil => rfl
  | append_singleton init b ih =>
    have hinit : ∀ i < init.length, init.getD i 0 = f i := fun i hi => by
      rw [← h i (by simp; omega), List.getD_append _ _ _ _ hi]
    have hlast : b = f init.length := by simpa using h init.length (by simp)
    have hstep : foldBytes (word mul) (word seed) (init ++ [b]) =
        foldBytes (word mul) (word seed) init * word mul + b.setWidth 32 := List.foldl_append
    rw [hstep, ih hinit, mul_add_setWidth_eq_word, List.length_append, List.length_singleton, fold, hlast]

/-- The key takes part with all its bytes, whatever follows it (R151). -/
theorem deriveSeed_keyBytes (hkey : keyLegal s) (iv : List Byte) {f : Nat → Byte}
    (hiv : ∀ i < iv.length, iv.getD i 0 = f i) :
    deriveSeed s.keyBytes iv = word (fold 17 f (fold 31 (keyOr0 s) 0 s.keyLen.toNat) iv.length) := by
  have hfold : foldBytes Config.foldKeyMul 0 s.keyBytes = word (fold 31 (keyOr0 s) 0 s.keyBytes.length) :=
    foldBytes_eq_word_fold 31 0 _ fun i _ => take_bytes_getD _ hkey.2 i
  rw [deriveSeed, hfold, keyBytes_length hkey]
  exact foldBytes_eq_word_fold 17 _ iv hiv

theorem deriveSeed_eq_fold (hkey : keyLegal s) (hiv : ivLegal s) : deriveSeed s.keyBytes s.ivBytes =
    word (fold 17 (ivOr0 s) (fold 31 (keyOr0 s) 0 s.keyLen.toNat) s.ivLen.toNat) := by
  rw [deriveSeed_keyBytes hkey s.ivBytes (f := ivOr0 s) fun i _ => take_bytes_getD _ hiv i, ivBytes_length hiv]

/-- The seed of a round is the seed derived with the one-byte IV `r mod 256` (R155). -/
theorem deriveSeed_round (hkey : keyLegal s) (r : Nat) :
    deriveSeed s.keyBytes [BitVec.ofNat 8 r] = word (roundSeed s r) := by
  rw [deriveSeed_keyBytes hkey [BitVec.ofNat 8 r] (f := fun _ => BitVec.ofNat 8 r) (by simp)]
  simp [fold, roundSeed]

/-! ## The next value (R152, R153) -/

theorem lcg_le (x : Nat) : lcg x ≤ 2 ^ 31 := by
  have hlt : (x * 1664525 + 1013904223) % 2 ^ 32 < 2 ^ 32 := Nat.mod_lt _ (by decide)
  rw [lcg, signed32]
  generalize (x * 1664525 + 1013904223) % 2 ^ 32 = v at hlt
  split <;> omega

theorem toNat_word_lcg (x : Nat) : (word (lcg x)).toNat = lcg x := by
  rw [BitVec.toNat_ofNat, Nat.mod_eq_of_lt ((lcg_le x).trans_lt (by decide))]

/-- The test of the sign bit gives the absolute value: a negative number is what the word lacks to 2^32. -/
theorem ite_neg_eq_word_natAbs_signed32 (t : Word) :
    (if 2 ^ 31 ≤ t.toNat then word (2 ^ 32 - t.toNat) else t) = word (signed32 t.toNat).natAbs := by
  have hlt := t.isLt
  rw [signed32]
  split
  case isTrue hneg =>
    have habs : ((t.toNat : Int) - 2 ^ 32).natAbs = 2 ^ 32 - t.toNat := by omega
    rw [if_neg (by omega), habs]
  case isFalse hpos => rw [if_pos (by omega), Int.natAbs_natCast, word, BitVec.ofNat_toNat, BitVec.setWidth_eq]

theorem lcgNext_eq_word_lcg (seed : Word) : lcgNext seed = word (lcg seed.toNat) := by
  have hsum : (seed * Config.lcgMul + Config.lcgInc).toNat = (seed.toNat * 1664525 + 1013904223) % 2 ^ 32 := by
    rw [BitVec.toNat_add, BitVec.toNat_mul, Nat.mod_add_mod]
    rfl
  rw [lcgNext, ite_neg_eq_word_natAbs_signed32, lcg, hsum]

/-- `LCG_DERIVE` makes the checks of `XS_SEED` (R131, R151). -/
theorem firstError_lcgDerive (hkey : keyLegal s) (hiv : ivLegal s) : firstError (checksOf s .lcgDerive) = none :=
  firstError_xsSeed hkey hiv

end Sys2Proof.Machine

open Sys2Proof.Machine Sys2Proof.Spec

/-- Settles O39: the fold over the bytes of a file is the fold over their numbers. -/
theorem lcgDeriveResult : Obligations.LcgDeriveResult := by
  refine ⟨⟨rfl, rfl⟩, errorsReported_all _, fun s hkey hiv => ?_⟩
  rw [exec_of_none (firstError_lcgDerive hkey hiv), effectOf, deriveSeed_eq_fold hkey hiv]
  rfl

/-- Settles O40: there is no check, and the sign test on the wrapped sum gives its absolute value. -/
theorem lcgNextResult : Obligations.LcgNextResult := by
  refine ⟨⟨rfl, rfl⟩, fun s => ⟨?_, lcg_le _⟩⟩
  rw [exec_of_none rfl, effectOf, lcgNext_eq_word_lcg]
  rfl
end

section
/-! PROOF. The table build in the words of the rules: the shuffled list is a permutation read at the block indices (R154),
the second table is its inverse, and both read back from memory (R155). -/

namespace Sys2Proof.Machine

open Sys2Proof.Spec

/-! ## The table of a permutation -/

/-- The list that holds a map of the block indices `0` to `n - 1`. -/
def tableOf (n : Nat) (τ : Nat → Nat) : List Nat := (List.range n).map τ

@[simp] theorem tableOf_length (n : Nat) (τ : Nat → Nat) : (tableOf n τ).length = n := by simp [tableOf]

@[simp] theorem tableOf_getElem {n i : Nat} (τ : Nat → Nat) (hi : i < (tableOf n τ).length) :
    (tableOf n τ)[i] = τ i := by
  simp [tableOf]

theorem tableOf_getD (τ : Nat → Nat) {n i : Nat} (hi : i < n) : (tableOf n τ).getD i 0 = τ i := by
  rw [List.getD_eq_getElem _ _ (by simpa using hi), tableOf_getElem]

/-- Swapping two entries is composing with the swap of their indices. -/
theorem swapEntries_tableOf (σ : Equiv.Perm Nat) {n i j : Nat} (hi : i < n) (hj : j < n) :
    swapEntries (tableOf n σ) i j = tableOf n ⇑(σ * Equiv.swap i j) := by
  rw [swapEntries, tableOf_getD _ hi, tableOf_getD _ hj]
  refine List.ext_getElem (by simp) fun k hk hk' => ?_
  simp only [List.getElem_set, tableOf_getElem, Equiv.Perm.mul_apply]
  by_cases hkj : j = k
  · rw [if_pos hkj, ← hkj, Equiv.swap_apply_right]
  · rw [if_neg hkj]
    by_cases hki : i = k
    · rw [if_pos hki, ← hki, Equiv.swap_apply_left]
    · rw [if_neg hki, Equiv.swap_apply_of_ne_of_ne (Ne.symm hki) (Ne.symm hkj)]

/-! ## The shuffle and the rounds (R154, R155) -/

theorem shuffleFrom_tableOf {n x : Nat} (i : Nat) (seed : Word) (σ : Equiv.Perm Nat) (hseed : seed = word x)
    (hx : x < 2 ^ 32) (hi : i < n ∨ i = 0) :
    shuffleFrom i seed (tableOf n σ) = (tableOf n (shuffled i x σ).1, word (shuffled i x σ).2) := by
  induction i generalizing seed x σ with
  | zero => rw [hseed]; rfl
  | succ i ih =>
    have hnext : lcgNext seed = word (lcg x) := by
      rw [lcgNext_eq_word_lcg, hseed, BitVec.toNat_ofNat, Nat.mod_eq_of_lt hx]
    have hi : i + 1 < n := by omega
    have hj : lcg x % (i + 2) < n := (Nat.mod_lt _ (by omega)).trans_le (by omega)
    rw [shuffleFrom, hnext, toNat_word_lcg, swapEntries_tableOf σ hi hj, shuffled]
    exact ih _ _ rfl ((lcg_le x).trans_lt (by decide)) (.inl (by omega))

variable {s : State} {p : Buffer}

theorem buildRounds_eq_rounds (hkey : keyLegal s) (n r : Nat) :
    buildRounds s.keyBytes n r (List.range n, 0) = (tableOf n (rounds s n r).1, word (rounds s n r).2) := by
  induction r with
  | zero => simp [buildRounds, rounds, tableOf]
  | succ r ih =>
    rw [buildRounds, ih, deriveSeed_round hkey, shuffle, rounds]
    exact shuffleFrom_tableOf _ _ _ rfl (Nat.mod_lt _ (by decide)) (by omega)

/-- What `BUILD` makes is the permutation of the rules, read at the block indices, and its last seed. -/
theorem builtTable_eq_built (hkey : keyLegal s) :
    s.builtTable p = (tableOf (blocks s p) (built s p).1, word (built s p).2) :=
  buildRounds_eq_rounds hkey _ _

/-! ## The inverse (R155, R159) -/

/-- The permutation moves block indices to block indices. -/
theorem tableOf_built_perm (hkey : keyLegal s) :
    (tableOf (blocks s p) (built s p).1).Perm (List.range (blocks s p)) := by
  have hperm := buildTable_perm s.keyBytes (s.blockCount p) s.iter.toNat
  rwa [← State.builtTable, builtTable_eq_built hkey] at hperm

theorem built_lt (hkey : keyLegal s) {i : Nat} (hi : i < blocks s p) : (built s p).1 i < blocks s p := by
  have hmem : (built s p).1 i ∈ tableOf (blocks s p) (built s p).1 := List.mem_map_of_mem (List.mem_range.2 hi)
  exact List.mem_range.1 ((tableOf_built_perm hkey).mem_iff.1 hmem)

theorem built_symm_lt (hkey : keyLegal s) {i : Nat} (hi : i < blocks s p) :
    (built s p).1.symm i < blocks s p := by
  obtain ⟨j, hj, rfl⟩ := List.mem_map.1 ((tableOf_built_perm hkey).mem_iff.2 (List.mem_range.2 hi))
  rw [Equiv.symm_apply_apply]
  exact List.mem_range.1 hj

/-- The inverse table holds the inverse permutation. -/
theorem inverseTable_built (hkey : keyLegal s) :
    inverseTable (tableOf (blocks s p) (built s p).1) = tableOf (blocks s p) (built s p).1.symm := by
  refine List.ext_getElem (by simp) fun i hi _ => ?_
  have hi' : i < blocks s p := by simpa using hi
  have hj := built_symm_lt hkey hi'
  have hinv := inverseTable_getD (tableOf_built_perm hkey) hj
  rw [tableOf_getD _ hj, Equiv.apply_symm_apply, List.getD_eq_getElem _ _ hi] at hinv
  rw [hinv, tableOf_getElem]

/-! ## The tables in memory (R44, R155) -/

/-- A legal image has no more blocks than a table has entries. -/
theorem blocks_le (hdims : dimsLegal s p) : blocks s p ≤ 16384 :=
  State.blockCount_le ((s.badDims_eq_false_iff p).2 hdims)

/-- A stored entry below the capacity of the tables reads back. -/
theorem toNat_wordAt_storeEntries (u : State) (base : Nat) {τ : Nat → Nat} {n i : Nat} (hi : i < n)
    (hτ : τ i < 2 ^ 32) : ((u.storeEntries base (tableOf n τ)).wordAt (base + 4 * i)).toNat = τ i := by
  rw [u.wordAt_storeEntries_of_lt base _ i (by simpa using hi), tableOf_getD _ hi, BitVec.toNat_ofNat,
    Nat.mod_eq_of_lt hτ]

/-- The build with its tables and its seed in the words of the rules. -/
theorem build_eq (hkey : keyLegal s) : s.build p =
    { (s.storeEntries permTabBase (tableOf (blocks s p) (built s p).1)).storeEntries invTabBase
        (tableOf (blocks s p) (built s p).1.symm) with
      nBlocks := word (blocks s p), lcgSeed := word (built s p).2 } := by
  rw [State.build, builtTable_eq_built hkey, inverseTable_built hkey]
  rfl

theorem byteAt_build (hkey : keyLegal s) (a : Nat) : (s.build p).byteAt a =
    ((s.storeEntries permTabBase (tableOf (blocks s p) (built s p).1)).storeEntries invTabBase
      (tableOf (blocks s p) (built s p).1.symm)).byteAt a := by
  rw [build_eq hkey]
  rfl

/-- Beside the tables the build leaves memory as it was. -/
theorem byteAt_build_of_not_inTables (hkey : keyLegal s) {a : Nat} (ha : ¬inTables (blocks s p) a) :
    (s.build p).byteAt a = s.byteAt a := by
  obtain ⟨hperm, hinv⟩ := not_or.1 ha
  rw [byteAt_build hkey, State.byteAt_storeEntries_of_not_mem _ (by rwa [tableOf_length]),
    State.byteAt_storeEntries_of_not_mem _ (by rwa [tableOf_length])]

/-- The tables the build leaves are the permutation and its inverse: `PERMTAB` ends below `INVTAB`. -/
theorem tablesHold_build (hkey : keyLegal s) (hdims : dimsLegal s p) :
    tablesHold (s.build p) (blocks s p) (built s p).1 := by
  intro i hi
  have hn := blocks_le hdims
  have hσ := built_lt hkey hi
  have hσ' := built_symm_lt hkey hi
  have hword : ∀ a, (s.build p).wordAt a = _ := fun a => congrArg (fun u => State.wordAt u a) (build_eq hkey)
  constructor
  · have hbelow : permTabBase + 4 * i + 4 ≤ invTabBase := show 0x40000 + 4 * i + 4 ≤ 0x80000 by omega
    rw [State.permEntry, hword]
    exact (congrArg BitVec.toNat (wordAt_storeEntries_of_disjoint _ (.inl hbelow))).trans
      (toNat_wordAt_storeEntries s _ hi (by omega))
  · rw [State.invEntry, hword]
    exact toNat_wordAt_storeEntries _ _ hi (by omega)

end Sys2Proof.Machine

open Sys2Proof.Machine Sys2Proof.Spec

/-- Settles O41: the shuffled list is the composed permutation at each index, and the second table its inverse. -/
theorem permBuildResult : Obligations.PermBuildResult := by
  refine ⟨⟨rfl, rfl⟩, fun _ => errorsReported_all _, fun s p h => ?_⟩
  have hpass : firstError (checksOf s (.permBuild p)) = none := firstError_permChecks h
  obtain ⟨hkey, hdims, -⟩ := h
  refine ⟨_, exec_of_none hpass, ?registers, ?tables, fun a ha => ?rest⟩
  case registers =>
    rw [effectOf, build_eq hkey]
    rfl
  case tables => exact tablesHold_build hkey hdims
  case rest => exact (State.complete_byteAt _ a).trans (byteAt_build_of_not_inTables hkey ha)
end

section
/-! PROOF. Moving blocks in the words of the rules (R156): every block lands at its own place in the destination image, so
each pixel of a block is written once and no pixel of the border; and the commands made of the build and the move (R157,
R158). -/

namespace Sys2Proof.Machine

open Sys2Proof.Spec

/-! ## Writing pixels one after another -/

section
variable {α : Type} (f : Nat → α)

theorem foldl_set_getElem?_of_not_mem (ms : List (Nat × Nat)) (out : List α) {k : Nat} (h : ∀ m ∈ ms, m.2 ≠ k) :
    (ms.foldl (fun out m => out.set m.2 (f m.1)) out)[k]? = out[k]? := by
  induction ms generalizing out with
  | nil => rfl
  | cons a ms ih =>
    rw [List.foldl_cons, ih _ fun m hm => h m (List.mem_cons_of_mem a hm),
      List.getElem?_set_ne (h a List.mem_cons_self)]

/-- Where all writes to an index have the same source, the index holds what is made of that source. -/
theorem foldl_set_getElem?_of_mem (ms : List (Nat × Nat)) (out : List α) {m : Nat × Nat} (hm : m ∈ ms)
    (hlt : m.2 < out.length) (huniq : ∀ m' ∈ ms, m'.2 = m.2 → m' = m) :
    (ms.foldl (fun out m => out.set m.2 (f m.1)) out)[m.2]? = some (f m.1) := by
  induction ms generalizing out with
  | nil => cases hm
  | cons a ms ih =>
    rw [List.foldl_cons]
    by_cases hrest : m ∈ ms
    · exact ih _ hrest (by rwa [List.length_set]) fun m' hm' => huniq m' (List.mem_cons_of_mem a hm')
    · obtain rfl : m = a := (List.mem_cons.1 hm).resolve_right hrest
      have hnot : ∀ m' ∈ ms, m'.2 ≠ m.2 := fun m' hm' heq =>
        hrest (huniq m' (List.mem_cons_of_mem m hm') heq ▸ hm')
      rw [foldl_set_getElem?_of_not_mem f ms _ hnot, List.getElem?_set_self hlt]

end

/-! ## The place of a block's pixels (R156) -/

section
variable {w h b b' px px' py py' : Nat}

theorem blockPixel_eq_row_col (w bx b px py : Nat) :
    blockPixel w bx b px py = (8 * (b / bx) + py) * w + (8 * (b % bx) + px) := Nat.add_assoc _ _ _

/-- A pixel index determines its row and column. -/
theorem row_col_of_index_eq {x x' y y' : Nat} (hx : x < w) (hx' : x' < w) (heq : y * w + x = y' * w + x') :
    y = y' ∧ x = x' := by
  have hw : 0 < w := by omega
  obtain ⟨hrow, hcol⟩ := (Nat.div_mod_unique hw).2 ⟨show x + w * y = y * w + x by ring, hx⟩
  obtain ⟨hrow', hcol'⟩ := (Nat.div_mod_unique hw).2 ⟨show x' + w * y' = y' * w + x' by ring, hx'⟩
  exact ⟨by rw [← hrow, heq, hrow'], by rw [← hcol, heq, hcol']⟩

theorem index_lt_of_row_col {x y : Nat} (hx : x < w) (hy : y < h) : y * w + x < w * h :=
  calc y * w + x < y * w + w := Nat.add_lt_add_left hx _
    _ = w * (y + 1) := by ring
    _ ≤ w * h := Nat.mul_le_mul_left w hy

theorem blockCol_lt (hw : 8 ≤ w) (hpx : px < 8) : 8 * (b % (w / 8)) + px < 8 * (w / 8) := by
  have hmod := Nat.mod_lt b (show 0 < w / 8 by omega)
  omega

theorem blockRow_lt (hb : b < w / 8 * (h / 8)) (hpy : py < 8) : 8 * (b / (w / 8)) + py < 8 * (h / 8) := by
  have hdiv := Nat.div_lt_of_lt_mul hb
  omega

/-- Different pixels of blocks stand at different places. -/
theorem blockPixel_inj (hw : 8 ≤ w) (hpx : px < 8) (hpx' : px' < 8) (hpy : py < 8) (hpy' : py' < 8)
    (heq : blockPixel w (w / 8) b px py = blockPixel w (w / 8) b' px' py') : b = b' ∧ px = px' ∧ py = py' := by
  rw [blockPixel_eq_row_col, blockPixel_eq_row_col] at heq
  have hcol := blockCol_lt (b := b) hw hpx
  have hcol' := blockCol_lt (b := b') hw hpx'
  obtain ⟨hy, hx⟩ := row_col_of_index_eq (by omega) (by omega) heq
  have hdiv : b / (w / 8) = b' / (w / 8) := by omega
  have hmod : b % (w / 8) = b' % (w / 8) := by omega
  refine ⟨?_, by omega, by omega⟩
  rw [← Nat.div_add_mod b (w / 8), hdiv, hmod, Nat.div_add_mod]

theorem blockPixel_lt (hw : 8 ≤ w) (hb : b < w / 8 * (h / 8)) (hpx : px < 8) (hpy : py < 8) :
    blockPixel w (w / 8) b px py < w * h := by
  have hcol := blockCol_lt (b := b) hw hpx
  have hrow := blockRow_lt hb hpy
  rw [blockPixel_eq_row_col]
  exact index_lt_of_row_col (by omega) (by omega)

/-- No pixel of a block stands in the border. -/
theorem blockPixel_ne_border {x y : Nat} (hw : 8 ≤ w) (hb : b < w / 8 * (h / 8)) (hpx : px < 8) (hpy : py < 8)
    (hx : x < w) (hborder : 8 * (w / 8) ≤ x ∨ 8 * (h / 8) ≤ y) : blockPixel w (w / 8) b px py ≠ y * w + x := by
  have hcol := blockCol_lt (b := b) hw hpx
  have hrow := blockRow_lt hb hpy
  rw [blockPixel_eq_row_col]
  intro heq
  obtain ⟨hy, hx⟩ := row_col_of_index_eq (by omega) hx heq
  omega

/-! ## The moved image (R156) -/

theorem mem_blockMoves_tableOf {n bx : Nat} {τ : Nat → Nat} {m : Nat × Nat} :
    m ∈ blockMoves (tableOf n τ) w bx ↔
      ∃ b < n, ∃ py < 8, ∃ px < 8, m = (blockPixel w bx b px py, blockPixel w bx (τ b) px py) := by
  simp only [blockMoves, List.mem_flatMap, List.mem_map, List.mem_range, tableOf_length]
  refine exists_congr fun b => and_congr_right fun hb => ?_
  rw [tableOf_getD τ hb]
  exact exists_congr fun py => and_congr_right fun _ => exists_congr fun px => and_congr_right fun _ => eq_comm

variable {τ : Equiv.Perm Nat} {key : List Byte} {img : List Pixel}

/-- Block `b` lands at block `τ b`, substituted at its source offset. -/
theorem moveImage_getElem?_block (hw : 8 ≤ w) (himg : img.length = w * h)
    (hτ : ∀ b < w / 8 * (h / 8), τ b < w / 8 * (h / 8)) (hb : b < w / 8 * (h / 8)) (hpx : px < 8) (hpy : py < 8) :
    (moveImage key (tableOf (w / 8 * (h / 8)) τ) w (w / 8) img)[blockPixel w (w / 8) (τ b) px py]? =
      some (substPixel key (blockPixel w (w / 8) b px py) (img.getD (blockPixel w (w / 8) b px py) ⟨0, 0, 0, 0⟩)) := by
  refine foldl_set_getElem?_of_mem (fun k => substPixel key k (img.getD k ⟨0, 0, 0, 0⟩)) _ _
    (m := (blockPixel w (w / 8) b px py, blockPixel w (w / 8) (τ b) px py))
    (mem_blockMoves_tableOf.2 ⟨b, hb, py, hpy, px, hpx, rfl⟩) (himg ▸ blockPixel_lt hw (hτ b hb) hpx hpy) ?_
  intro m' hm' heq
  obtain ⟨b', hb', py', hpy', px', hpx', rfl⟩ := mem_blockMoves_tableOf.1 hm'
  obtain ⟨hblock, rfl, rfl⟩ := blockPixel_inj hw hpx' hpx hpy' hpy heq
  rw [τ.injective hblock]

/-- The border is copied. -/
theorem moveImage_getElem?_border {x y : Nat} (hw : 8 ≤ w) (hτ : ∀ b < w / 8 * (h / 8), τ b < w / 8 * (h / 8))
    (hx : x < w) (hborder : 8 * (w / 8) ≤ x ∨ 8 * (h / 8) ≤ y) :
    (moveImage key (tableOf (w / 8 * (h / 8)) τ) w (w / 8) img)[y * w + x]? = img[y * w + x]? := by
  refine foldl_set_getElem?_of_not_mem (fun k => substPixel key k (img.getD k ⟨0, 0, 0, 0⟩)) _ _ fun m hm => ?_
  obtain ⟨b, hb, py, hpy, px, hpx, rfl⟩ := mem_blockMoves_tableOf.1 hm
  exact blockPixel_ne_border hw (hτ b hb) hpx hpy hx hborder

end

/-! ## A stored image (R45) -/

@[simp] theorem length_flatMap_pixelBytes (img : List Pixel) : (img.flatMap Pixel.bytes).length = 4 * img.length := by
  induction img with
  | nil => rfl
  | cons x img ih => simp [ih, Pixel.bytes]; omega

theorem flatMap_pixelBytes_getD {img : List Pixel} {k c : Nat} {x : Pixel} (hk : img[k]? = some x) (hc : c < 4) :
    (img.flatMap Pixel.bytes).getD (4 * k + c) 0 = x.bytes.getD c 0 := by
  induction img generalizing k with
  | nil => simp at hk
  | cons y img ih =>
    have hlen : y.bytes.length = 4 := rfl
    rw [List.flatMap_cons]
    cases k with
    | zero =>
      obtain rfl : y = x := by simpa using hk
      rw [Nat.mul_zero, Nat.zero_add, List.getD_append _ _ _ _ (by omega)]
    | succ k =>
      rw [List.getD_append_right _ _ _ _ (by omega), hlen, show 4 * (k + 1) + c - 4 = 4 * k + c by omega]
      exact ih (by simpa using hk)

theorem pixelAt_store {u : State} {b : Buffer} {img : List Pixel} {k : Nat} {x : Pixel} (hk : img[k]? = some x) :
    (u.store b.base (img.flatMap Pixel.bytes)).pixelAt b k = x := by
  have hlt := (List.getElem?_eq_some_iff.1 hk).1
  have hbyte : ∀ c < 4, (u.store b.base (img.flatMap Pixel.bytes)).byteAt (b.base + (4 * k + c)) = x.bytes.getD c 0 :=
    fun c hc => by
      rw [State.byteAt_store_of_mem _ (by rw [length_flatMap_pixelBytes]; omega), Nat.add_sub_cancel_left,
        flatMap_pixelBytes_getD hk hc]
  rw [State.pixelAt, Pixel.mk.injEq]
  exact ⟨hbyte 0 (by decide), hbyte 1 (by decide), hbyte 2 (by decide), hbyte 3 (by decide)⟩

variable {s : State} {p : Buffer}

theorem pixelAt_move {tab : List Nat} {k : Nat} {x : Pixel}
    (hk : (moveImage s.keyBytes tab (s.width p) (s.blocksX p) (s.image p))[k]? = some x) :
    (s.move p tab).pixelAt (otherBuffer p) k = x := by
  rw [State.move, State.setDims_pixelAt]
  exact pixelAt_store hk

theorem byteAt_move_of_not_inBuffer (tab : List Nat) {a : Nat} (ha : ¬inBuffer (otherBuffer p) (plen s p) a) :
    (s.move p tab).byteAt a = s.byteAt a := by
  rw [State.move, State.setDims_byteAt, State.byteAt_store_of_not_mem]
  rwa [length_flatMap_pixelBytes, moveImage_length, State.image_length]

/-- The substitution reads the key bytes in use (R34, R156). -/
theorem substPixel_eq_substituted (hkey : keyLegal s) (k : Nat) :
    substPixel s.keyBytes k (s.pixelAt p k) = substituted s p k := by
  have hbyte : ∀ j, s.keyBytes.getD (j % s.keyBytes.length) 0 = fileByte s.key (j % s.keyLen.toNat) := fun j => by
    rw [keyBytes_length hkey, State.keyBytes, take_bytes_getD _ hkey.2, if_pos (Nat.mod_lt j hkey.1)]
  simp only [substPixel, hbyte]
  rfl

/-! ## The build, then the move (R157, R158) -/

/-- The tables lie below the buffers (R73), so the build leaves the image alone. -/
theorem image_build (hkey : keyLegal s) (hdims : dimsLegal s p) : (s.build p).image p = s.image p := by
  have hn := blocks_le hdims
  have hbyte : ∀ a, 0x1000000 ≤ a → (s.build p).byteAt a = s.byteAt a := fun a ha =>
    byteAt_build_of_not_inTables hkey (by rw [inTables]; omega)
  have hbase : 0x1000000 ≤ p.base := by cases p <;> decide
  refine List.map_congr_left fun k _ => ?_
  simp only [State.pixelAt]
  rw [hbyte _ (by omega), hbyte _ (by omega), hbyte _ (by omega), hbyte _ (by omega)]

theorem wordAt_congr {u v : State} {a : Nat} (h : ∀ c < 4, u.byteAt (a + c) = v.byteAt (a + c)) :
    u.wordAt a = v.wordAt a := by
  have h0 : u.byteAt a = v.byteAt a := h 0 (by decide)
  rw [State.wordAt, State.wordAt, h0, h 1 (by decide), h 2 (by decide), h 3 (by decide)]

/-- The tables survive the move, which writes a buffer. -/
theorem tablesHold_build_move (hkey : keyLegal s) (hdims : dimsLegal s p) (tab : List Nat) :
    tablesHold ((s.build p).move p tab) (blocks s p) (built s p).1 := by
  have hn := blocks_le hdims
  have hbase : 0x1000000 ≤ (otherBuffer p).base := by cases p <;> decide
  have hword : ∀ a, a + 4 ≤ 0x1000000 → ((s.build p).move p tab).wordAt a = (s.build p).wordAt a := fun a ha =>
    wordAt_congr fun c hc => byteAt_move_of_not_inBuffer tab (by rw [inBuffer]; omega)
  intro i hi
  rw [State.permEntry, State.invEntry, hword _ (show 0x40000 + 4 * i + 4 ≤ 0x1000000 by omega),
    hword _ (show 0x80000 + 4 * i + 4 ≤ 0x1000000 by omega)]
  exact tablesHold_build hkey hdims i hi

/-- `BUILD`, then `MOVE` along a permutation of the blocks. -/
theorem moved_build_move (h : permLegal s p) {τ : Equiv.Perm Nat} (hτ : ∀ b < blocks s p, τ b < blocks s p) :
    moved s ((s.build p).move p (tableOf (blocks s p) τ)) p τ := by
  obtain ⟨hkey, hdims, hw, -, -⟩ := h
  have hlen : (s.image p).length = s.width p * s.height p := s.image_length p
  have hpixel : ∀ k x, (moveImage s.keyBytes (tableOf (blocks s p) τ) (s.width p) (s.width p / 8) (s.image p))[k]? =
      some x → ((s.build p).move p (tableOf (blocks s p) τ)).pixelAt (otherBuffer p) k = x := fun k x hk =>
    pixelAt_move (by rwa [State.build_keyBytes, State.build_width, State.build_blocksX, image_build hkey hdims])
  refine ⟨fun b hb py hpy px hpx => ?block, fun y hy x hx hborder => ?border, fun a htab hbuf => ?rest⟩
  case block =>
    have hk := blockPixel_lt hw hb hpx hpy
    have hget := moveImage_getElem?_block (key := s.keyBytes) hw hlen hτ hb hpx hpy
    rw [List.getD_eq_getElem?_getD, getElem?_image s p hk, Option.getD_some, substPixel_eq_substituted hkey] at hget
    simp only [blockPx, ← blockPixel_eq_row_col]
    exact hpixel _ _ hget
  case border =>
    have hk : y * s.width p + x < s.pixelCount p := index_lt_of_row_col hx hy
    exact hpixel _ _ ((moveImage_getElem?_border hw hτ hx hborder).trans (getElem?_image s p hk))
  case rest =>
    rw [byteAt_move_of_not_inBuffer _ (by rwa [plen, State.build_width, State.build_height]),
      byteAt_build_of_not_inTables hkey htab]

theorem completed_eq_doneStatus (st : Status) : st.completed = doneStatus st := rfl

/-- A dimension copied from a register is that register: 16 bits hold it. -/
theorem permRegisters_build_move (hkey : keyLegal s) (tab : List Nat) :
    permRegisters s ((s.build p).move p tab).complete p := by
  rw [permRegisters, build_eq hkey]
  cases p <;> simp [State.move, State.setDims, otherBuffer, State.complete, State.width, State.height,
    completed_eq_doneStatus]

/-- What a command whose effect is the build and the move along `τ` leaves. -/
theorem exec_of_build_move {i : Instr} {τ : Equiv.Perm Nat} (h : permLegal s p)
    (hchecks : checksOf s i = s.permChecks p)
    (heff : effectOf s i = (s.build p).move p (tableOf (blocks s p) τ))
    (hτ : ∀ b < blocks s p, τ b < blocks s p) : ∃ t, exec i s = .next t ∧ permRegisters s t p ∧
      tablesHold t (blocks s p) (built s p).1 ∧ moved s t p τ := by
  have hpass : firstError (checksOf s i) = none := hchecks ▸ firstError_permChecks h
  have hmoved := moved_build_move h hτ
  obtain ⟨hkey, hdims, -⟩ := h
  refine ⟨_, exec_of_none hpass, ?_⟩
  rw [heff]
  exact ⟨permRegisters_build_move hkey _, tablesHold_build_move hkey hdims _, hmoved⟩

end Sys2Proof.Machine

open Sys2Proof.Machine Sys2Proof.Spec

/-- Settles O42: the forward table holds the permutation that the build makes. -/
theorem permEncResult : Obligations.PermEncResult := by
  refine ⟨⟨rfl, rfl⟩, fun _ => errorsReported_all _, fun s p h => ?_⟩
  have heff : effectOf s (.permEnc p) = (s.build p).move p (tableOf (blocks s p) (built s p).1) := by
    rw [effectOf, builtTable_eq_built h.1]
  exact exec_of_build_move h rfl heff fun _ => built_lt h.1

/-- Settles O43: the inverse table holds the inverse of the permutation that the build makes. -/
theorem permDecResult : Obligations.PermDecResult := by
  refine ⟨⟨rfl, rfl⟩, fun _ => errorsReported_all _, fun s p h => ?_⟩
  have heff : effectOf s (.permDec p) = (s.build p).move p (tableOf (blocks s p) (built s p).1.symm) := by
    rw [effectOf, builtTable_eq_built h.1, inverseTable_built h.1]
  exact exec_of_build_move h rfl heff fun _ => built_symm_lt h.1
end

section
/-! PROOF. The ranges of the result registers (R178, R192, R202): each metric command writes values inside them, and
nothing else writes those registers but a reset. -/

namespace Sys2Proof.Machine

variable {s : State}

/-- A word holds a value at most the number it was made from. -/
theorem word_toNat_le (n : Nat) : (word n).toNat ≤ n := by
  rw [BitVec.toNat_ofNat]
  exact Nat.mod_le _ _

/-! ## What the metric commands write -/

theorem combinedCounts_length (img : List Pixel) : (combinedCounts img).length = 256 := by
  simp [combinedCounts]

theorem measureEntropy_resultsInRange (hs : resultsInRange s) (img : List Pixel) :
    resultsInRange (s.measureEntropy img) := by
  obtain ⟨-, hrest⟩ := hs
  have hq : (s.measureEntropy img).ent.q.toNat ≤ 0x08000000 :=
    (word_toNat_le _).trans (entQ_le (combinedCounts_length img).le _)
  exact ⟨hq, by simpa using hrest⟩

/-- The mean of a sum of `w * h` differences of channel sums (R192). -/
theorem corrRegs_q_le {w h : Nat} {f g : Nat → Nat → Pixel} :
    (corrRegs (gridSum w h fun x y => absDiff (f x y).sum (g x y).sum) (w * h)).q.toNat ≤ 0x01000000 :=
  (word_toNat_le _).trans (meanQ_le (gridSum_le fun _ _ => absDiff_le (Pixel.sum_le _) (Pixel.sum_le _)))

theorem correlate_resultsInRange (hs : resultsInRange s) (img : List Pixel) (w h : Nat) :
    resultsInRange (s.correlate img w h) := by
  obtain ⟨hent, -, -, -, hdiff⟩ := hs
  exact ⟨hent, corrRegs_q_le, corrRegs_q_le, corrRegs_q_le, hdiff⟩

/-- The counts and sums of a comparison of `n` pixels are at most `n` and `765 * n` (R201, R202). -/
theorem compareImages_resultsInRange (hs : resultsInRange s) {a b : List Pixel} {n : Nat} (hlen : a.length = n)
    (hn : n < 2 ^ 32) : resultsInRange (s.compareImages a b n) := by
  obtain ⟨hent, hh, hv, hd, -⟩ := hs
  have hcount : diffCount a b ≤ n := hlen ▸ diffCount_le a b
  have hsad : sumAbsDiff a b ≤ 765 * n := hlen ▸ sumAbsDiff_le a b
  have hword : (word n).toNat = n := (BitVec.toNat_ofNat n 32).trans (Nat.mod_eq_of_lt hn)
  refine ⟨hent, hh, hv, hd, (word_toNat_le _).trans (percentQ_le hcount),
    (word_toNat_le _).trans (percentQ_le hsad), ?_⟩
  exact (word_toNat_le _).trans (hcount.trans hword.ge)

/-! ## What a command, an event and a step leave in them -/

/-- Stated for an arbitrary value, so that no proof has to evaluate the seed a command computes. -/
theorem lcgSeed_update_resultsInRange (hs : resultsInRange s) (v : Word) : resultsInRange { s with lcgSeed := v } := hs

/-- Only the three metric commands write the result registers; `NPCR_UACI` compares images that fit their buffers. -/
theorem effectOf_resultsInRange {i : Instr} (hpass : firstError (checksOf s i) = none) (hs : resultsInRange s) :
    resultsInRange (effectOf s i) := by
  cases i with
  | entropy p => exact measureEntropy_resultsInRange hs _
  | corr p => exact correlate_resultsInRange hs _ _ _
  | npcrUaci =>
    have hdims : (s.badDims .bufA || s.badDims .bufB) = false :=
      (firstError_eq_none_iff _).1 hpass (_, .badParameter) List.mem_cons_self
    obtain ⟨-, -, hfits⟩ := (s.badDims_eq_false_iff .bufA).1 (Bool.or_eq_false_iff.1 hdims).1
    exact compareImages_resultsInRange hs (s.image_length .bufA) (by rw [State.pixelCount]; omega)
  | nop | xsSeed | xsStep | lcgDerive => exact hs
  | lcgNext => exact lcgSeed_update_resultsInRange hs _
  | ksGen p | streamEnc p | streamDec p | permBuild p | permEnc p | permDec p | hist p =>
    simpa [resultsInRange, effectOf] using hs

/-- The host cannot write them (R40 to R42). -/
theorem writeReg_resultsInRange (hs : resultsInRange s) (v : Word) (r : Reg) : resultsInRange (s.writeReg v r) := by
  cases r <;> exact hs

theorem busWrite_resultsInRange (hs : resultsInRange s) (a : BusAddr) (w : AccessWidth) (v : Word) :
    resultsInRange (s.busWrite a w v).1 := by
  unfold State.busWrite
  split
  · exact hs
  · split
    case h_1 r _ => exact writeReg_resultsInRange hs v r
    all_goals exact hs

theorem deliver_resultsInRange (hs : resultsInRange s) (e : HostEvent) : resultsInRange (deliver e s).1 := by
  cases e with
  | rd a w => exact hs
  | wr a w v =>
    rw [deliver]
    split
    · exact hs
    · exact busWrite_resultsInRange hs a w v
  | reset => simp [deliver, resultsInRange, State.reset]

theorem exec_resultsInRange {i : Instr} {t : State} (h : exec i s = .next t) (hs : resultsInRange s) :
    resultsInRange t := by
  obtain ⟨e, -, rfl⟩ | ⟨hpass, rfl⟩ := exec_cases h
  · exact hs
  · exact effectOf_resultsInRange hpass hs

end Sys2Proof.Machine

open Sys2Proof.Machine

/-- Settles O53: an event writes no result register but by a reset, and a command that completes leaves them in
range. -/
theorem stepKeepsResultsInRange : Obligations.StepKeepsResultsInRange := by
  intro s t hs h
  obtain ⟨-, rfl⟩ | ⟨e, rest, -, he⟩ | ⟨_, _, _, i, -, -, -, hexec⟩ | ⟨_, _, _, _, -, -, -, rfl⟩ := step_cases h
  · exact hs
  · have ht : (deliver e { s with script := rest }).1 = t := congrArg Prod.fst he
    exact ht ▸ deliver_resultsInRange (s := { s with script := rest }) hs e
  · exact exec_resultsInRange hexec hs
  · exact hs
end

section
/-! PROOF. `HIST` and `ENTROPY` (R175 to R177): the tables they write, the bytes they leave alone, and the entropy
result. -/

namespace Sys2Proof.Machine

open Sys2Proof.Spec

variable {s t : State} {p : Buffer}

/-! ## The histogram tables (R175) -/

/-- A table that reads as the counts holds each of them, and sums to the pixel count. -/
theorem wordAt_of_histTable_eq {f : Pixel → Byte} {base : Nat}
    (h : t.histTable base = (List.range 256).map (count s p f)) :
    (∀ v < 256, (t.wordAt (base + 4 * v)).toNat = count s p f v) ∧
      ∑ v ∈ Finset.range 256, (t.wordAt (base + 4 * v)).toNat = s.width p * s.height p :=
  ⟨fun v hv => List.map_inj_left.1 h v (List.mem_range.2 hv), (congrArg List.sum h).trans (sum_count s p f)⟩

/-- `COUNT` stores the three tables and nothing else. -/
theorem byteAt_countImage_of_not_mem (s : State) (img : List Pixel) {a : Nat} (ha : ¬(0x1000 ≤ a ∧ a < 0x1C00)) :
    (s.countImage img).byteAt a = s.byteAt a := by
  have hframe : ∀ (u : State) (base : Nat) (channel : List Byte), 0x1000 ≤ base → base + 0x400 ≤ 0x1C00 →
      (u.storeEntries base (histBins channel)).byteAt a = u.byteAt a := fun u base channel hlo hhi =>
    u.byteAt_storeEntries_of_not_mem (by rw [histBins_length]; omega)
  rw [State.countImage, hframe _ _ _ (by decide) (by decide), hframe _ _ _ (by decide) (by decide),
    hframe _ _ _ (by decide) (by decide)]

/-- A store of entries changes nothing but memory. -/
theorem storeEntries_eq_withMem {s u : State} (h : u = { s with mem := u.mem }) (base : Nat) (es : List Nat) :
    u.storeEntries base es = { s with mem := (u.storeEntries base es).mem } := by
  rw [h]
  rfl

theorem countImage_eq_withMem (s : State) (img : List Pixel) :
    s.countImage img = { s with mem := (s.countImage img).mem } :=
  storeEntries_eq_withMem (storeEntries_eq_withMem (storeEntries_eq_withMem rfl _ _) _ _) _ _

theorem complete_countImage (s : State) (img : List Pixel) : (s.countImage img).complete =
    { s with mem := (s.countImage img).complete.mem, status := doneStatus s.status } := by
  rw [countImage_eq_withMem]
  rfl

/-- What both commands leave in memory: the tables of R175 with their sums, and every other byte. -/
theorem histogramOf_countImage (h : dimsLegal s p) (ht : ∀ a, t.byteAt a = (s.countImage (s.image p)).byteAt a) :
    histogramOf s t p ∧
      ∑ v ∈ Finset.range 256, (t.wordAt (0x1000 + 4 * v)).toNat = s.width p * s.height p ∧
      ∑ v ∈ Finset.range 256, (t.wordAt (0x1400 + 4 * v)).toNat = s.width p * s.height p ∧
      ∑ v ∈ Finset.range 256, (t.wordAt (0x1800 + 4 * v)).toNat = s.width p * s.height p := by
  have htable : ∀ base, (s.countImage (s.image p)).complete.histTable base = t.histTable base := fun base =>
    List.map_congr_left fun v _ => congrArg BitVec.toNat
      (wordAt_congr fun c _ => (State.complete_byteAt _ _).trans (ht _).symm)
  have htables := resultAt_countImage h
  simp only [State.resultAt, htable, ApiOutput.histogram.injEq] at htables
  obtain ⟨hr, hg, hb⟩ := htables
  obtain ⟨hrv, hrsum⟩ := wordAt_of_histTable_eq hr
  obtain ⟨hgv, hgsum⟩ := wordAt_of_histTable_eq hg
  obtain ⟨hbv, hbsum⟩ := wordAt_of_histTable_eq hb
  exact ⟨⟨fun v hv => ⟨hrv v hv, hgv v hv, hbv v hv⟩,
    fun a ha => (ht a).trans (byteAt_countImage_of_not_mem s _ ha)⟩, hrsum, hgsum, hbsum⟩

/-! ## The entropy result (R177) -/

theorem byteAt_measureEntropy (s : State) (img : List Pixel) (a : Nat) :
    (s.measureEntropy img).byteAt a = (s.countImage img).byteAt a := by
  rw [State.byteAt, State.byteAt, State.measureEntropy_mem, State.measureEntropy_resets, State.countImage_resets]

theorem complete_measureEntropy (s : State) (img : List Pixel) : (s.measureEntropy img).complete =
    { s with
      mem := (s.measureEntropy img).complete.mem
      ent := (s.measureEntropy img).ent
      status := doneStatus s.status } := by
  rw [State.measureEntropy, countImage_eq_withMem]
  rfl

theorem measureEntropy_image_ent (s : State) (p : Buffer) : (s.measureEntropy (s.image p)).ent =
    ⟨word (entQ ((List.range 256).map (combined s p)) (3 * (s.width p * s.height p))),
      word (3 * (s.width p * s.height p))⟩ := by
  rw [State.measureEntropy_ent, combinedCounts_image, State.image_length, State.pixelCount]

/-- The register holds `entQ`, which is at most 8.0 (R178 (ii)). -/
theorem measureEntropy_q_toNat (s : State) (img : List Pixel) :
    (s.measureEntropy img).ent.q.toNat = entQ (combinedCounts img) (3 * img.length) := by
  have hle := entQ_le (combinedCounts_length img).le (3 * img.length)
  rw [State.measureEntropy_ent, BitVec.toNat_ofNat, Nat.mod_eq_of_lt (by omega)]

theorem measureEntropy_t_toNat (h : dimsLegal s p) :
    (s.measureEntropy (s.image p)).ent.t.toNat = 3 * (s.width p * s.height p) := by
  obtain ⟨-, -, hlen⟩ := h
  rw [measureEntropy_image_ent, BitVec.toNat_ofNat, Nat.mod_eq_of_lt (by omega)]

end Sys2Proof.Machine

open Sys2Proof.Machine Sys2Proof.Spec

/-- Settles O45: the effect is `COUNT` on the primary image, which stores the three tables and nothing else. -/
theorem histResult : Obligations.HistResult := by
  refine ⟨⟨rfl, rfl⟩, fun _ => errorsReported_all _, fun s p h => ⟨_, exec_of_none (firstError_dims h), ?_⟩⟩
  exact ⟨complete_countImage s (s.image p), histogramOf_countImage h (State.complete_byteAt _)⟩

/-- Settles O46: the memory is as after `HIST`; the registers hold the total and `entQ` of the combined counts, which is
within the tolerance of their entropy. -/
theorem entropyResult : Obligations.EntropyResult := by
  refine ⟨⟨rfl, rfl⟩, fun _ => errorsReported_all _, fun s p h =>
    ⟨_, exec_of_none (firstError_dims h), ?regs, ?tables, measureEntropy_t_toNat h, ?within⟩⟩
  case regs =>
    rw [← measureEntropy_image_ent]
    exact complete_measureEntropy s (s.image p)
  case tables =>
    exact (histogramOf_countImage h fun a => (State.complete_byteAt _ a).trans (byteAt_measureEntropy s _ a)).1
  case within =>
    have hq := measureEntropy_q_toNat s (s.image p)
    rw [effectOf, State.complete_ent, hq]
    exact entQ_image_within h
end

section
/-! PROOF. The properties of `entQ` (R178) for 256 counts and their total, and that the limits put on its free value
(log 5) shut out no value the properties allow. -/

namespace Sys2Proof.Machine

open Sys2Proof.Spec

variable {c : List Nat}

theorem map_range_getD (h : c.length = 256) : ((List.range 256).map fun v => c.getD v 0) = c := by
  refine List.ext_getElem (by simp [h]) fun v hv hv' => ?_
  simp [List.getD_eq_getElem?_getD, hv']

/-- The sum of R177 is the entropy of the list it reads the counts from. -/
theorem entropyUnits_getD (h : c.length = 256) (ht : 0 < c.sum) :
    entropyUnits (fun v => c.getD v 0) c.sum = entropyValue c := by
  have hmap := map_range_getD h
  rw [entropyUnits_eq_entropyValue (congrArg List.sum hmap) ht, hmap]

/-- Property (iii) recognises equal counts, `2^k` in number. -/
theorem exactEntropy_of_equal_counts {m k : Nat} (hcounts : ∀ x ∈ c, x = 0 ∨ x = m)
    (hlen : (c.filter fun x => x ≠ 0).length = 2 ^ k) : exactEntropy c = some k := by
  have hfilter : (c.filter fun x => x ≠ 0) = c.filter fun v => v != 0 :=
    List.filter_congr fun x _ => by rw [Bool.eq_iff_iff]; simp
  rw [hfilter] at hlen
  unfold exactEntropy
  split
  case h_1 hf =>
    rw [hf, List.length_nil] at hlen
    exact absurd hlen (Nat.two_pow_pos k).ne
  case h_2 v rest hf =>
    have hmem : ∀ x ∈ v :: rest, x = m := fun x hx => by
      obtain ⟨hx, hne⟩ := List.mem_filter.1 (hf ▸ hx)
      exact (hcounts x hx).resolve_left (bne_iff_ne.1 hne)
    obtain ⟨rfl, hrest⟩ := List.forall_mem_cons.1 hmem
    rw [hf, List.length_cons] at hlen
    have hall : rest.all (fun u => u == v) = true := List.all_eq_true.2 fun x hx => beq_iff_eq.2 (hrest x hx)
    simp [hall, hlen]

/-- Every value within the tolerance and at most 8.0 lies between the limits. -/
theorem entMin_le_and_le_entMax {q : Nat} (ht : 0 < c.sum) (htop : q ≤ 8 * 2 ^ Config.frac)
    (hq : |(q : ℝ) - entropyValue c| ≤ Config.entTol) : entMin c c.sum ≤ q ∧ q ≤ entMax c c.sum := by
  obtain ⟨hlo, hhi⟩ := abs_le.1 hq
  rw [entMin_eq ht, entMax_eq ht, ← Nat.floor_add_natCast (entropyValue_nonneg c)]
  constructor
  · rw [Nat.sub_le_iff_le_add, Nat.ceil_le, Nat.cast_add]
    linarith
  · exact le_min (Nat.le_floor (by linarith)) htop

end Sys2Proof.Machine

open Sys2Proof.Machine Sys2Proof.Spec

/-- Settles O47: the sum of R177 is the entropy of the list, of which the limits are the exact roundings. -/
theorem entropyFunction : Obligations.EntropyFunction := by
  intro c hlen ht
  rw [entropyUnits_getD hlen ht]
  refine ⟨entQ_within_entTol hlen.le ht, entQ_le hlen.le _, fun m k hcounts hnum => ?exact,
    fun q htop hq => entMin_le_and_le_entMax ht htop hq⟩
  case exact => exact entQ_of_some (exactEntropy_of_equal_counts hcounts hnum) _
end

section
/-! PROOF. `CORR` (R190 to R193): the three registers of a direction hold its sum, count and mean without overflow, and
`EMPTY` says that the image is one pixel wide or high. -/

namespace Sys2Proof.Machine

open Sys2Proof.Spec

variable {s : State} {p : Buffer}

theorem word_toNat_of_lt {n : Nat} (h : n < 2 ^ 32) : (word n).toNat = n := by
  rw [BitVec.toNat_ofNat, Nat.mod_eq_of_lt h]

/-- The sum, the count and the mean of at most 2^20 pairs, each at most 765 apart, fit their registers (R191, R192). -/
theorem directionHolds_corrRegs {acc cnt : Nat} (hacc : acc ≤ 765 * cnt) (hcnt : cnt ≤ 2 ^ 20) :
    directionHolds (corrRegs acc cnt) acc cnt :=
  ⟨word_toNat_of_lt (by omega), word_toNat_of_lt (by omega),
    word_toNat_of_lt ((meanQ_le hacc).trans_lt (by norm_num))⟩

/-- The registers of the direction whose pairs lie `dx` and `dy` apart inside a legal image. -/
theorem directionHolds_pairSum {dx dy w h : Nat} (hdims : dimsLegal s p) (hw : w + dx ≤ s.width p)
    (hh : h + dy ≤ s.height p) :
    directionHolds (corrRegs (gridSum w h fun x y => absDiff (channelSum (s.image p) (s.width p) x y)
      (channelSum (s.image p) (s.width p) (x + dx) (y + dy))) (w * h)) (pairSum s p dx dy w h) (w * h) := by
  obtain ⟨-, -, hlen⟩ := hdims
  have hpairs : w * h ≤ s.width p * s.height p := Nat.mul_le_mul (by omega) (by omega)
  rw [gridSum_absDiff_eq_pairSum hw hh]
  exact directionHolds_corrRegs (pairSum_le hw hh) (by omega)

/-- A direction has no pair exactly where the image is one pixel wide or high (R193). -/
theorem someDirectionEmpty_eq {w h : Nat} (hw : 1 ≤ w) (hh : 1 ≤ h) :
    someDirectionEmpty w h = decide (w = 1 ∨ h = 1) := by
  rw [Bool.eq_iff_iff]
  simp only [someDirectionEmpty, Bool.or_eq_true, beq_iff_eq, Nat.mul_eq_zero, decide_eq_true_eq]
  omega

/-- `CORR` writes the three directions and `STATUS`, and nothing else. -/
theorem complete_correlate (s : State) (img : List Pixel) (w h : Nat) : (s.correlate img w h).complete =
    { s with
      corrH := (s.correlate img w h).complete.corrH
      corrV := (s.correlate img w h).complete.corrV
      corrD := (s.correlate img w h).complete.corrD
      status := ⟨true, false, someDirectionEmpty w h, s.status.sticky, 0⟩ } := rfl

end Sys2Proof.Machine

open Sys2Proof.Machine Sys2Proof.Spec

/-- Settles O48: each direction's pairs lie inside the image, so its sum is the rule's and no register overflows. -/
theorem corrResult : Obligations.CorrResult := by
  refine ⟨⟨rfl, rfl⟩, fun _ => errorsReported_all _, fun s p hdims =>
    ⟨_, exec_of_none (firstError_dims hdims), ?frame, ?directions⟩⟩
  case frame =>
    obtain ⟨hw, hh, -⟩ := hdims
    rw [← someDirectionEmpty_eq hw hh]
    exact complete_correlate s (s.image p) (s.width p) (s.height p)
  case directions =>
    have ⟨hw, hh, _⟩ := hdims
    have hw := (Nat.sub_add_cancel hw).le
    have hh := (Nat.sub_add_cancel hh).le
    exact ⟨directionHolds_pairSum (dy := 0) hdims hw le_rfl, directionHolds_pairSum (dx := 0) hdims le_rfl hh,
      directionHolds_pairSum hdims hw hh⟩
end

section
/-! PROOF. `NPCR_UACI` (R200 to R202): for two images of one pixel count the five results fit their registers, and nothing
else changes. -/

namespace Sys2Proof.Machine

open Sys2Proof.Spec

variable {s : State} {n : Nat}

/-- At most every pixel differs (R201). -/
theorem differing_le (ha : s.width .bufA * s.height .bufA = n) (hb : s.width .bufB * s.height .bufB = n) :
    differing s n ≤ n := by
  rw [← diffCount_images ha hb]
  exact (diffCount_le _ _).trans_eq ((s.image_length .bufA).trans ha)

/-- Three channels a pixel, each at most 255 apart (R201). -/
theorem sum_pixelSad_le (ha : s.width .bufA * s.height .bufA = n) (hb : s.width .bufB * s.height .bufB = n) :
    ∑ k ∈ Finset.range n, pixelSad s k ≤ 765 * n := by
  rw [← sumAbsDiff_images ha hb]
  exact (sumAbsDiff_le _ _).trans_eq (congrArg (765 * ·) ((s.image_length .bufA).trans ha))

/-- A percentage of a part at most the whole fits its register (R202). -/
theorem word_percentQ_toNat {part whole : Nat} (h : part ≤ whole) :
    (word (percentQ part whole)).toNat = 100 * part * 2 ^ 24 / whole :=
  word_toNat_of_lt ((percentQ_le h).trans_lt (by norm_num))

/-- The registers that a comparison of images of `n` pixels leaves, in the terms of R201 and R202. -/
theorem compareImages_images_diff (ha : s.width .bufA * s.height .bufA = n)
    (hb : s.width .bufB * s.height .bufB = n) :
    (s.compareImages (s.image .bufA) (s.image .bufB) (s.pixelCount .bufA)).diff =
      { npcrDiff := word (differing s n)
        npcrN := word n
        npcrQ := word (percentQ (differing s n) n)
        uaciSad := word (∑ k ∈ Finset.range n, pixelSad s k)
        uaciQ := word (percentQ (∑ k ∈ Finset.range n, pixelSad s k) (765 * n)) } := by
  have hpixels : s.pixelCount .bufA = n := ha
  rw [State.compareImages, diffCount_images ha hb, sumAbsDiff_images ha hb, hpixels]

/-- `NPCR_UACI` writes the five results and `STATUS`, and nothing else. -/
theorem complete_compareImages (s : State) (a b : List Pixel) (n : Nat) : (s.compareImages a b n).complete =
    { s with diff := (s.compareImages a b n).complete.diff, status := doneStatus s.status } := rfl

end Sys2Proof.Machine

open Sys2Proof.Machine Sys2Proof.Spec

/-- Settles O49: the count and the sum over at most 2^20 pixels are at most the wholes that R202 divides by, so no result
overflows. -/
theorem npcrUaciResult : Obligations.NpcrUaciResult := by
  refine ⟨⟨rfl, rfl⟩, errorsReported_all _, fun s n ha hb hna hnb =>
    ⟨_, exec_of_none (firstError_npcrUaci ha hb (hna.trans hnb.symm)), complete_compareImages s _ _ _, ?results⟩⟩
  case results =>
    obtain ⟨-, -, hlen⟩ := ha
    have hdiff := differing_le hna hnb
    have hsad := sum_pixelSad_le hna hnb
    rw [effectOf, State.complete_diff, compareImages_images_diff hna hnb]
    exact ⟨word_toNat_of_lt (by omega), word_toNat_of_lt (by omega), word_percentQ_toNat hdiff,
      word_toNat_of_lt (by omega), word_percentQ_toNat hsad⟩
end

section
/-! PROOF. `NOP` (R210): no check and no effect, so what is left of it is the report of a completion. -/

namespace Sys2Proof.Machine

open Sys2Proof.Spec

/-- A completion reports `DONE` with no error, and keeps `STICKY` and `EMPTY` (R26, R210). -/
theorem State.complete_eq_doneStatus (s : State) : s.complete = { s with status := doneStatus s.status } :=
  congrArg (fun st => { s with status := st }) (completed_eq_doneStatus s.status)

/-- `NOP` makes no check, so it completes from every state, and its effect is the state itself. -/
theorem exec_nop (s : State) : exec .nop s = .next s.complete :=
  have hpass : firstError (checksOf s .nop) = none := rfl
  exec_of_none hpass

end Sys2Proof.Machine

open Sys2Proof.Machine

/-- Settles O24: from every state `NOP` is the report of a completion, which writes `STATUS` only. -/
theorem nopCompletes : Obligations.NopCompletes :=
  ⟨⟨rfl, rfl⟩, fun s => (exec_nop s).trans (congrArg Host.Outcome.next s.complete_eq_doneStatus)⟩
end

section
/-! PROOF. A command none of whose causes holds completes (R231, R26): no check fails, and its effect leaves every field of
`STATUS` but `EMPTY` to the report of the completion. -/

namespace Sys2Proof.Machine

open Sys2Proof.Spec

variable {s : State} {i : Instr}

/-- The direction `firstError_of_cause` leaves open: with no cause no check fails. -/
theorem firstError_of_no_cause (h : ∀ e, ¬cause s i e) : firstError (checksOf s i) = none := by
  refine (firstError_eq_none_iff _).2 fun (failed, e) hmem => Bool.eq_false_iff.2 ?_
  rintro rfl
  exact h e (mem_checksOf_iff_cause.1 hmem)

/-- The replacement of `STATUS` by itself: what an effect keeps of it is what it would keep of any other (R23). -/
theorem effectOf_status (s : State) (i : Instr) :
    (effectOf s i).status = emptyWritten i (effectOf s i).status.empty s.status :=
  congrArg State.status (effectOf_withReport s s.status s.cmd i)

theorem emptyWritten_sticky (i : Instr) (v : Bool) (st : Status) : (emptyWritten i v st).sticky = st.sticky := by
  unfold emptyWritten
  split <;> rfl

theorem effectOf_sticky (s : State) (i : Instr) : (effectOf s i).status.sticky = s.status.sticky := by
  rw [effectOf_status, emptyWritten_sticky]

/-- With no cause a command completes, and `STICKY` is as before (R26, R231). -/
theorem exec_of_no_cause (h : ∀ e, ¬cause s i e) : ∃ t, exec i s = .next t ∧ t.status.done = true ∧
    t.status.err = false ∧ t.status.errCode = 0 ∧ t.status.sticky = s.status.sticky :=
  ⟨_, exec_of_none (firstError_of_no_cause h), rfl, rfl, rfl, effectOf_sticky s i⟩

end Sys2Proof.Machine

open Sys2Proof.Machine

/-- Settles O22: an illegal word never reaches a command's checks; of a command the first failed check is the first cause,
and with no failed check it completes. -/
theorem firstErrorReported : Obligations.FirstErrorReported :=
  ⟨fun _ s hw => runWord_of_not_legalWord hw s, fun i => ⟨errorsReported_all i, fun _ h => exec_of_no_cause h⟩⟩
end

section
/-! PROOF. The decoder and the encoder are inverse to each other, and the words the decoder takes are exactly the legal
ones (R100 to R102, R105). -/

namespace Sys2Proof.Machine

open Sys2Proof.Spec

/-! ## The rows of the opcode map, read backwards -/

theorem eq_of_rowNoSel {i j : Instr} {sel : Bool} (h : rowNoSel i sel = .ok j) : i = j := by
  rw [eq_false_of_rowNoSel h] at h
  exact Except.ok.inj h

theorem selOf_of_primaryOf {i : Instr} {sel : Bool} (h : primaryOf i = some (selBuffer sel)) :
    selOf i = BitVec.ofBool sel := by
  cases sel <;> simp [selOf, h, selBuffer]

/-- The instruction of a row has the row's opcode, and `SEL` as it was decoded (R102, R103). -/
theorem fields_of_decodeRow {opc : Nat} {sel : Bool} {i : Instr} (h : decodeRow opc sel = .ok i) :
    (opcodeOf i).toNat = opc ∧ selOf i = BitVec.ofBool sel := by
  unfold decodeRow at h
  split at h
  case h_1 | h_2 | h_3 | h_7 | h_8 | h_15 =>
    obtain rfl := eq_of_rowNoSel h
    obtain rfl := eq_false_of_rowNoSel h
    exact ⟨rfl, rfl⟩
  case h_4 | h_5 | h_6 | h_9 | h_10 | h_11 | h_12 | h_13 | h_14 =>
    obtain rfl := Except.ok.inj h
    exact ⟨rfl, selOf_of_primaryOf rfl⟩
  case h_16 => exact nomatch h

/-- A listed opcode has a row, and the row takes `SEL = 0`, and `SEL = 1` where that is allowed (R102). -/
theorem decodeRow_of_opcodeRow {opc : Nat} {sel allowed : Bool} (h : opcodeRow opc = some allowed)
    (hsel : sel = true → allowed = true) : ∃ i, decodeRow opc sel = .ok i := by
  unfold opcodeRow at h
  split at h
  case h_1 | h_2 | h_3 | h_4 | h_5 | h_6 =>
    obtain rfl := Option.some.inj h
    obtain rfl : sel = false := Bool.eq_false_iff.2 fun ht => Bool.false_ne_true (hsel ht)
    exact ⟨_, rfl⟩
  case h_16 => exact nomatch h
  all_goals exact ⟨_, rfl⟩

/-! ## The command word is its three fields (R100) -/

theorem append_fields (w : Word) : rsvField w ++ BitVec.ofBool (selField w) ++ opcField w = w := by
  apply BitVec.eq_of_getLsbD_eq
  intro i hi
  simp only [rsvField, selField, opcField, BitVec.getLsbD_append, BitVec.getLsbD_extractLsb', BitVec.getLsbD_ofBool]
  grind

theorem decode_eq_ok_iff {w : Word} {i : Instr} :
    decode w = .ok i ↔ rsvField w = 0 ∧ decodeRow (opcField w).toNat (selField w) = .ok i := by
  unfold decode
  split
  case isTrue hrsv => exact ⟨fun h => ⟨hrsv, h⟩, And.right⟩
  case isFalse hrsv => exact ⟨nofun, fun ⟨h, _⟩ => absurd h hrsv⟩

/-- A word that decodes is the word of its instruction (R101, R102). -/
theorem encode_of_decode {w : Word} {i : Instr} (h : decode w = .ok i) : encode i = w := by
  obtain ⟨hrsv, hrow⟩ := decode_eq_ok_iff.1 h
  obtain ⟨hopc, hsel⟩ := fields_of_decodeRow hrow
  have hopc : opcodeOf i = opcField w := BitVec.eq_of_toNat_eq hopc
  calc encode i = 0#23 ++ BitVec.ofBool (selField w) ++ opcField w := by rw [encode, hsel, hopc]
    _ = rsvField w ++ BitVec.ofBool (selField w) ++ opcField w := by rw [hrsv]; rfl
    _ = w := append_fields w

/-- A legal word decodes (R101, R105). -/
theorem decode_of_legalWord {w : Word} (h : legalWord w) : ∃ i, decode w = .ok i := by
  obtain ⟨hrsv, allowed, hopc, hsel⟩ := h
  rw [← rsvField_toNat] at hrsv
  rw [← opcField_toNat] at hopc
  obtain ⟨i, hrow⟩ := decodeRow_of_opcodeRow hopc hsel
  exact ⟨i, decode_eq_ok_iff.2 ⟨BitVec.eq_of_toNat_eq hrsv, hrow⟩⟩

end Sys2Proof.Machine

open Sys2Proof.Machine

/-- Settles O4: the encoder's word decodes row by row, and a word that decodes has the fields of its instruction. -/
theorem decodeEncodeAgree : Obligations.DecodeEncodeAgree :=
  ⟨fun i _ => decode_encode i, fun _ _ => encode_of_decode⟩

/-- Settles O5: the rows of the decoder are the entries of the list of R102. -/
theorem legalWordsExactly : Obligations.LegalWordsExactly :=
  fun _ => ⟨fun ⟨_, h⟩ => legalWord_of_decode h, decode_of_legalWord⟩

/-- Settles O6: seven of the words are encodings; in each of the three others one field is out of the map. -/
theorem decodedSampleWords : Obligations.DecodedSampleWords :=
  ⟨decode_encode .nop, decode_encode (.streamEnc .bufB), decode_encode .lcgNext, decode_encode (.permDec .bufB),
    decode_encode (.entropy .bufA), decode_encode (.corr .bufB), decode_encode .npcrUaci, rfl, rfl, rfl⟩
end

section
/-! PROOF. Which bytes a command or a host event may write (R73, R82, R84), and what that leaves of the canonical form
of memory and of the tables. -/

namespace Sys2Proof.Machine

open Sys2Proof.Spec

/-! ## Writes at a set of addresses -/

/-- `t` comes from `s` by writes of bytes at addresses in `R`: memory stays canonical, no other address becomes listed,
and every other byte reads as before. -/
structure WritesOnly (R : Nat → Prop) (s t : State) : Prop where
  wf : Memory.wf s.mem → Memory.wf t.mem
  listed : ∀ c ∈ t.mem, c ∈ s.mem ∨ R c.1
  byteAt_eq : ∀ a, ¬R a → t.byteAt a = s.byteAt a

section
variable {R Q : Nat → Prop} {s t u : State} {i : Instr} {p : Buffer}

/-- A change of registers writes no byte. -/
theorem WritesOnly.of_mem_eq (hmem : t.mem = s.mem) (hres : t.resets = s.resets) : WritesOnly R s t :=
  ⟨fun h => hmem ▸ h, fun _ hc => .inl (hmem ▸ hc), fun a _ => by rw [State.byteAt, State.byteAt, hmem, hres]⟩

theorem WritesOnly.trans (h : WritesOnly R s t) (h' : WritesOnly R t u) : WritesOnly R s u :=
  ⟨fun hs => h'.wf (h.wf hs), fun c hc => (h'.listed c hc).elim (h.listed c) .inr,
    fun a ha => (h'.byteAt_eq a ha).trans (h.byteAt_eq a ha)⟩

theorem WritesOnly.mono (h : WritesOnly R s t) (hRQ : ∀ a, R a → Q a) : WritesOnly Q s t :=
  ⟨h.wf, fun c hc => (h.listed c hc).imp_right (hRQ c.1), fun a ha => h.byteAt_eq a (mt (hRQ a) ha)⟩

theorem WritesOnly.store {base : Nat} {bs : List Byte} (hR : ∀ a, base ≤ a ∧ a < base + bs.length → R a) :
    WritesOnly R s (s.store base bs) :=
  ⟨fun h => Memory.wf_writeRun h _ _, fun c hc => (Memory.mem_writeRun hc).imp_right (hR c.1),
    fun a ha => s.byteAt_store_of_not_mem (mt (hR a) ha)⟩

theorem WritesOnly.storeEntries {base : Nat} {es : List Nat} (hR : ∀ a, base ≤ a ∧ a < base + 4 * es.length → R a) :
    WritesOnly R s (s.storeEntries base es) :=
  .store fun a ha => hR a (by rwa [length_flatMap_laneBytes] at ha)

/-! ## What the checks leave of a legal operand -/

/-- The checks of the permutation commands pass on legal operands only (R155). -/
theorem permLegal_of_permChecks (h : firstError (s.permChecks p) = none) : permLegal s p := by
  have hall : ∀ c ∈ s.permChecks p, c.1 = false := (firstError_eq_none_iff _).1 h
  simp only [State.permChecks, List.forall_mem_cons, Bool.or_eq_false_iff] at hall
  obtain ⟨⟨hlong, hdims⟩, hmiss, hsmall, hiter, -⟩ := hall
  obtain ⟨hw, hh⟩ := (s.tooSmall_eq_false_iff p).1 hsmall
  exact ⟨⟨s.keyMissing_eq_false_iff.1 hmiss, s.keyTooLong_eq_false_iff.1 hlong⟩, (s.badDims_eq_false_iff p).1 hdims,
    hw, hh, Nat.one_le_iff_ne_zero.2 (beq_eq_false_iff_ne.1 hiter)⟩

/-- The first check of a command that passed did not fail. -/
theorem badParameter_eq_false {failed : Bool} {rest : List (Bool × CommandError)}
    (h : firstError ((failed, .badParameter) :: rest) = none) : failed = false :=
  (firstError_eq_none_iff _).1 h (failed, .badParameter) List.mem_cons_self

/-! ## What a command may write (R84) -/

/-- The bytes a command may write: its tables and the window of the buffer it leaves its result in. -/
def writeRegion : Instr → Nat → Prop
  | .ksGen p, a | .streamEnc p, a | .streamDec p, a => inBuffer p 4194304 a
  | .permBuild _, a => inTables 16384 a
  | .permEnc p, a | .permDec p, a => inTables 16384 a ∨ inBuffer (otherBuffer p) 4194304 a
  | .hist _, a | .entropy _, a => 0x1000 ≤ a ∧ a < 0x1C00
  | .nop, _ | .xsSeed, _ | .xsStep, _ | .lcgDerive, _ | .lcgNext, _ | .corr _, _ | .npcrUaci, _ => False

theorem streamCipher_writesOnly (hdims : s.badDims p = false) :
    WritesOnly (inBuffer p 4194304) s (s.streamCipher p) := by
  have hlen : plen s p ≤ 4194304 := ((s.badDims_eq_false_iff p).1 hdims).2.2
  refine WritesOnly.trans (t := s.runKeystream (s.imageLen p)) (.of_mem_eq rfl rfl) (.store fun a ha => ?_)
  rw [List.length_zipWith, State.length_bytesAt, keystream_length, Nat.min_self, imageLen_eq_plen] at ha
  exact ⟨ha.1, by omega⟩

theorem build_writesOnly (h : permLegal s p) : WritesOnly (inTables 16384) s (s.build p) := by
  have hn : s.blockCount p ≤ 16384 := blocks_le h.2.1
  have hlen : (s.builtTable p).1.length = s.blockCount p := buildTable_length _ _ _
  refine WritesOnly.trans (.storeEntries (base := permTabBase) (es := (s.builtTable p).1) fun a ha => .inl ?_)
    (WritesOnly.trans (.storeEntries (base := invTabBase) (es := inverseTable (s.builtTable p).1) fun a ha => .inr ?_)
      (.of_mem_eq rfl rfl))
  · rw [hlen] at ha
    exact ⟨ha.1, ha.2.trans_le (Nat.add_le_add_left (Nat.mul_le_mul_left 4 hn) _)⟩
  · rw [inverseTable_length, hlen] at ha
    exact ⟨ha.1, ha.2.trans_le (Nat.add_le_add_left (Nat.mul_le_mul_left 4 hn) _)⟩

theorem move_writesOnly (hdims : s.badDims p = false) (tab : List Nat) :
    WritesOnly (inBuffer (otherBuffer p) 4194304) s (s.move p tab) := by
  have hlen : 4 * s.pixelCount p ≤ 4194304 := ((s.badDims_eq_false_iff p).1 hdims).2.2
  refine WritesOnly.trans (.store fun a ha => ?_)
    (.of_mem_eq (State.setDims_mem _ _ _ _) (State.setDims_resets _ _ _ _))
  rw [length_flatMap_pixelBytes, moveImage_length, State.image_length] at ha
  exact ⟨ha.1, by omega⟩

theorem build_move_writesOnly (h : permLegal s p) (tab : List Nat) :
    WritesOnly (fun a => inTables 16384 a ∨ inBuffer (otherBuffer p) 4194304 a) s ((s.build p).move p tab) := by
  have hdims : (s.build p).badDims p = false := by rw [State.build_badDims]; exact (s.badDims_eq_false_iff p).2 h.2.1
  exact ((build_writesOnly h).mono fun _ => .inl).trans ((move_writesOnly hdims tab).mono fun _ => .inr)

theorem countImage_writesOnly (img : List Pixel) :
    WritesOnly (fun a => 0x1000 ≤ a ∧ a < 0x1C00) s (s.countImage img) := by
  have htable : ∀ (v : State) (base : Nat) (channel : List Byte), 0x1000 ≤ base → base + 0x400 ≤ 0x1C00 →
      WritesOnly (fun a => 0x1000 ≤ a ∧ a < 0x1C00) v (v.storeEntries base (histBins channel)) :=
    fun v base channel hlo hhi => .storeEntries fun a ha => by rw [histBins_length] at ha; omega
  exact ((htable _ _ _ (by decide) (by decide)).trans (htable _ _ _ (by decide) (by decide))).trans
    (htable _ _ _ (by decide) (by decide))

/-- The new seed is some word: what it is need not be evaluated to see what else is unchanged. -/
theorem effectOf_lcgNext (s : State) : ∃ v, effectOf s .lcgNext = { s with lcgSeed := v } := ⟨lcgNext s.lcgSeed, rfl⟩

/-- A command whose checks passed writes inside its region. -/
theorem effectOf_writesOnly (hpass : firstError (checksOf s i) = none) :
    WritesOnly (writeRegion i) s (effectOf s i) := by
  cases i with
  | nop | xsSeed | xsStep | lcgDerive | corr p | npcrUaci => exact .of_mem_eq rfl rfl
  | lcgNext =>
    obtain ⟨v, hv⟩ := effectOf_lcgNext s
    rw [hv]
    exact .of_mem_eq rfl rfl
  | ksGen p =>
    obtain ⟨-, hlen⟩ := Bool.or_eq_false_iff.1 (badParameter_eq_false hpass)
    refine WritesOnly.trans (t := s.runKeystream s.ksLen.toNat) (.of_mem_eq rfl rfl) (.store fun a ha => ?_)
    rw [keystream_length] at ha
    exact ⟨ha.1, by simp only [Config.bufBytes, decide_eq_false_iff_not] at hlen; omega⟩
  | streamEnc p | streamDec p =>
    exact streamCipher_writesOnly (Bool.or_eq_false_iff.1 (badParameter_eq_false hpass)).2
  | permBuild p => exact build_writesOnly (permLegal_of_permChecks hpass)
  | permEnc p | permDec p => exact build_move_writesOnly (permLegal_of_permChecks hpass) _
  | hist p => exact countImage_writesOnly _
  | entropy p => exact (countImage_writesOnly (s.image p)).trans (.of_mem_eq rfl rfl)

theorem exec_writesOnly (h : exec i s = .next t) : WritesOnly (writeRegion i) s t := by
  obtain ⟨e, -, rfl⟩ | ⟨hpass, rfl⟩ := exec_cases h
  · exact .of_mem_eq rfl rfl
  · exact (effectOf_writesOnly hpass).trans (.of_mem_eq rfl rfl)

/-- Every region lies in the tables and buffers (R73). -/
theorem inTableOrBuffer_of_writeRegion {a : Nat} (h : writeRegion i a) : inTableOrBuffer a := by
  have hbuf : ∀ b, inBuffer b 4194304 a → inTableOrBuffer a := fun b ⟨hlo, hhi⟩ => by
    cases b
    · exact .inr (.inr (.inr (.inl ⟨hlo, hhi⟩)))
    · exact .inr (.inr (.inr (.inr ⟨hlo, hhi⟩)))
  have htab : inTables 16384 a → inTableOrBuffer a := fun ht => ht.elim (.inr ∘ .inl) (.inr ∘ .inr ∘ .inl)
  cases i with
  | ksGen p | streamEnc p | streamDec p => exact hbuf p h
  | permBuild p => exact htab h
  | permEnc p | permDec p => exact h.elim htab (hbuf _)
  | hist p | entropy p => exact .inl h
  | nop | xsSeed | xsStep | lcgDerive | lcgNext | corr p | npcrUaci => exact h.elim

/-- The tables of R43 and R44 lie below the buffers. -/
theorem not_inBuffer_of_lt {b : Buffer} {n a : Nat} (h : a < 0x1000000) : ¬inBuffer b n a := by
  have hbase : 0x1000000 ≤ b.base := by cases b <;> decide
  rintro ⟨hlo, -⟩
  omega

/-- The windows of the two buffers are apart. -/
theorem eq_of_inBuffer {b c : Buffer} {a : Nat} (hb : inBuffer b 4194304 a) (hc : inBuffer c 4194304 a) : b = c := by
  obtain ⟨hblo, hbhi⟩ := hb
  obtain ⟨hclo, hchi⟩ := hc
  cases b <;> cases c
  · rfl
  · exact absurd (hclo.trans_lt hbhi) (by decide)
  · exact absurd (hblo.trans_lt hchi) (by decide)
  · rfl

@[simp] theorem otherBuffer_otherBuffer (p : Buffer) : otherBuffer (otherBuffer p) = p := by cases p <;> rfl

/-! ## What a host event may write (R73, R74) -/

theorem writeReg_writesOnly (v : Word) (r : Reg) : WritesOnly R s (s.writeReg v r) := by
  obtain ⟨hmem, -, -, hres⟩ := s.writeReg_frame v r
  exact .of_mem_eq hmem hres

/-- An aligned word at an address of a window lies in the window. -/
theorem inBuffer_of_locate {a : Nat} (h : locate a = .buffer) (halign : a % 4 = 0) :
    ∃ b, ∀ x, a ≤ x ∧ x < a + 4 → inBuffer b 4194304 x := by
  obtain hA | hB := (locate_eq_buffer_iff a).1 h
  · exact ⟨.bufA, fun x hx => by simp only [inBuffer, Buffer.base]; omega⟩
  · exact ⟨.bufB, fun x hx => by simp only [inBuffer, Buffer.base]; omega⟩

theorem busWrite_writesOnly (s : State) (a : BusAddr) (w : AccessWidth) (v : Word) :
    WritesOnly (fun x => ∃ b, inBuffer b 4194304 x) s (s.busWrite a w v).1 := by
  unfold State.busWrite
  split
  case isTrue => exact .of_mem_eq rfl rfl
  case isFalse hacc =>
    have halign : a.toNat % 4 = 0 := by
      simp only [badAccess, Bool.or_eq_true, bne_iff_ne, not_or, not_not] at hacc
      exact hacc.2
    split
    case h_1 r _ => exact writeReg_writesOnly v r
    case h_4 hloc =>
      obtain ⟨b, hb⟩ := inBuffer_of_locate hloc halign
      exact .store fun x hx => ⟨b, hb x hx⟩
    all_goals exact .of_mem_eq rfl rfl

/-- A transaction writes in the windows of the buffers only. -/
theorem deliver_writesOnly {e : HostEvent} (he : e ≠ .reset) :
    WritesOnly (fun x => ∃ b, inBuffer b 4194304 x) s (deliver e s).1 := by
  cases e with
  | rd a w => exact .of_mem_eq rfl rfl
  | wr a w v =>
    rw [deliver]
    split
    · exact .of_mem_eq rfl rfl
    · exact (busWrite_writesOnly s a w v).trans (.of_mem_eq rfl rfl)
  | reset => exact absurd rfl he

/-! ## Invariants of the step -/

/-- What holds whatever the host's side of the interface and `CMD` hold, and is kept by every event, every command and
the report of an illegal word, is kept by every step. -/
theorem step_keeps {P : State → Prop}
    (hhost : ∀ s c es as, P s → P { s with cmd := c, script := es, answers := as })
    (hdeliver : ∀ s e, P s → P (deliver e s).1) (hexec : ∀ s i t, exec i s = .next t → P s → P t)
    (hillegal : ∀ s, P s → P (s.raise .illegalCommand)) (hs : P s) (h : step s = .next t) : P t := by
  obtain ⟨-, rfl⟩ | ⟨e, rest, -, he⟩ | ⟨_, _, _, i, -, -, -, hrun⟩ | ⟨_, _, _, _, -, -, -, rfl⟩ := step_cases h
  · exact hs
  · have ht : (deliver e { s with script := rest }).1 = t := congrArg Prod.fst he
    exact ht ▸ hdeliver _ e (hhost s s.cmd rest s.answers hs)
  · exact hexec _ i t hrun (hhost s _ _ _ hs)
  · exact hillegal _ (hhost s _ _ _ hs)

/-! ## Memory (R73, R82) -/

/-- Memory is canonical, and lists bytes of tables and buffers only. -/
def memorySound (s : State) : Prop := Memory.wf s.mem ∧ memoryMapped s

theorem WritesOnly.memorySound (h : WritesOnly R s t) (hR : ∀ a, R a → inTableOrBuffer a)
    (hs : Machine.memorySound s) : Machine.memorySound t :=
  ⟨h.wf hs.1, fun c hc => (h.listed c hc).elim (hs.2 c) (hR c.1)⟩

theorem deliver_memorySound (e : HostEvent) (hs : memorySound s) : memorySound (deliver e s).1 := by
  by_cases he : e = .reset
  · subst he
    exact ⟨Memory.wf_nil, nofun⟩
  · exact (deliver_writesOnly he).memorySound (fun a ⟨b, hb⟩ => inTableOrBuffer_of_writeRegion (i := .ksGen b) hb) hs

/-! ## The tables (R44, R159) -/

/-- The invariant reads `NBLOCKS` and the bytes of the two tables only. -/
theorem tablesInverse_congr (hn : t.nBlocks = s.nBlocks) (hb : ∀ a, inTables 16384 a → t.byteAt a = s.byteAt a)
    (hs : tablesInverse s) : tablesInverse t := by
  obtain ⟨hle, hinv⟩ := hs
  have hle' : s.nBlocks.toNat ≤ 16384 := hle
  have hperm : ∀ i < s.nBlocks.toNat, t.permEntry i = s.permEntry i := fun i hi =>
    congrArg BitVec.toNat (wordAt_congr fun c hc => hb _ (.inl (by simp only [permTabBase]; omega)))
  have hinvt : ∀ i < s.nBlocks.toNat, t.invEntry i = s.invEntry i := fun i hi =>
    congrArg BitVec.toNat (wordAt_congr fun c hc => hb _ (.inr (by simp only [invTabBase]; omega)))
  refine ⟨hn ▸ hle, fun i hi => ?_⟩
  rw [hn] at hi ⊢
  obtain ⟨hp, hq, hqp, hpq⟩ := hinv i hi
  rw [hperm i hi, hinvt i hi, hinvt _ hp, hperm _ hq]
  exact ⟨hp, hq, hqp, hpq⟩

/-- A command that writes no byte of the tables keeps them, and does not write `NBLOCKS`. -/
theorem WritesOnly.tablesInverse (h : WritesOnly R s t) (hR : ∀ a, inTables 16384 a → ¬R a)
    (hn : t.nBlocks = s.nBlocks) (hs : Machine.tablesInverse s) : Machine.tablesInverse t :=
  tablesInverse_congr hn (fun a ha => h.byteAt_eq a (hR a ha)) hs

/-- Tables that hold the built permutation and its inverse are inverse to each other. -/
theorem tablesInverse_of_tablesHold (hkey : keyLegal s) (hdims : dimsLegal s p)
    (hn : t.nBlocks = word (blocks s p)) (ht : tablesHold t (blocks s p) (built s p).1) : tablesInverse t := by
  have hle := blocks_le hdims
  have hn : t.nBlocks.toNat = blocks s p := by
    rw [hn, BitVec.toNat_ofNat, Nat.mod_eq_of_lt (by omega)]
  rw [tablesInverse, hn]
  refine ⟨hle, fun i hi => ?_⟩
  have hσ := built_lt hkey hi
  have hτ := built_symm_lt hkey hi
  obtain ⟨hp, hq⟩ := ht i hi
  rw [hp, hq, (ht _ hσ).2, (ht _ hτ).1, Equiv.symm_apply_apply, Equiv.apply_symm_apply]
  exact ⟨hσ, hτ, rfl, rfl⟩

theorem not_inTables_of_inBuffer {b : Buffer} {n a : Nat} (ha : inTables 16384 a) : ¬inBuffer b n a :=
  not_inBuffer_of_lt (by rw [inTables] at ha; omega)

/-- The histogram tables end below `PERMTAB` (R73). -/
theorem not_histogram_of_inTables {a : Nat} (ha : inTables 16384 a) : ¬(0x1000 ≤ a ∧ a < 0x1C00) := by
  rw [inTables] at ha
  omega

theorem complete_tablesInverse (hs : tablesInverse s) : tablesInverse s.complete := hs

theorem effectOf_tablesInverse (hpass : firstError (checksOf s i) = none) (hs : tablesInverse s) :
    tablesInverse (effectOf s i) := by
  have hw := effectOf_writesOnly hpass
  cases i with
  | nop | xsSeed | xsStep | lcgDerive | corr p | npcrUaci => exact hs
  | lcgNext =>
    obtain ⟨v, hv⟩ := effectOf_lcgNext s
    rw [hv]
    exact hs
  | ksGen p => exact hw.tablesInverse (fun _ => not_inTables_of_inBuffer) rfl hs
  | streamEnc p | streamDec p =>
    exact hw.tablesInverse (fun _ => not_inTables_of_inBuffer) (State.streamCipher_nBlocks s p) hs
  | hist p =>
    exact hw.tablesInverse (fun _ => not_histogram_of_inTables) (State.countImage_nBlocks s _) hs
  | entropy p =>
    exact hw.tablesInverse (fun _ => not_histogram_of_inTables) (State.measureEntropy_nBlocks s _) hs
  | permBuild p =>
    obtain ⟨hkey, hdims, -⟩ := permLegal_of_permChecks hpass
    exact tablesInverse_of_tablesHold hkey hdims (State.build_nBlocks s p) (tablesHold_build hkey hdims)
  | permEnc p | permDec p =>
    obtain ⟨hkey, hdims, -⟩ := permLegal_of_permChecks hpass
    exact tablesInverse_of_tablesHold hkey hdims ((State.move_nBlocks _ p _).trans (State.build_nBlocks s p))
      (tablesHold_build_move hkey hdims _)

theorem writeReg_nBlocks (v : Word) (r : Reg) : (s.writeReg v r).nBlocks = s.nBlocks := by
  cases r <;> rfl

theorem busWrite_nBlocks (s : State) (a : BusAddr) (w : AccessWidth) (v : Word) :
    (s.busWrite a w v).1.nBlocks = s.nBlocks := by
  unfold State.busWrite
  split
  · rfl
  · split
    case h_1 r _ => exact writeReg_nBlocks v r
    all_goals rfl

theorem deliver_tablesInverse (e : HostEvent) (hs : tablesInverse s) : tablesInverse (deliver e s).1 := by
  have hkeep : e ≠ .reset → (deliver e s).1.nBlocks = s.nBlocks → tablesInverse (deliver e s).1 := fun he hn =>
    (deliver_writesOnly he).tablesInverse (fun a ha ⟨b, hb⟩ => not_inTables_of_inBuffer ha hb) hn hs
  cases e with
  | rd a w => exact hkeep nofun rfl
  | wr a w v =>
    refine hkeep nofun ?_
    rw [deliver]
    split
    · rfl
    · exact busWrite_nBlocks s a w v
  | reset => exact ⟨Nat.zero_le _, nofun⟩

end

end Sys2Proof.Machine

open Sys2Proof.Machine Sys2Proof.Spec

/-- Settles O50: commands and transactions write bytes of tables and buffers only, in runs that keep the form, and a
reset lists none. -/
theorem stepKeepsMemory : Obligations.StepKeepsMemory := by
  intro s t hwf hmap h
  exact step_keeps (P := memorySound) (fun _ _ _ _ hs => hs) (fun _ e hs => deliver_memorySound e hs)
    (fun _ _ _ hrun hs => (exec_writesOnly hrun).memorySound (fun _ => inTableOrBuffer_of_writeRegion) hs)
    (fun _ hs => hs) ⟨hwf, hmap⟩ h

/-- Settles O52: a permutation command leaves the permutation it built and its inverse; every other command, and every
transaction, writes neither the tables nor `NBLOCKS`; a reset leaves no block. -/
theorem stepKeepsTablesInverse : Obligations.StepKeepsTablesInverse := by
  intro s t hs h
  refine step_keeps (P := tablesInverse) (fun _ _ _ _ hs => hs) (fun _ e hs => deliver_tablesInverse e hs)
    (fun s i t hrun hs => ?_) (fun _ hs => hs) hs h
  obtain ⟨e, -, rfl⟩ | ⟨hpass, rfl⟩ := exec_cases hrun
  · exact hs
  · exact complete_tablesInverse (effectOf_tablesInverse hpass hs)

/-- Settles O27: the regions of the commands meet a window only where the statement says. -/
theorem commandsWriteTheirBuffersOnly : Obligations.CommandsWriteTheirBuffersOnly := by
  intro i s t b a h ha hne
  have hreg : writeRegion i a := by
    by_contra hnot
    exact hne ((exec_writesOnly h).byteAt_eq a hnot)
  have htab : ¬inTables 16384 a := fun ht => not_inTables_of_inBuffer ht ha
  cases i with
  | ksGen p =>
    obtain rfl := eq_of_inBuffer ha hreg
    exact .inl (.inl rfl)
  | streamEnc p =>
    obtain rfl := eq_of_inBuffer ha hreg
    exact .inl (.inr (.inl rfl))
  | streamDec p =>
    obtain rfl := eq_of_inBuffer ha hreg
    exact .inl (.inr (.inr rfl))
  | permBuild p => exact absurd hreg htab
  | permEnc p =>
    obtain rfl := eq_of_inBuffer ha (hreg.resolve_left htab)
    exact .inr (.inl (by rw [otherBuffer_otherBuffer]))
  | permDec p =>
    obtain rfl := eq_of_inBuffer ha (hreg.resolve_left htab)
    exact .inr (.inr (by rw [otherBuffer_otherBuffer]))
  | hist p | entropy p => exact absurd ha (not_inBuffer_of_lt (hreg.2.trans (by decide)))
  | nop | xsSeed | xsStep | lcgDerive | lcgNext | corr p | npcrUaci => exact hreg.elim
end

section
/-! PROOF. The report of a command in `STATUS` (R26, R221, R222, R234): what an error and a completion leave of it, and
what the host can write of it. -/

namespace Sys2Proof.Machine

open Sys2Proof.Spec

variable {s t : State} {i : Instr} {st : Status}

/-! ## What a command leaves in `STATUS` -/

/-- A command that leaves `ERR` at 1 is one of whose checks failed. -/
theorem exec_eq_raise_of_err (h : exec i s = .next t) (herr : t.status.err = true) :
    ∃ e, firstError (checksOf s i) = some e ∧ t = s.raise e := by
  obtain hfail | ⟨-, rfl⟩ := exec_cases h
  · exact hfail
  · exact absurd herr Bool.false_ne_true

/-- A report is overwritten by the next one of the same error (R234). -/
theorem raise_raise (s : State) (e : CommandError) : (s.raise e).raise e = s.raise e := rfl

/-- The checks do not read `STATUS`, so the report of an error changes none of them. -/
theorem checksOf_raise (s : State) (e : CommandError) (i : Instr) : checksOf (s.raise e) i = checksOf s i :=
  checksOf_withReport s (s.status.failed e) s.cmd i

/-! ## Coherence (R26, R221) -/

theorem CommandError.code_ne_zero (e : CommandError) : e.code ≠ 0 := by cases e <;> decide

theorem CommandError.code_le (e : CommandError) : e.code.toNat ≤ 7 := by cases e <;> decide

theorem Status.coherent_failed (e : CommandError) : (st.failed e).coherent :=
  ⟨by simp [Status.failed], by simpa [Status.failed] using e.code_ne_zero, e.code_le⟩

theorem Status.coherent_completed : st.completed.coherent := by
  simp [Status.coherent, Status.completed]

theorem exec_coherent (h : exec i s = .next t) : t.status.coherent := by
  obtain ⟨e, -, rfl⟩ | ⟨-, rfl⟩ := exec_cases h
  · exact Status.coherent_failed e
  · exact Status.coherent_completed

/-! ## What a transaction does to `STATUS` -/

theorem offset_of_locate {a : Nat} {r : Reg} (h : locate a = .register r) : r.offset = a := by
  unfold locate at h
  split at h
  case isTrue =>
    cases hr : regAt a with
    | none => simp [hr] at h
    | some r' =>
      obtain rfl : r' = r := by simpa [hr] using h
      exact offset_of_regAt hr
  case isFalse => split_ifs at h

theorem writeReg_status_of_ne (v : Word) {r : Reg} (hr : r ≠ .status) : (s.writeReg v r).status = s.status := by
  cases r with
  | status => exact absurd rfl hr
  | _ => rfl

/-- A transaction changes `STATUS` only as a write at its offset. -/
theorem busWrite_status (s : State) (a : BusAddr) (w : AccessWidth) (v : Word) :
    (s.busWrite a w v).1.status = s.status ∨
      (w = .w32 ∧ a.toNat = Reg.offset .status ∧ (s.busWrite a w v).1.status = s.status.hostWrite v) := by
  unfold State.busWrite
  split
  case isTrue => exact .inl rfl
  case isFalse hacc =>
    have hw : w = .w32 := by
      simp only [badAccess, Bool.or_eq_true, bne_iff_ne, not_or, not_not] at hacc
      exact hacc.1
    split
    case h_1 r hloc =>
      by_cases hr : r = .status
      · subst hr
        exact .inr ⟨hw, (offset_of_locate hloc).symm, rfl⟩
      · exact .inl (writeReg_status_of_ne v hr)
    all_goals exact .inl rfl

/-- An event leaves `STATUS` alone but for a reset and a write at its offset. -/
theorem deliver_status (s : State) (e : HostEvent) :
    (deliver e s).1.status = s.status ∨ (e = .reset ∧ (deliver e s).1.status = State.reset.status) ∨
      ∃ v, e = .wr 0x0000008 .w32 v ∧ (deliver e s).1.status = s.status.hostWrite v := by
  cases e with
  | rd a w => exact .inl rfl
  | reset => exact .inr (.inl ⟨rfl, rfl⟩)
  | wr a w v =>
    rw [deliver]
    split
    · exact .inl rfl
    · obtain hkeep | ⟨rfl, ha, hwrite⟩ := busWrite_status s a w v
      · exact .inl hkeep
      · obtain rfl : a = 0x0000008 := BitVec.eq_of_toNat_eq ha
        exact .inr (.inr ⟨v, rfl, hwrite⟩)

theorem Status.coherent_hostWrite (v : Word) (h : st.coherent) : (st.hostWrite v).coherent := h

theorem deliver_coherent (e : HostEvent) (h : s.status.coherent) : (deliver e s).1.status.coherent := by
  obtain hkeep | ⟨-, hreset⟩ | ⟨v, -, hwrite⟩ := deliver_status s e
  · rwa [hkeep]
  · rw [hreset]
    simp [Status.coherent, State.reset]
  · rw [hwrite]
    exact Status.coherent_hostWrite v h

/-- No command clears `STICKY` (R26). -/
theorem exec_sticky (h : exec i s = .next t) (hs : s.status.sticky = true) : t.status.sticky = true := by
  obtain ⟨e, -, rfl⟩ | ⟨-, rfl⟩ := exec_cases h
  · rfl
  · exact (effectOf_sticky s i).trans hs

theorem Status.hostWrite_sticky_eq_false {v : Word} (hs : st.sticky = true) (h : (st.hostWrite v).sticky = false) :
    v.getLsbD 3 = true := by
  simpa [Status.hostWrite, hs] using h

end Sys2Proof.Machine

open Sys2Proof.Machine Sys2Proof.Spec

/-- Settles O21: with `ERR` at 1 a check failed, and the report is all that changes. -/
theorem failureChangesOnlyStatus : Obligations.FailureChangesOnlyStatus := by
  intro i s t h herr
  obtain ⟨e, -, rfl⟩ := exec_eq_raise_of_err h herr
  exact ⟨e, raise_eq_failedState s e⟩

/-- Settles O23: the report changes no check, so the same check fails first, and its report is in place already. -/
theorem failureRepeats : Obligations.FailureRepeats := by
  intro i s t h herr
  obtain ⟨e, he, rfl⟩ := exec_eq_raise_of_err h herr
  rw [exec_of_some ((congrArg firstError (checksOf_raise s e i)).trans he), raise_raise]

/-- Settles O29: an error report has `ERR` alone, a completion `DONE` alone. -/
theorem commandEndsDoneOrErr : Obligations.CommandEndsDoneOrErr := by
  intro i s t h
  obtain ⟨e, -, rfl⟩ | ⟨-, rfl⟩ := exec_cases h
  · simp [Status.failed]
  · simp [Status.completed]

/-- Settles O28: of the events only a reset and a write to `STATUS` touch `STICKY`, and no command clears it. -/
theorem stickyClearedOnlyByHost : Obligations.StickyClearedOnlyByHost := by
  intro s t h hs ht
  have hkept : t.status.sticky ≠ true := Bool.eq_false_iff.1 ht
  obtain ⟨-, rfl⟩ | ⟨e, rest, hscript, he⟩ | ⟨_, _, _, i, -, -, -, hrun⟩ | ⟨_, _, _, _, -, -, -, rfl⟩ := step_cases h
  · exact absurd hs hkept
  · obtain rfl : (deliver e { s with script := rest }).1 = t := congrArg Prod.fst he
    obtain hkeep | ⟨rfl, -⟩ | ⟨v, rfl, hwrite⟩ := deliver_status { s with script := rest } e
    · exact absurd ((congrArg Status.sticky hkeep).trans hs) hkept
    · exact ⟨rest, .inl hscript⟩
    · rw [hwrite] at ht
      exact ⟨rest, .inr ⟨v, hscript, Status.hostWrite_sticky_eq_false hs ht⟩⟩
  · exact absurd (exec_sticky hrun hs) hkept
  · exact absurd rfl hkept

/-- Settles O51: a command leaves a coherent report from any state, and an event keeps one. -/
theorem stepKeepsStatusCoherent : Obligations.StepKeepsStatusCoherent := by
  intro s t hs h
  exact step_keeps (P := fun u => u.status.coherent) (fun _ _ _ _ hs => hs) (fun _ e hs => deliver_coherent e hs)
    (fun _ _ _ hrun _ => exec_coherent hrun) (fun _ _ => Status.coherent_failed _) hs h
end

section
/-! PROOF. The registers no command writes (R34, R35, R47): those the host loads, but for the secondary dimensions. -/

namespace Sys2Proof.Machine

/-- The registers the host loads before a command, but for the dimensions. -/
structure HostRegs where
  key : WordFile
  iv : WordFile
  keyLen : BitVec 6
  ivLen : BitVec 6
  chkLen : Bool
  iter : Word
  ksLen : Word
  origLen : Word
  cmd : Word

def State.hostRegs (s : State) : HostRegs :=
  ⟨s.key, s.iv, s.keyLen, s.ivLen, s.chkLen, s.iter, s.ksLen, s.origLen, s.cmd⟩

variable {s t : State} {i : Instr} {p : Buffer}

theorem effectOf_hostRegs (s : State) (i : Instr) : (effectOf s i).hostRegs = s.hostRegs := by
  cases i with
  | nop | xsSeed | xsStep | lcgDerive | corr p | npcrUaci => rfl
  | lcgNext =>
    obtain ⟨v, hv⟩ := effectOf_lcgNext s
    rw [hv]
    rfl
  | ksGen p | streamEnc p | streamDec p | permBuild p | permEnc p | permDec p | hist p | entropy p =>
    simp [effectOf, State.hostRegs]

/-- `MOVE` writes the dimensions of the secondary buffer only (R156). -/
theorem move_dims_of_ne (tab : List Nat) {b : Buffer} (hb : b ≠ otherBuffer p) :
    (s.move p tab).width b = s.width b ∧ (s.move p tab).height b = s.height b := by
  cases p <;> cases b
  · exact ⟨rfl, rfl⟩
  · exact absurd rfl hb
  · exact absurd rfl hb
  · exact ⟨rfl, rfl⟩

/-- Only the commands that move blocks write dimensions, those of the secondary buffer (R156). -/
theorem effectOf_dims (s : State) (i : Instr) {b : Buffer}
    (hb : ∀ p, i = .permEnc p ∨ i = .permDec p → b ≠ otherBuffer p) :
    (effectOf s i).width b = s.width b ∧ (effectOf s i).height b = s.height b := by
  cases i with
  | nop | xsSeed | xsStep | lcgDerive | corr p | npcrUaci => cases b <;> exact ⟨rfl, rfl⟩
  | lcgNext =>
    obtain ⟨v, hv⟩ := effectOf_lcgNext s
    rw [hv]
    cases b <;> exact ⟨rfl, rfl⟩
  | ksGen p | streamEnc p | streamDec p | permBuild p | hist p | entropy p => simp [effectOf]
  | permEnc p =>
    have hmove := move_dims_of_ne (s := s.build p) (s.builtTable p).1 (hb p (.inl rfl))
    rwa [State.build_width, State.build_height] at hmove
  | permDec p =>
    have hmove := move_dims_of_ne (s := s.build p) (inverseTable (s.builtTable p).1) (hb p (.inr rfl))
    rwa [State.build_width, State.build_height] at hmove

theorem exec_hostRegs (h : exec i s = .next t) : t.hostRegs = s.hostRegs := by
  obtain ⟨e, -, rfl⟩ | ⟨-, rfl⟩ := exec_cases h
  · rfl
  · exact effectOf_hostRegs s i

theorem exec_dims (h : exec i s = .next t) {b : Buffer}
    (hb : ∀ p, i = .permEnc p ∨ i = .permDec p → b ≠ otherBuffer p) :
    t.width b = s.width b ∧ t.height b = s.height b := by
  obtain ⟨e, -, rfl⟩ | ⟨-, rfl⟩ := exec_cases h
  · exact ⟨State.raise_width s e b, State.raise_height s e b⟩
  · rw [State.complete_width, State.complete_height]
    exact effectOf_dims s i hb

end Sys2Proof.Machine

open Sys2Proof.Machine

/-- Settles O26: neither a report nor an effect writes a register the host loads, and `MOVE` alone writes dimensions. -/
theorem commandsKeepHostRegisters : Obligations.CommandsKeepHostRegisters := by
  intro i s t h
  have hregs := exec_hostRegs h
  simp only [State.hostRegs, HostRegs.mk.injEq] at hregs
  obtain ⟨hkey, hiv, hkeyLen, hivLen, hchk, hiter, hks, horig, hcmd⟩ := hregs
  refine ⟨hkey, hiv, hkeyLen, hivLen, hchk, hiter, hks, horig, hcmd, fun b hne => ?_⟩
  by_contra hnot
  obtain ⟨hw, hh⟩ := exec_dims h (b := b) fun p hi hb => hnot ⟨p, hi, hb⟩
  exact hne.elim (· hw) (· hh)
end

section
/-! PROOF. The host's registers (R24 to R42, R47, R74): which bits a write stores, where each register stands, and the
layout of `STATUS` (R26). -/

namespace Sys2Proof.Machine

open Sys2Proof.Spec

variable {s : State}

/-! ## The value a write leaves in its register -/

/-- What a host write leaves in a register whose writable bits are `mask`: those of the data, the others as before. -/
def storedBits (mask old v : Word) : Word := (v &&& mask) ||| (old &&& ~~~mask)

theorem storedBits_all (old v : Word) : storedBits 0xFFFFFFFF old v = v := by
  have hmask : (0xFFFFFFFF : Word) = BitVec.allOnes 32 := by decide
  rw [storedBits, hmask, BitVec.and_allOnes, BitVec.not_allOnes, BitVec.and_zero, BitVec.or_zero]

theorem storedBits_none (old v : Word) : storedBits 0 old v = old := by
  have hmask : ~~~(0 : Word) = BitVec.allOnes 32 := by decide
  rw [storedBits, hmask, BitVec.and_allOnes]
  simp

/-- A field of `n` bits takes the low `n` bits of the data. -/
theorem storedBits_field {n : Nat} (x : BitVec n) (v : Word) :
    storedBits ((BitVec.allOnes n).setWidth 32) (x.setWidth 32) v = (v.setWidth n).setWidth 32 := by
  rw [storedBits, setWidth_and_above]
  ext i hi
  simp [Bool.and_comm, BitVec.getLsbD_eq_getElem hi]

/-- A host write stores the writable bits of its register and leaves the others (R74). -/
theorem readReg_writeReg_self (v : Word) {r : Reg} (hcmd : r ≠ .cmd) (hstatus : r ≠ .status) :
    (s.writeReg v r).readReg r = storedBits (writableBits r) (s.readReg r) v := by
  cases r with
  | cmd => exact absurd rfl hcmd
  | status => exact absurd rfl hstatus
  | ctrl =>
    refine Eq.trans ?_ (storedBits_field (BitVec.ofBool s.chkLen) v).symm
    rw [BitVec.setWidth_one]
    rfl
  | keyLen => exact (storedBits_field s.keyLen v).symm
  | ivLen => exact (storedBits_field s.ivLen v).symm
  | aW => exact (storedBits_field s.aW v).symm
  | aH => exact (storedBits_field s.aH v).symm
  | bW => exact (storedBits_field s.bW v).symm
  | bH => exact (storedBits_field s.bH v).symm
  | iter | ksLen | origLen | lcgSeed | xs0 | xs1 | xs2 | xs3 => exact (storedBits_all _ v).symm
  | key0 | key1 | key2 | key3 | key4 | key5 | key6 | key7 => exact (storedBits_all _ v).symm
  | iv0 | iv1 | iv2 | iv3 | iv4 | iv5 | iv6 | iv7 => exact (storedBits_all _ v).symm
  | id | ksWord | nBlocks | entQ | entT => exact (storedBits_none _ v).symm
  | corrHAcc | corrHCnt | corrHQ | corrVAcc | corrVCnt | corrVQ | corrDAcc | corrDCnt | corrDQ =>
    exact (storedBits_none _ v).symm
  | npcrDiff | npcrN | npcrQ | uaciSad | uaciQ => exact (storedBits_none _ v).symm

/-- A read after a write: only the register written can differ. -/
theorem readReg_writeReg (s : State) (v : Word) (r q : Reg) :
    (s.writeReg v r).readReg q = if q = r then (s.writeReg v r).readReg r else s.readReg q := by
  cases r <;> cases q <;> rfl

theorem readReg_withHost (s : State) (es : List HostEvent) (as : List Answer) (q : Reg) :
    (s.withHost es as).readReg q = s.readReg q := by
  cases q <;> rfl

/-! ## Where the registers stand (R47) -/

theorem mem_allRegs (r : Reg) : r ∈ allRegs := List.mem_of_find?_eq_some (regAt_offset r)

/-- Below 0x1000 a word at no register's offset is reserved. -/
theorem locate_eq_reserved {a : Nat} (ha : a < 0x1000) (h : a ∉ allRegs.map Reg.offset) : locate a = .reserved := by
  have hnone : regAt a = none := regAt_eq_none fun r hr => h (List.mem_map.2 ⟨r, mem_allRegs r, hr⟩)
  simp [locate, ha, hnone]

/-! ## Words as sums of their parts (R26, R75) -/

theorem append_toNat {n m : Nat} (x : BitVec n) (y : BitVec m) : (x ++ y).toNat = 2 ^ m * x.toNat + y.toNat := by
  rw [BitVec.toNat_append, ← Nat.shiftLeft_add_eq_or_of_lt y.isLt, Nat.shiftLeft_eq, Nat.mul_comm]

theorem toWord_toNat (st : Status) : st.toWord.toNat = (if st.done then 1 else 0) + (if st.err then 2 else 0) +
    (if st.empty then 4 else 0) + (if st.sticky then 8 else 0) + 256 * st.errCode.toNat := by
  have hbit : ∀ (b : Bool) (n : Nat), n * (BitVec.ofBool b).toNat = if b then n else 0 := fun b n => by
    cases b <;> simp
  rw [← hbit st.empty, ← hbit st.sticky, ← hbit st.err, ← hbit st.done]
  simp only [Status.toWord, append_toNat, BitVec.toNat_ofNat]
  omega

theorem laneWord_toNat (b0 b1 b2 b3 : Byte) :
    (laneWord b0 b1 b2 b3).toNat = b0.toNat + 2 ^ 8 * b1.toNat + 2 ^ 16 * b2.toNat + 2 ^ 24 * b3.toNat := by
  simp only [laneWord, append_toNat]
  omega

/-! ## Words of tables and buffers (R73, R75) -/

theorem locate_of_inTableOrBuffer {a : Nat} (h : inTableOrBuffer a) : locate a = .table ∨ locate a = .buffer := by
  rw [locate_eq_table_iff, locate_eq_buffer_iff]
  simp only [inTableOrBuffer, Config.maxBlocks, Config.bufBytes] at h
  omega

theorem busRead_of_inTableOrBuffer {a : BusAddr} (halign : a.toNat % 4 = 0) (h : inTableOrBuffer a.toNat) :
    s.busRead a .w32 = .value (s.wordAt a.toNat) := by
  obtain hloc | hloc := locate_of_inTableOrBuffer h <;> simp [State.busRead, badAccess, halign, hloc]

theorem locate_of_inBuffer {b : Buffer} {a : Nat} (h : inBuffer b 4194304 a) : locate a = .buffer := by
  obtain ⟨hlo, hhi⟩ := h
  cases b
  · exact (locate_eq_buffer_iff a).2 (.inl ⟨hlo, hhi⟩)
  · exact (locate_eq_buffer_iff a).2 (.inr ⟨hlo, hhi⟩)

theorem busWrite_of_inBuffer {b : Buffer} {a : BusAddr} (v : Word) (halign : a.toNat % 4 = 0)
    (h : inBuffer b 4194304 a.toNat) : s.busWrite a .w32 v = (s.store a.toNat (laneBytes v), .written) := by
  simp [State.busWrite, badAccess, halign, locate_of_inBuffer h]

theorem byteAt_store_laneBytes (s : State) (a : Nat) (v : Word) {j : Nat} (hj : j < 4) :
    (s.store a (laneBytes v)).byteAt (a + j) = (laneBytes v).getD j 0 := by
  rw [State.byteAt_store_of_mem _ (by rw [laneBytes_length]; omega), Nat.add_sub_cancel_left]

/-- A stored word reads back. -/
theorem wordAt_store_laneBytes (s : State) (a : Nat) (v : Word) : (s.store a (laneBytes v)).wordAt a = v := by
  have h0 := byteAt_store_laneBytes s a v (j := 0) (by decide)
  rw [Nat.add_zero] at h0
  rw [State.wordAt, h0, byteAt_store_laneBytes s a v (by decide), byteAt_store_laneBytes s a v (by decide),
    byteAt_store_laneBytes s a v (by decide)]
  exact laneWord_of_lanes v

theorem run_succ {n : Nat} {t : State} (h : step s = .next t) : run (n + 1) s = run n t := by
  rw [run, h]

/-- The step on a write to a window stores the word (R75). -/
theorem step_of_windowWrite {a : BusAddr} {v : Word} {rest : List HostEvent} {b : Buffer}
    (hs : s.script = .wr a .w32 v :: rest) (halign : a.toNat % 4 = 0) (ha : inBuffer b 4194304 a.toNat) :
    step s = .next ((s.store a.toNat (laneBytes v)).withHost rest (.written :: s.answers)) := by
  have hcmd : locate a.toNat ≠ .register .cmd := by simp [locate_of_inBuffer ha]
  rw [step_of_write hs (startsCommand_eq_false hcmd), busWrite_of_inBuffer v halign ha]
  rfl

/-- The step on a read of a table or buffer answers the word there (R75). -/
theorem step_of_wordRead {a : BusAddr} {rest : List HostEvent} (hs : s.script = .rd a .w32 :: rest)
    (halign : a.toNat % 4 = 0) (ha : inTableOrBuffer a.toNat) :
    step s = .next (s.withHost rest (.value (s.wordAt a.toNat) :: s.answers)) := by
  rw [step_of_read hs, busRead_of_inTableOrBuffer halign ha]
  rfl

theorem wordAt_withHost (s : State) (es : List HostEvent) (as : List Answer) (a : Nat) :
    (s.withHost es as).wordAt a = s.wordAt a := rfl

/-- A word written to a window is read back in the next step. -/
theorem run_write_read {a : BusAddr} {v : Word} {rest : List HostEvent} {b : Buffer}
    (hs : s.script = .wr a .w32 v :: .rd a .w32 :: rest) (halign : a.toNat % 4 = 0)
    (ha : inBuffer b 4194304 a.toNat) :
    run 2 s = .next ((s.store a.toNat (laneBytes v)).withHost rest (.value v :: .written :: s.answers)) := by
  have hmapped : inTableOrBuffer a.toNat := inTableOrBuffer_of_writeRegion (i := .ksGen b) ha
  rw [run_succ (step_of_windowWrite hs halign ha), run_one, step_of_wordRead rfl halign hmapped, wordAt_withHost,
    wordAt_store_laneBytes]
  rfl

/-! ## Every step answers a next state -/

theorem step_next (s : State) : ∃ t, step s = .next t := by
  cases hs : s.script with
  | nil => exact ⟨s, step_of_nil hs⟩
  | cons e rest =>
    rw [step_of_cons hs, finish]
    cases (deliver e { s with script := rest }).2 with
    | none => exact ⟨_, rfl⟩
    | some w =>
      obtain ⟨t, ht, -⟩ := runWord_answers w (deliver e { s with script := rest }).1
      exact ⟨t, ht⟩

end Sys2Proof.Machine

open Sys2Proof.Machine Sys2Proof.Spec

/-- Settles O7: the step on the write is the run of its word, which decodes. -/
theorem stepRunsDecodedCommand : Obligations.StepRunsDecodedCommand :=
  fun _ _ _ _ hs hw => (step_of_cmdWrite hs).trans (runWord_of_ok hw _)

/-- Settles O10: an event ends in a state, and a command it starts always runs to one. -/
theorem stepNeverStops : Obligations.StepNeverStops := step_next

/-- Settles O11: with no event pending the step answers the state it is in. -/
theorem idleKeepsState : Obligations.IdleKeepsState := fun _ => step_of_nil

/-- Settles O12: every register is found at its offset, and a word found at none is reserved. -/
theorem registerMapOffsets : Obligations.RegisterMapOffsets :=
  ⟨rfl, mem_allRegs, locate_offset, fun _ => locate_eq_reserved⟩

/-- Settles O13: the step on a read records its answer only. -/
theorem readHasNoSideEffect : Obligations.ReadHasNoSideEffect := by
  intro s a w rest hs
  refine ⟨_, step_of_read hs, fun r hw ha => ?_⟩
  subst hw
  simp [State.busRead, badAccess, ha, offset_mod]

/-- Settles O14: the answer is the word at the address, whose lanes are the four bytes from there. -/
theorem readIsLittleEndian : Obligations.ReadIsLittleEndian := by
  intro s a rest hs halign ha
  exact ⟨s.wordAt a.toNat, by rw [step_of_read hs, busRead_of_inTableOrBuffer halign ha], laneWord_toNat _ _ _ _⟩

/-- Settles O16: the step on a write to a register other than `CMD` is `writeReg`, which changes that register only. -/
theorem hostWriteStoresWritableBits : Obligations.HostWriteStoresWritableBits := by
  intro s r v rest hcmd hstatus hs
  obtain ⟨hmem, -, -, hres⟩ := s.writeReg_frame v r
  refine ⟨_, step_of_regWrite hcmd hs, ?self, fun q hq => ?others, hmem, hres, rfl, rfl⟩
  case self => rw [readReg_withHost, readReg_writeReg_self v hcmd hstatus, storedBits]
  case others => rw [readReg_withHost, readReg_writeReg, if_neg hq]

/-- Settles O18: the write to `STATUS` is a register write. -/
theorem statusWriteClearsStickyOnly : Obligations.StatusWriteClearsStickyOnly := by
  intro s v rest hs
  have hsticky : s.status.hostWrite v =
      { s.status with sticky := if v.getLsbD 3 then false else s.status.sticky } := by
    rw [Status.hostWrite]
    cases v.getLsbD 3 <;> simp
  rw [← hsticky]
  exact step_of_regWrite (r := .status) (by decide) hs

/-- Settles O19: the word is its fields side by side. -/
theorem statusWordLayout : Obligations.StatusWordLayout := fun s => toWord_toNat s.status

/-- Settles O20: the write stores the four lanes, and the read puts them together again. -/
theorem bufferWriteThenRead : Obligations.BufferWriteThenRead := by
  intro s a v rest b hs halign ha
  refine ⟨_, run_write_read hs halign ha, rfl, rfl, fun j hj => ?inside, fun x hx => ?outside⟩
  case inside => exact (byteAt_store_laneBytes s _ v hj).trans (ofNat_div_eq_lane v hj).symm
  case outside => exact s.byteAt_store_of_not_mem hx
end

section
/-! PROOF. Reset (R48, R250, R251): the reset values, the event that restores them, what the commands do right after it,
and the invariants it meets. -/

namespace Sys2Proof.Machine

open Sys2Proof.Spec

/-- Every register but `ID` reads 0 after reset (R48). -/
theorem reset_readReg (r : Reg) : State.reset.readReg r = if r = .id then 0x584B4701 else 0 := by
  cases r <;> rfl

/-- Nothing is written after reset, so every byte reads as the free value (R48, R261). -/
theorem reset_byteAt (a : Nat) : State.reset.byteAt a = Config.unwrittenByte 0 a := rfl

theorem resetEvent_readReg (s : State) (r : Reg) : s.resetEvent.readReg r = State.reset.readReg r := by
  cases r <;> rfl

theorem resetEvent_byteAt (s : State) (a : Nat) : s.resetEvent.byteAt a = Config.unwrittenByte (s.resets + 1) a := rfl

theorem step_of_reset {s : State} {rest : List HostEvent} (h : s.script = .reset :: rest) :
    step s = .next (State.resetEvent { s with script := rest }) := step_of_cons h

/-- Right after reset there is no key, no dimension and no iteration, so every check that reads one of them fails. -/
theorem firstError_reset {i : Instr} (hnop : i ≠ .nop) (hxs : i ≠ .xsStep) (hlcg : i ≠ .lcgNext) :
    firstError (checksOf State.reset i) = some .badParameter ∨
      firstError (checksOf State.reset i) = some .invalidKey := by
  cases i with
  | nop => exact absurd rfl hnop
  | xsStep => exact absurd rfl hxs
  | lcgNext => exact absurd rfl hlcg
  | xsSeed | lcgDerive => exact .inr rfl
  | ksGen p => exact .inr rfl
  | streamEnc p | streamDec p | permBuild p | permEnc p | permDec p | hist p | entropy p | corr p =>
    exact .inl (by cases p <;> rfl)
  | npcrUaci => exact .inl rfl

theorem fileWord_zero (j : Nat) : fileWord WordFile.zero j = 0 := by
  unfold fileWord
  split <;> rfl

/-- The first output of the LCG from seed 0 is its increment (R152). -/
theorem lcgNext_zero : lcgNext 0 = 0x3C6EF35F := by decide

end Sys2Proof.Machine

open Sys2Proof.Machine Sys2Proof.Spec

/-- Settles O1: reset writes 0 to every register and no byte. -/
theorem resetRegisterValues : Obligations.ResetRegisterValues := ⟨reset_readReg, reset_byteAt⟩

/-- Settles O2: the event puts the reset values in place and counts itself. -/
theorem resetEventRestoresRegisters : Obligations.ResetEventRestoresRegisters := by
  intro s rest hs
  exact ⟨_, step_of_reset hs, fun r => (resetEvent_readReg _ r).trans (reset_readReg r), resetEvent_byteAt _, rfl, rfl⟩

/-- Settles O3: three commands make no check; of every other one the first check fails or, with no dimension to check,
the key is missing. -/
theorem resetStateInert : Obligations.ResetStateInert := by
  refine ⟨exec_nop _, ?xsStep, ?lcgNext, fun i hnop hxs hlcg => ?others, fileWord_zero, fileWord_zero⟩
  case xsStep =>
    have hzero : xsStep State.reset.xs = State.reset.xs := by decide
    rw [exec_of_none rfl, effectOf, hzero]
    rfl
  case lcgNext =>
    have hseed : lcgNext State.reset.lcgSeed = 0x3C6EF35F := lcgNext_zero
    rw [exec_of_none rfl, effectOf, hseed]
    rfl
  case others =>
    obtain he | he := firstError_reset hnop hxs hlcg
    · exact .inl (by rw [exec_of_some he, raise_eq_failedState])
    · exact .inr (by rw [exec_of_some he, raise_eq_failedState])

/-- Settles O54: with no byte listed, no block and every register 0 the invariants hold. -/
theorem resetMeetsInvariants : Obligations.ResetMeetsInvariants :=
  ⟨Memory.wf_nil, nofun, by simp [Status.coherent, State.reset], ⟨Nat.zero_le _, nofun⟩,
    by simp [resultsInRange, State.reset]⟩
end

section
/-! PROOF. What the rules say of the stream cipher as a whole (R137, R256, R257): it undoes itself, reads eight key
bytes only, keeps the low bit of alpha, and does nothing from the zero seed. -/

namespace Sys2Proof.Machine

open Sys2Proof.Spec

variable {s t u : State} {p : Buffer}

/-! ## The state that matters is the pair `XS0`, `XS1` (R132) -/

/-- The two words a step reads. -/
def samePair (x y : XsState) : Prop := x.x0 = y.x0 ∧ x.x1 = y.x1

theorem xorshift_samePair {x y : XsState} (h : samePair x y) : samePair (xorshift x) (xorshift y) := by
  obtain ⟨h0, h1⟩ := h
  constructor <;> simp only [xorshift, h0, h1]

theorem iterate_xorshift_samePair {x y : XsState} (n : Nat) (h : samePair x y) :
    samePair (xorshift^[n] x) (xorshift^[n] y) := by
  induction n generalizing x y with
  | zero => exact h
  | succ n ih => exact ih (xorshift_samePair h)

/-- The zero pair stays zero (R256). -/
theorem iterate_xorshift_zero {x : XsState} (n : Nat) (h0 : x.x0 = 0) (h1 : x.x1 = 0) :
    (xorshift^[n] x).x0 = 0 ∧ (xorshift^[n] x).x1 = 0 := by
  induction n generalizing x with
  | zero => exact ⟨h0, h1⟩
  | succ n ih => exact ih (xorshift_zero h0 h1).1 (xorshift_zero h0 h1).2

theorem keystreamByte_congr (h : samePair (seed s) (seed t)) (i : Nat) : keystreamByte s i = keystreamByte t i := by
  rw [keystreamByte, keystreamByte, (iterate_xorshift_samePair (i / 4 + 1) h).1]

theorem keystreamEnd_samePair (h : samePair (seed s) (seed t)) (n : Nat) :
    samePair (keystreamEnd s n) (keystreamEnd t n) := iterate_xorshift_samePair _ h

/-! ## The seed (R131) -/

/-- The pair is made of key bytes 0 to 7. -/
theorem seed_samePair (h : ∀ i < 8, keyOr0 s i = keyOr0 t i) : samePair (seed s) (seed t) := by
  constructor <;> simp only [seed, seedWord]
  · rw [h 0 (by decide), h 1 (by decide), h 2 (by decide), h 3 (by decide)]
  · rw [h 4 (by decide), h 5 (by decide), h 6 (by decide), h 7 (by decide)]

/-- Bytes that pair off cancel. -/
theorem seedWord_eq_zero {f : Nat → Byte} {b : Nat} (h : f b = f (b + 2)) (h' : f (b + 1) = f (b + 3)) :
    seedWord f b = 0 := by
  simp [seedWord, h, h']

/-- From the zero seed every keystream byte is 0 (R256). -/
theorem keystreamByte_eq_zero (h0 : (seed s).x0 = 0) (h1 : (seed s).x1 = 0) (i : Nat) : keystreamByte s i = 0 := by
  rw [keystreamByte, (iterate_xorshift_zero (i / 4 + 1) h0 h1).1]
  simp

/-! ## The bytes after the cipher (R135) -/

/-- The cipher writes no operand of its own, so what holds of the operands before it holds after it. -/
theorem streamOperands_kept (ht : t = { s with mem := t.mem, xs := t.xs, ksWord := t.ksWord, status := t.status })
    (hkey : keyLegal s) (hiv : ivLegal s) (hdims : dimsLegal s p) :
    keyLegal t ∧ ivLegal t ∧ dimsLegal t p ∧ plen t p = plen s p ∧ seed t = seed s ∧
      (lengthAgrees s p → lengthAgrees t p) := by
  rw [ht]
  cases p <;> exact ⟨hkey, hiv, hdims, rfl, rfl, id⟩

/-- The same keystream twice restores every byte (R137 (a)). -/
theorem byteAt_of_cipher_twice {n : Nat} {k : Nat → Byte}
    (ht : ∀ a, inBuffer p n a → t.byteAt a = s.byteAt a ^^^ k (a - p.base))
    (ht' : ∀ a, ¬inBuffer p n a → t.byteAt a = s.byteAt a)
    (hu : ∀ a, inBuffer p n a → u.byteAt a = t.byteAt a ^^^ k (a - p.base))
    (hu' : ∀ a, ¬inBuffer p n a → u.byteAt a = t.byteAt a) (a : Nat) : u.byteAt a = s.byteAt a := by
  by_cases ha : inBuffer p n a
  · rw [hu a ha, ht a ha, BitVec.xor_assoc, BitVec.xor_self, BitVec.xor_zero]
  · rw [hu' a ha, ht' a ha]

/-- The ciphertext and the registers it leaves depend on the image and the pair of the seed only (R137 (b)). -/
theorem exec_streamEnc_congr (hkey : keyLegal s) (hiv : ivLegal s) (hdims : dimsLegal s p) {s' : State}
    (hkey' : keyLegal s') (hiv' : ivLegal s') (hdims' : dimsLegal s' p) (hseed : samePair (seed s) (seed s'))
    (hlen : plen s' p = plen s p) (hbytes : ∀ a, s'.byteAt a = s.byteAt a) :
    ∃ t u, exec (.streamEnc p) s = .next t ∧ exec (.streamEnc p) s' = .next u ∧ (∀ a, t.byteAt a = u.byteAt a) ∧
      t.xs.x0 = u.xs.x0 ∧ t.xs.x1 = u.xs.x1 ∧ t.ksWord = u.ksWord := by
  obtain ⟨-, -, henc⟩ := streamEncResult
  obtain ⟨t, hexec, ht, hin, hout⟩ := henc s p hkey hiv hdims
  obtain ⟨u, hexec', hu, hin', hout'⟩ := henc s' p hkey' hiv' hdims'
  rw [hlen] at hu hin' hout'
  obtain ⟨h0, h1⟩ := keystreamEnd_samePair hseed (plen s p)
  refine ⟨t, u, hexec, hexec', fun a => ?bytes, ?x0, ?x1, ?ksWord⟩
  case bytes =>
    by_cases ha : inBuffer p (plen s p) a
    · rw [hin a ha, hin' a ha, hbytes, keystreamByte_congr hseed]
    · rw [hout a ha, hout' a ha, hbytes]
  case x0 => rw [ht, hu]; exact h0
  case x1 => rw [ht, hu]; exact h1
  case ksWord => rw [ht, hu]; exact h0

/-! ## The alpha byte (R137 (e)) -/

/-- The last byte of an output word is its low byte, which is even (R132, R133). -/
theorem keystreamByte_alpha_getLsbD_zero (s : State) (k : Nat) : (keystreamByte s (4 * k + 3)).getLsbD 0 = false := by
  have hmod : (4 * k + 3) % 4 = 3 := by omega
  rw [keystreamByte, hmod, ofNat_div_eq_keystreamBytes _ (by decide), Function.iterate_succ_apply']
  have hlow : ∀ w : Word, ((keystreamBytes w).getD 3 0).getLsbD 0 = w.getLsbD 0 := fun w => by
    simp [keystreamBytes]
  rw [hlow, xorshift_x0_getLsbD_zero]

theorem inBuffer_of_pixel {k c : Nat} (hk : k < s.width p * s.height p) (hc : c < 4) :
    inBuffer p (plen s p) (p.base + (4 * k + c)) := by
  rw [inBuffer, plen]
  omega

end Sys2Proof.Machine

open Sys2Proof.Machine Sys2Proof.Spec

/-- Settles O35: the operands stand as before the first cipher, so the second XORs the same keystream. -/
theorem streamRoundTrip : Obligations.StreamRoundTrip := by
  intro s p hkey hiv hdims
  obtain ⟨-, -, henc⟩ := streamEncResult
  obtain ⟨t, hexec, ht, hin, hout⟩ := henc s p hkey hiv hdims
  obtain ⟨hkey', hiv', hdims', hlen, hseed, hagree⟩ := streamOperands_kept (t := t) (by rw [ht]) hkey hiv hdims
  have hks : ∀ i, keystreamByte t i = keystreamByte s i := fun i => by rw [keystreamByte, hseed, keystreamByte]
  obtain ⟨u, hagain, -, hin', hout'⟩ := henc t p hkey' hiv' hdims'
  simp only [hlen, hks] at hin' hout'
  have hback := byteAt_of_cipher_twice hin hout hin' hout'
  refine ⟨t, hexec, ⟨u, hagain, hback⟩, fun hlegal => ⟨u, ?_, hback⟩⟩
  rw [exec_of_none (firstError_streamDec hkey' hiv' hdims' (hagree hlegal)), ← hagain,
    exec_of_none (firstError_streamEnc hkey' hiv' hdims')]
  rfl

/-- Settles O36: the two states have the same pair of seed words and the same image. -/
theorem keystreamIgnoresIv : Obligations.KeystreamIgnoresIv :=
  fun _ _ _ _ _ _ hkey hiv hdims hkey' hiv' hbytes =>
    exec_streamEnc_congr hkey hiv hdims hkey' hiv' hdims (seed_samePair hbytes) rfl fun _ => rfl

/-- Settles O37: the alpha byte of pixel `k` is XORed with the low byte of an output word. -/
theorem alphaLowBitKept : Obligations.AlphaLowBitKept := by
  intro s p hkey hiv hdims
  obtain ⟨-, -, henc⟩ := streamEncResult
  obtain ⟨t, hexec, -, hin, -⟩ := henc s p hkey hiv hdims
  refine ⟨t, hexec, fun k hk => ?_⟩
  have halpha : (t.pixelAt p k).a = (s.pixelAt p k).a ^^^ keystreamByte s (4 * k + 3) := by
    have hbyte := hin _ (inBuffer_of_pixel hk (c := 3) (by decide))
    rwa [Nat.add_sub_cancel_left] at hbyte
  rw [halpha, BitVec.getLsbD_xor, keystreamByte_alpha_getLsbD_zero, Bool.xor_false]

/-- Settles O38: the pair of zeros is a fixed point of the step, a key whose bytes pair off seeds it, and its keystream
is all zeros. -/
theorem zeroSeedEncryptsNothing : Obligations.ZeroSeedEncryptsNothing := by
  refine ⟨fun s h0 h1 => ?step, fun s p hkey hiv hdims h02 h13 h46 h57 => ?seeded⟩
  case step =>
    obtain ⟨hx0, hx1⟩ := xorshift_zero h0 h1
    exact ⟨_, (xsStepResult.2 s).1, hx0, hx1, hx0⟩
  case seeded =>
    have h0 : (seed s).x0 = 0 := seedWord_eq_zero h02 h13
    have h1 : (seed s).x1 = 0 := seedWord_eq_zero h46 h57
    obtain ⟨-, -, hxsSeed⟩ := xsSeedResult
    obtain ⟨-, -, henc⟩ := streamEncResult
    obtain ⟨t, hexec, ht, hin, hout⟩ := henc s p hkey hiv hdims
    obtain ⟨hx0, hx1⟩ := iterate_xorshift_zero ((plen s p + 3) / 4) h0 h1
    refine ⟨⟨_, hxsSeed s hkey hiv, h0, h1⟩, t, hexec, ?done, ?err, ?x0, ?x1, fun a => ?bytes⟩
    case done | err => rw [ht]; rfl
    case x0 => rw [ht]; exact hx0
    case x1 => rw [ht]; exact hx1
    case bytes =>
      by_cases ha : inBuffer p (plen s p) a
      · rw [hin a ha, keystreamByte_eq_zero h0 h1]
        exact BitVec.xor_zero
      · exact hout a ha
end

section
/-! PROOF. `PERM_DEC` undoes `PERM_ENC` where `KEYLEN` divides 32 (R159 (d), R258): the same permutation is built, and
the two substitutions of a pixel read the same key bytes. -/

namespace Sys2Proof.Machine

open Sys2Proof.Spec

variable {s t u : State} {p : Buffer}

/-! ## The second command builds the same permutation -/

theorem rounds_congr (hkey : t.key = s.key) (hlen : t.keyLen = s.keyLen) (n r : Nat) : rounds t n r = rounds s n r := by
  have hbyte : keyOr0 t = keyOr0 s := by
    funext i
    rw [keyOr0, keyOr0, hkey, hlen]
  induction r with
  | zero => rfl
  | succ r ih => rw [rounds, rounds, ih, roundSeed, roundSeed, hbyte, hlen]

/-- The secondary dimensions are those of the primary image (R156). -/
theorem permRegisters_dims (h : permRegisters s t p) :
    t.width (otherBuffer p) = s.width p ∧ t.height (otherBuffer p) = s.height p := by
  rw [h]
  cases p <;> exact ⟨rfl, rfl⟩

/-- What the second command reads is as the first one found it. -/
structure SamePermOperands (s : State) (p : Buffer) (t : State) (q : Buffer) : Prop where
  key : t.key = s.key
  keyLen : t.keyLen = s.keyLen
  iter : t.iter = s.iter
  width : t.width q = s.width p
  height : t.height q = s.height p

theorem samePermOperands_of_permRegisters (h : permRegisters s t p) : SamePermOperands s p t (otherBuffer p) := by
  obtain ⟨hw, hh⟩ := permRegisters_dims h
  exact ⟨by rw [h], by rw [h], by rw [h], hw, hh⟩

section
variable {q : Buffer} (h : SamePermOperands s p t q)
include h

theorem SamePermOperands.permLegal (hs : permLegal s p) : Machine.permLegal t q := by
  simpa only [Machine.permLegal, keyLegal, dimsLegal, h.keyLen, h.iter, h.width, h.height] using hs

theorem SamePermOperands.blocks : blocks t q = blocks s p := by
  rw [Spec.blocks, Spec.blocks, h.width, h.height]

theorem SamePermOperands.built : built t q = built s p := by
  rw [Spec.built, Spec.built, h.blocks, h.iter, rounds_congr h.key h.keyLen]

theorem SamePermOperands.blockPx (b px py : Nat) : blockPx t q b px py = blockPx s p b px py := by
  rw [Spec.blockPx, Spec.blockPx, h.width]

end

/-! ## The substitution twice (R156) -/

/-- The key index of a byte depends on its place inside the block only: blocks are 8 pixels of 4 bytes apart in a row,
and rows of blocks 32 times the width. -/
theorem keyIndex_blockPx {n : Nat} (hn : n ∣ 32) (b px py c : Nat) :
    (4 * blockPx s p b px py + c) % n = (4 * (py * s.width p + px) + c) % n := by
  obtain ⟨m, hm⟩ := hn
  have hsplit : 4 * blockPx s p b px py + c = 4 * (py * s.width p + px) + c +
      n * (m * (b / (s.width p / 8) * s.width p + b % (s.width p / 8))) := by
    rw [← Nat.mul_assoc, ← hm, blockPx]
    ring
  rw [hsplit, Nat.add_mul_mod_self_left]

/-- Substituting at two places with the same key indices restores the pixel. -/
theorem substituted_substituted {q : Buffer} {k k' : Nat} (hkey : t.key = s.key) (hlen : t.keyLen = s.keyLen)
    (hindex : ∀ c, (4 * k' + c) % s.keyLen.toNat = (4 * k + c) % s.keyLen.toNat)
    (ht : t.pixelAt q k' = substituted s p k) : substituted t q k' = s.pixelAt p k := by
  simp only [substituted, ht, hkey, hlen, hindex, BitVec.xor_assoc, BitVec.xor_self, BitVec.xor_zero]

/-! ## Pixels and bytes of an image (R45) -/

/-- A pixel outside the border is a pixel of a block (R156). -/
theorem exists_blockPx {x y : Nat} (hx : x < 8 * (s.width p / 8)) (hy : y < 8 * (s.height p / 8)) :
    ∃ b < blocks s p, ∃ py < 8, ∃ px < 8, blockPx s p b px py = y * s.width p + x := by
  have hcol : x / 8 < s.width p / 8 := by omega
  have hrow : y / 8 < s.height p / 8 := by omega
  obtain ⟨hdiv, hmod⟩ := (Nat.div_mod_unique (by omega : 0 < s.width p / 8)).2
    ⟨show x / 8 + s.width p / 8 * (y / 8) = y / 8 * (s.width p / 8) + x / 8 by ring, hcol⟩
  refine ⟨y / 8 * (s.width p / 8) + x / 8, index_lt_of_row_col hcol hrow, y % 8, Nat.mod_lt _ (by decide), x % 8,
    Nat.mod_lt _ (by decide), ?_⟩
  rw [blockPx, hdiv, hmod, Nat.div_add_mod, Nat.div_add_mod]

/-- Images with the same pixels have the same bytes. -/
theorem byteAt_eq_of_pixelAt_eq (h : ∀ k < s.width p * s.height p, u.pixelAt p k = s.pixelAt p k) {a : Nat}
    (ha : inBuffer p (plen s p) a) : u.byteAt a = s.byteAt a := by
  obtain ⟨i, rfl⟩ := Nat.exists_eq_add_of_le ha.1
  have hi : i < 4 * (s.width p * s.height p) := Nat.lt_of_add_lt_add_left ha.2
  have hpixel := h (i / 4) (by omega)
  simp only [State.pixelAt, Pixel.mk.injEq] at hpixel
  obtain ⟨hr, hg, hb, ha⟩ := hpixel
  have hsplit : p.base + i = p.base + 4 * (i / 4) + i % 4 := by omega
  have hlane : i % 4 < 4 := Nat.mod_lt _ (by decide)
  rw [hsplit]
  generalize i % 4 = c at hlane
  interval_cases c
  · exact hr
  · exact hg
  · exact hb
  · exact ha

/-- Moving along a permutation and back along its inverse restores every pixel. -/
theorem pixelAt_of_moved_back {q : Buffer} {τ : Equiv.Perm Nat} (h : SamePermOperands s p t q) (hq : q = otherBuffer p)
    (hlen : s.keyLen.toNat ∣ 32) (hτ : ∀ b < blocks s p, τ b < blocks s p) (hst : moved s t p τ)
    (htu : moved t u q τ.symm) {k : Nat} (hk : k < s.width p * s.height p) : u.pixelAt p k = s.pixelAt p k := by
  obtain ⟨hblock, hborder, -⟩ := hst
  obtain ⟨hblock', hborder', -⟩ := htu
  subst hq
  rw [otherBuffer_otherBuffer] at hblock' hborder'
  rw [h.blocks] at hblock'
  rw [h.width, h.height] at hborder'
  have hw : 0 < s.width p := Nat.pos_of_mul_pos_right (Nat.zero_lt_of_lt hk)
  have hx : k % s.width p < s.width p := Nat.mod_lt _ hw
  have hy : k / s.width p < s.height p := Nat.div_lt_of_lt_mul hk
  rw [← Nat.div_add_mod' k (s.width p)]
  by_cases hout : 8 * (s.width p / 8) ≤ k % s.width p ∨ 8 * (s.height p / 8) ≤ k / s.width p
  · rw [hborder' _ hy _ hx hout, hborder _ hy _ hx hout]
  · obtain ⟨hxin, hyin⟩ := not_or.1 hout
    obtain ⟨b, hb, py, hpy, px, hpx, hk⟩ := exists_blockPx (Nat.lt_of_not_le hxin) (Nat.lt_of_not_le hyin)
    have hback := hblock' (τ b) (hτ b hb) py hpy px hpx
    rw [τ.symm_apply_apply, h.blockPx, h.blockPx] at hback
    rw [← hk, hback]
    refine substituted_substituted h.key h.keyLen (fun c => ?_) (hblock b hb py hpy px hpx)
    rw [keyIndex_blockPx hlen, keyIndex_blockPx hlen]

end Sys2Proof.Machine

open Sys2Proof.Machine Sys2Proof.Spec

/-- Settles O44: the second command builds the first one's permutation and moves along its inverse. -/
theorem permRoundTrip : Obligations.PermRoundTrip := by
  intro s p hlegal hlen
  obtain ⟨-, -, henc⟩ := permEncResult
  obtain ⟨-, -, hdec⟩ := permDecResult
  obtain ⟨t, hexec, hregs, -, hmoved⟩ := henc s p hlegal
  have hsame := samePermOperands_of_permRegisters hregs
  obtain ⟨u, hexec', hregs', -, hmoved'⟩ := hdec t (otherBuffer p) (hsame.permLegal hlegal)
  rw [hsame.built] at hmoved'
  obtain ⟨hw, hh⟩ := permRegisters_dims hregs'
  rw [otherBuffer_otherBuffer] at hw hh
  refine ⟨t, u, hexec, hexec', hw.trans hsame.width, hh.trans hsame.height, fun a ha => ?_⟩
  exact byteAt_eq_of_pixelAt_eq (fun k hk => pixelAt_of_moved_back hsame rfl (Nat.dvd_of_mod_eq_zero hlen)
    (fun _ => built_lt hlegal.1) hmoved hmoved' hk) ha
end
